-- ==== Sys2Proof/Word.lean ====
section
/-! DEFINITION. The word types of the TTB I/O block. -/

namespace Sys2Proof

/-- One byte: a serial byte, a text byte, a glyph row, a transfer byte (R32). -/
abbrev Byte := BitVec 8

/-- One nibble: a hexadecimal digit, or half of an LCD byte (R31, R32). -/
abbrev Nibble := BitVec 4

/-- One 16-bit op word in the format `OPW16` (R43). -/
abbrev OpWord := BitVec 16

/-- One payload segment: a list of bytes (R45). -/
abbrev Segment := List Byte

end Sys2Proof
end

