-- ==== Sys2Proof/Config.lean ====
section
/-! DEFINITION. What an implementation fixes: the constants and parameters of rule R5 and part P of
93_implementation_defined.md, and the two kinds of value the spec leaves open (durations and raw pin levels). -/

namespace Sys2Proof

namespace Config

/-! ## Constants (R5): values the spec gives once for every block -/

/-- FRAME_LEN, the bytes of a serial frame. -/
abbrev frameLen : Nat := 14

/-- START_CODE. -/
abbrev startCode : Byte := 0x02

/-- END_CODE. -/
abbrev endCode : Byte := 0x03

/-- DATA_DIGITS, frame bytes 1..10. -/
abbrev dataDigits : Nat := 10

/-- CKS_DIGITS, frame bytes 11..12. -/
abbrev cksDigits : Nat := 2

/-- PAYLOAD_BYTES. -/
abbrev payloadBytes : Nat := 5

/-- TAG_DIGITS. R5 gives the value 6 and lets a model take it as a parameter or not; this model fixes it
(DESIGN CHOICE, safe; notes/assumptions/3.md). -/
abbrev tagDigits : Nat := 6

/-- TAG_PREFIX, the ASCII bytes of "000". -/
abbrev tagPrefix : List Byte := [0x30, 0x30, 0x30]

/-- ROWS, the text lines of the display. -/
abbrev rows : Nat := 4

/-- GLYPH_ROWS, the row bytes of one glyph. -/
abbrev glyphRows : Nat := 8

/-- NUM_BUTTONS. -/
abbrev numButtons : Nat := 3

end Config

/-- The number of a tag: 4*TAG_DIGITS bits (R13, R60). -/
abbrev TagValue := BitVec (4 * Config.tagDigits)

/-! ## Parameters (R5, part P): a model takes them as arguments -/

/-- TAGID_FORMAT (R61, D9). -/
inductive TagIdFormat where
  /-- PREFIX: "000" and then the decimal value. -/
  | prefixed
  /-- ZPAD10: the decimal value padded with zeros on the left to 10 characters. -/
  | zpad10
  deriving DecidableEq, Repr

/-- The expander bit map: at which bit of a transfer byte each signal travels (R48, D14). -/
structure ExpanderMap where
  d7 : Fin 8
  d6 : Fin 8
  d5 : Fin 8
  d4 : Fin 8
  bl : Fin 8
  en : Fin 8
  rw : Fin 8
  rs : Fin 8
  deriving DecidableEq, Repr

/-- The map rule R48 gives: D7..D4 = bits 7..4, BL = bit 3, EN = bit 2, RW = bit 1, RS = bit 0 (PRESUMED by the
spec itself; notes/assumptions/9.md). -/
def ExpanderMap.standard : ExpanderMap :=
  { d7 := 7, d6 := 6, d5 := 5, d4 := 4, bl := 3, en := 2, rw := 1, rs := 0 }

/-- Every signal has a bit of its own. -/
abbrev ExpanderMap.wf (m : ExpanderMap) : Prop :=
  [m.d7, m.d6, m.d5, m.d4, m.bl, m.en, m.rw, m.rs].Nodup

/-- LINE_ADDR[1..4]: the 7-bit DDRAM addresses at which the display's lines start (R27, R28, D18; the width is
a DESIGN CHOICE, notes/assumptions/10.md). -/
structure LineAddrs where
  line1 : BitVec 7
  line2 : BitVec 7
  line3 : BitVec 7
  line4 : BitVec 7
  deriving DecidableEq, Repr

/-- The parameters of one block (R5, part P of 93_implementation_defined.md). No operation changes them. -/
structure Params where
  /-- TAGID_FORMAT -/
  tagIdFormat : TagIdFormat
  /-- HEX_LOWER_OK -/
  hexLowerOk : Bool
  /-- COLS -/
  cols : Nat
  /-- MAX_GLYPHS; `le_glyphs` has 4 bits (R17) -/
  maxGlyphs : BitVec 4
  /-- SEG_MAX; one byte-count bounds a segment (D2) -/
  segMax : BitVec 8
  /-- LINE_ADDR -/
  lineAddrs : LineAddrs
  /-- the expander bit map -/
  expander : ExpanderMap
  /-- NIBBLE_SETUP_WRITE -/
  nibbleSetupWrite : Bool
  /-- BL_RESET -/
  blReset : Bool
  /-- PREV_INIT -/
  prevInit : Bool
  deriving DecidableEq, Repr

/-- The value rule R5 gives each parameter. -/
def Params.standard : Params :=
  { tagIdFormat := .prefixed
    hexLowerOk := true
    cols := 20
    maxGlyphs := 4
    segMax := 255
    lineAddrs := { line1 := 0x00, line2 := 0x40, line3 := 0x14, line4 := 0x54 }
    expander := .standard
    nibbleSetupWrite := false
    blReset := true
    prevInit := false }

/-- What a set of parameters must satisfy to describe a block: the expander map is a permutation (DEDUCED;
notes/assumptions/10.md). -/
abbrev Params.wf (p : Params) : Prop := p.expander.wf

/-- The five waits the LE emits (R19). -/
inductive WaitKind where
  | enHigh
  | enLow
  | clear
  | init1
  | init2
  deriving DecidableEq, Repr

/-- The three buttons: L = 0, M = 1, R = 2 (R5, R51). -/
inductive Button where
  | left
  | middle
  | right
  deriving DecidableEq, Repr

namespace Config

/-! ## Open values: constants with no body, so that no proof can rest on a value -/

/-- The durations T_EN_HIGH, T_EN_LOW, T_CLEAR, T_INIT_1 and T_INIT_2, in a unit of time that is left open
(R5 `OPEN`, R124; notes/assumptions/7.md). -/
opaque waitDuration : WaitKind → Nat

/-- T_DB_SETTLE, in the same open unit (R5 `OPEN`, R85; notes/assumptions/7.md). -/
opaque dbSettle : Nat

/-- A free value: the raw level (true = 1 = high) of a button's pin at the draw with this number, where the
machine's list of pin readings does not hold one (R85, I4; notes/assumptions/2.md). -/
opaque rawLevel : Button → Nat → Bool

end Config

end Sys2Proof
end

