-- ==== Sys2Proof/Syntax.lean ====
section
/-! DEFINITION. The operations of TTB-OPS v1, one constructor for each row of spec/opcode_table.json, and the
form in which the host presents one: an op word and its payload segments. -/

namespace Sys2Proof

/-- The thirteen operations (R3, R52). A field is an operand field of rule R51 with every value its bits admit,
or a payload segment of rule R45. -/
inductive Instr where
  /-- FD_POLL (R63): a step in which no serial byte is available. -/
  | fdPoll
  /-- FD_BYTE (R62): the byte `b` arrives from the serial source. -/
  | fdByte (b : Byte)
  /-- FD_RESET (R64). -/
  | fdReset
  /-- FD_XERR (R65): the serial source reports that it cannot be read. -/
  | fdXerr
  /-- LE_INIT (R76). -/
  | leInit
  /-- LE_CLEAR (R77). -/
  | leClear
  /-- LE_BL_ON (R78). -/
  | leBlOn
  /-- LE_BL_OFF (R79). -/
  | leBlOff
  /-- LE_PRINT_LINE (R80): the text on line `line`. -/
  | lePrintLine (line : BitVec 3) (text : Segment)
  /-- LE_PRINT_LINES (R81): the texts of lines 1, 2, 3 and 4. -/
  | lePrintLines (t1 t2 t3 t4 : Segment)
  /-- LE_LOAD_GLYPHS (R82): `n` glyphs, eight row bytes each. -/
  | leLoadGlyphs (n : BitVec 4) (rows : Segment)
  /-- DB_SAMPLE (R88) of the button with the field value `button`. -/
  | dbSample (button : BitVec 2)
  /-- DB_REARM (R89). -/
  | dbRearm
  deriving DecidableEq, Repr

/-- The three units (R1). -/
inductive UnitId where
  | fd
  | le
  | db
  deriving DecidableEq, Repr

/-- The unit that executes an operation (R3, R44). -/
def Instr.unit : Instr → UnitId
  | .fdPoll => .fd
  | .fdByte _ => .fd
  | .fdReset => .fd
  | .fdXerr => .fd
  | .leInit => .le
  | .leClear => .le
  | .leBlOn => .le
  | .leBlOff => .le
  | .lePrintLine _ _ => .le
  | .lePrintLines _ _ _ _ => .le
  | .leLoadGlyphs _ _ => .le
  | .dbSample _ => .db
  | .dbRearm => .db

/-- One operation as the host presents it: the op word, and the payload segments that came with it
(R43, R45). -/
structure Command where
  word : OpWord
  segs : List Segment
  deriving DecidableEq, Repr

end Sys2Proof
end

