-- ==== Sys2Proof/WellFormed.lean ====
section
/-! DEFINITION. When an operation is well formed. `Instr.wf` is what the encoding admits: check 2 of rule R53,
every payload segment within SEG_MAX (the number of segments is the constructor's). `Instr.legal` is what
checks 3 and 4 of rule R53 ask besides: a legal operand field and a glyph segment of 8N bytes. -/

namespace Sys2Proof

/-- A segment of 0 to SEG_MAX bytes (R45). -/
def segmentOk (p : Params) (t : Segment) : Bool :=
  decide (t.length ≤ p.segMax.toNat)

/-- The payload segments an operation carries, in their order (R45). -/
def Instr.segments : Instr → List Segment
  | .fdPoll => []
  | .fdByte _ => []
  | .fdReset => []
  | .fdXerr => []
  | .leInit => []
  | .leClear => []
  | .leBlOn => []
  | .leBlOff => []
  | .lePrintLine _ t => [t]
  | .lePrintLines t1 t2 t3 t4 => [t1, t2, t3, t4]
  | .leLoadGlyphs _ rows => [rows]
  | .dbSample _ => []
  | .dbRearm => []

/-- Well formed: every payload segment is within SEG_MAX (R45, check 2 of R53). -/
def Instr.wf (p : Params) (i : Instr) : Bool :=
  i.segments.all (segmentOk p)

/-- The line field names a line (R51): 1..4. -/
def lineFieldOk (line : BitVec 3) : Bool :=
  decide (1 ≤ line.toNat ∧ line.toNat ≤ Config.rows)

/-- The glyph count is 1..MAX_GLYPHS (R51). -/
def glyphCountOk (p : Params) (n : BitVec 4) : Bool :=
  decide (1 ≤ n.toNat ∧ n.toNat ≤ p.maxGlyphs.toNat)

/-- The glyph segment holds 8N bytes (check 4 of R53). -/
def glyphLengthOk (n : BitVec 4) (rows : Segment) : Bool :=
  decide (rows.length = Config.glyphRows * n.toNat)

/-- The button field names a button (R51): 0..2. -/
def buttonFieldOk (button : BitVec 2) : Bool :=
  decide (button.toNat < Config.numButtons)

/-- The operation passes checks 3 and 4 of rule R53, so that its meaning is not a refusal. -/
def Instr.legal (p : Params) : Instr → Bool
  | .fdPoll => true
  | .fdByte _ => true
  | .fdReset => true
  | .fdXerr => true
  | .leInit => true
  | .leClear => true
  | .leBlOn => true
  | .leBlOff => true
  | .lePrintLine line _ => lineFieldOk line
  | .lePrintLines _ _ _ _ => true
  | .leLoadGlyphs n rows => glyphCountOk p n && glyphLengthOk n rows
  | .dbSample button => buttonFieldOk button
  | .dbRearm => true

end Sys2Proof
end

