-- ==== Sys2Proof/Decode.lean ====
section
/-! DEFINITION. The operation map of rule R52, the decoder (checks 1 and 2 of rule R53) and, after it, the
encoder. The decoder is total: every op word with every list of segments is an operation or is rejected by
name. -/

namespace Sys2Proof

/-- The rows of the operation map (R52). -/
inductive Opcode where
  | fdPoll
  | fdByte
  | fdReset
  | fdXerr
  | leInit
  | leClear
  | leBlOn
  | leBlOff
  | lePrintLine
  | lePrintLines
  | leLoadGlyphs
  | dbSample
  | dbRearm
  deriving DecidableEq, Repr

/-- One row of the operation map: its match and its mask (R52). -/
structure OpRow where
  opcode : Opcode
  value : OpWord
  mask : OpWord
  deriving DecidableEq, Repr

/-- A word selects a row if and only if `(w & mask) == match` (R52). -/
def OpRow.selects (r : OpRow) (w : OpWord) : Bool :=
  (w &&& r.mask) == r.value

/-- The operation map (R52). -/
def opMap : List OpRow :=
  [ { opcode := .fdPoll,       value := 0x0000, mask := 0xFFFF },
    { opcode := .fdByte,       value := 0x0400, mask := 0xFF00 },
    { opcode := .fdReset,      value := 0x0800, mask := 0xFFFF },
    { opcode := .fdXerr,       value := 0x0C00, mask := 0xFFFF },
    { opcode := .leInit,       value := 0x4000, mask := 0xFFFF },
    { opcode := .leClear,      value := 0x4400, mask := 0xFFFF },
    { opcode := .leBlOn,       value := 0x4800, mask := 0xFFFF },
    { opcode := .leBlOff,      value := 0x4C00, mask := 0xFFFF },
    { opcode := .lePrintLine,  value := 0x5000, mask := 0xFFF8 },
    { opcode := .lePrintLines, value := 0x5400, mask := 0xFFFF },
    { opcode := .leLoadGlyphs, value := 0x5800, mask := 0xFFF0 },
    { opcode := .dbSample,     value := 0x8000, mask := 0xFFFC },
    { opcode := .dbRearm,      value := 0x8400, mask := 0xFFFF } ]

/-- The row a word selects, if any (R52; at most one row matches a word). -/
def decodeWord (w : OpWord) : Option Opcode :=
  (opMap.find? (fun r => r.selects w)).map OpRow.opcode

/-- How many payload segments an operation carries (R45). -/
def Opcode.segments : Opcode → Nat
  | .fdPoll => 0
  | .fdByte => 0
  | .fdReset => 0
  | .fdXerr => 0
  | .leInit => 0
  | .leClear => 0
  | .leBlOn => 0
  | .leBlOff => 0
  | .lePrintLine => 1
  | .lePrintLines => 4
  | .leLoadGlyphs => 1
  | .dbSample => 0
  | .dbRearm => 0

/-- How many payload segments an op word fixes (R45, R55); a word of no row fixes none. -/
def payloadCount (w : OpWord) : Nat :=
  match decodeWord w with
  | none => 0
  | some op => op.segments

/-- The operand fields of rule R51, cut from the op word. -/
def byteField (w : OpWord) : Byte := w.extractLsb' 0 8
@[inherit_doc byteField] def lineField (w : OpWord) : BitVec 3 := w.extractLsb' 0 3
@[inherit_doc byteField] def glyphField (w : OpWord) : BitVec 4 := w.extractLsb' 0 4
@[inherit_doc byteField] def buttonField (w : OpWord) : BitVec 2 := w.extractLsb' 0 2

/-- The operation of a row with the operand fields of the word (R51) and the segments given; none where the
number of segments is not the row's (R45). -/
def Opcode.assemble (op : Opcode) (w : OpWord) (segs : List Segment) : Option Instr :=
  match op, segs with
  | .fdPoll, [] => some .fdPoll
  | .fdByte, [] => some (.fdByte (byteField w))
  | .fdReset, [] => some .fdReset
  | .fdXerr, [] => some .fdXerr
  | .leInit, [] => some .leInit
  | .leClear, [] => some .leClear
  | .leBlOn, [] => some .leBlOn
  | .leBlOff, [] => some .leBlOff
  | .lePrintLine, [t] => some (.lePrintLine (lineField w) t)
  | .lePrintLines, [t1, t2, t3, t4] => some (.lePrintLines t1 t2 t3 t4)
  | .leLoadGlyphs, [rows] => some (.leLoadGlyphs (glyphField w) rows)
  | .dbSample, [] => some (.dbSample (buttonField w))
  | .dbRearm, [] => some .dbRearm
  | _, _ => none

/-- Why the decoder rejects a command: checks 1 and 2 of rule R53. -/
inductive Reject where
  /-- ILLEGAL_OP: no row of rule R52 matches the word (R96). -/
  | illegalOp (w : OpWord)
  /-- OP_PAYLOAD_SHAPE: the wrong number of segments, or a segment longer than SEG_MAX (R45). -/
  | payloadShape (w : OpWord)
  deriving DecidableEq, Repr

/-- The decoder: checks 1 and 2 of rule R53, in that order. Checks 3 and 4 stand in the meanings, as the
pseudocode of rules R80, R82 and R88 has them. -/
def decode (p : Params) (c : Command) : Except Reject Instr :=
  match decodeWord c.word with
  | none => .error (.illegalOp c.word)
  | some op =>
    match op.assemble c.word c.segs with
    | none => .error (.payloadShape c.word)
    | some i => if i.wf p then .ok i else .error (.payloadShape c.word)

/-- The op word of an operation, field by field from the encodings of rule R52. -/
def encodeWord : Instr → OpWord
  | .fdPoll => 0b0000000000000000#16
  | .fdByte b => 0b00000100#8 ++ b
  | .fdReset => 0b0000100000000000#16
  | .fdXerr => 0b0000110000000000#16
  | .leInit => 0b0100000000000000#16
  | .leClear => 0b0100010000000000#16
  | .leBlOn => 0b0100100000000000#16
  | .leBlOff => 0b0100110000000000#16
  | .lePrintLine line _ => 0b0101000000000#13 ++ line
  | .lePrintLines _ _ _ _ => 0b0101010000000000#16
  | .leLoadGlyphs n _ => 0b010110000000#12 ++ n
  | .dbSample button => 0b10000000000000#14 ++ button
  | .dbRearm => 0b1000010000000000#16

/-- The encoder: the op word and the payload segments of an operation (R45, R52). -/
def encode (i : Instr) : Command :=
  { word := encodeWord i, segs := i.segments }

/-- The payload an op word is given where only the word is known: as many segments as rule R45 fixes, a text
empty and a glyph segment of 8N zero bytes (notes/assumptions/5.md). -/
def zeroPayload (w : OpWord) : List Segment :=
  match decodeWord w with
  | none => []
  | some .leLoadGlyphs => [List.replicate (Config.glyphRows * (glyphField w).toNat) 0]
  | some op => List.replicate op.segments []

/-- The command that a table row's bits stand for: the op word with the zero payload. -/
def tableCommand (w : Nat) : Command :=
  { word := BitVec.ofNat 16 w, segs := zeroPayload (BitVec.ofNat 16 w) }

/-- What the decoder reads from the bits of a row of spec/opcode_table.json: all rows have 16 bits. -/
def decodeTableWord (nbits w : Nat) : Option Instr :=
  if nbits = 16 ∧ w < 2 ^ 16 then
    match decode .standard (tableCommand w) with
    | .ok i => some i
    | .error _ => none
  else none

end Sys2Proof
end

