-- ==== Sys2Proof/Machine/State.lean ====
section
/-! DEFINITION. The state of the block: the three units of rules R10 to R22, the event list of the last
operation (R23), and the host's and the environment's side of the interface (R2, R85, R108). -/

namespace Sys2Proof.Machine

/-! ## Outputs: bus items and events -/

/-- One item of the LE bus log (R9, R19). -/
inductive BusItem where
  /-- `X(b)`: the transfer of byte `b` to the display transport. -/
  | xfer (b : Byte)
  /-- `W(k)`: a wait of the duration parameter `k`. -/
  | wait (k : WaitKind)
  deriving DecidableEq, Repr

/-- The causes of a frame error (R58, R92). -/
inductive FrameCause where
  | badStart
  | badHex
  | badEnd
  | badChecksum
  deriving DecidableEq, Repr

/-- An event: a code of rule R92 with its info fields. -/
inductive Event where
  /-- FE_BAD_START, FE_BAD_HEX, FE_BAD_END and FE_BAD_CHECKSUM. -/
  | frameError (cause : FrameCause) (index : BitVec 4) (byte : Byte)
  /-- FD_TRANSPORT_ERROR -/
  | fdTransportError
  /-- FD_TAG_OK -/
  | fdTagOk (tag : TagValue) (payload : BitVec 40)
  /-- LE_TRUNCATED -/
  | leTruncated (line : BitVec 3) (dropped : Nat)
  /-- LE_BAD_LINE -/
  | leBadLine (line : BitVec 3)
  /-- LE_BAD_GLYPH_COUNT -/
  | leBadGlyphCount (n : BitVec 4)
  /-- LE_GLYPH_LENGTH -/
  | leGlyphLength (n : BitVec 4) (len : Nat)
  /-- DB_PRESSED -/
  | dbPressed (button : Button)
  /-- DB_BAD_BUTTON -/
  | dbBadButton (button : BitVec 2)
  /-- OP_PAYLOAD_SHAPE -/
  | opPayloadShape (word : OpWord)
  /-- ILLEGAL_OP -/
  | illegalOp (word : OpWord)
  deriving DecidableEq, Repr

/-! ## FD: the frame decoder -/

/-- The two values of `fd_mode` (R10): ACC = 0 and DONE = 1. -/
inductive FdMode where
  | acc
  | done
  deriving DecidableEq, Repr

/-- The registers of the FD. -/
structure FdState where
  /-- `fd_mode`, 1 bit (R10). -/
  mode : FdMode
  /-- `fd_idx`, 4 bits (R11). -/
  idx : BitVec 4
  /-- `fd_dig[0..11]`, twelve 4-bit registers (R12). -/
  dig : Vector Nibble 12
  /-- `fd_tag`, 4*TAG_DIGITS bits (R13). -/
  tag : TagValue
  /-- `fd_payload`, 40 bits, P_0 in bits 39:32 (R13). -/
  payload : BitVec 40
  /-- `fd_cks`, 8 bits (R13). -/
  cks : Byte
  deriving DecidableEq, Repr

/-- The FD after block reset (R112), which is also the FD after FD_RESET and FD_XERR (R113). -/
def FdState.initial : FdState :=
  { mode := .acc, idx := 0, dig := Vector.replicate 12 0, tag := 0, payload := 0, cks := 0 }

/-! ## LE: the LCD encoder -/

/-- The registers and the bus log of the LE. -/
structure LeState where
  /-- `le_bl`, 1 bit: the backlight bit, true = 1 = on (R16). -/
  bl : Bool
  /-- `le_glyphs`, 4 bits (R17). -/
  glyphs : BitVec 4
  /-- `le_log`: the bus items emitted since reset, in emission order (R19). -/
  log : List BusItem
  deriving DecidableEq, Repr

/-- The LE after block reset (R112). -/
def LeState.initial (p : Params) : LeState :=
  { bl := p.blReset, glyphs := 0, log := [] }

/-! ## DB: the debouncer -/

/-- One bit for each button. -/
structure ButtonBits where
  left : Bool
  middle : Bool
  right : Bool
  deriving DecidableEq, Repr

/-- The bit of one button. -/
def ButtonBits.get (v : ButtonBits) : Button → Bool
  | .left => v.left
  | .middle => v.middle
  | .right => v.right

/-- The bits with one button's bit written. -/
def ButtonBits.set (v : ButtonBits) (b : Button) (x : Bool) : ButtonBits :=
  match b with
  | .left => { v with left := x }
  | .middle => { v with middle := x }
  | .right => { v with right := x }

/-- The same bit for every button. -/
def ButtonBits.all (x : Bool) : ButtonBits :=
  { left := x, middle := x, right := x }

/-- The registers of the DB. -/
structure DbState where
  /-- `db_level[L, M, R]`, 1 bit each: the stable level of the last sample, true = 1 = pressed (R20). -/
  level : ButtonBits
  /-- `db_prev[L, M, R]`, 1 bit each: the edge reference (R21). -/
  prev : ButtonBits
  deriving DecidableEq, Repr

/-- The DB after block reset (R112). -/
def DbState.initial (p : Params) : DbState :=
  { level := .all false, prev := .all p.prevInit }

/-! ## The block and its interface -/

/-- One element of the stream the host drives (R2): a block reset (the signal `rst`, R112) or an operation. -/
inductive Input where
  | blockReset
  | op (c : Command)
  deriving DecidableEq, Repr

/-- The state of the machine. `fd`, `le` and `db` are the block's own state, all of it (R24). `params` are the
parameters of rule R5. The other four fields are the model's side of the interface, none of them the block's
(notes/assumptions/1.md, 2.md, 4.md). -/
structure State where
  /-- the parameters of this block (R5), which nothing writes -/
  params : Params
  /-- the frame decoder (R10 to R13) -/
  fd : FdState
  /-- the LCD encoder (R16, R17, R19) -/
  le : LeState
  /-- the debouncer (R20, R21) -/
  db : DbState
  /-- the event list of the last operation: an output of the step, replaced by the next one (R23, R100) -/
  events : List Event
  /-- what the host has presented and the block has not yet taken, oldest first (R2, R24) -/
  input : List Input
  /-- the raw levels (true = 1 = high) the environment gives the next draws, in order (R85); past its end a
  draw is a free value -/
  pins : List Bool
  /-- how many draws have been made: the counter that the free value is applied to -/
  drawCount : Nat
  deriving DecidableEq, Repr

/-- Right after block reset, for a block with the parameters `p` (R112). -/
def State.resetWith (p : Params) : State :=
  { params := p
    fd := .initial
    le := .initial p
    db := .initial p
    events := []
    input := []
    pins := []
    drawCount := 0 }

/-- Right after block reset, at the parameter values of rule R5 (R112). -/
def State.reset : State := State.resetWith .standard

/-! ## Named updates -/

/-- An operation of the FD: its new registers and its event list. -/
def State.setFd (s : State) (fd : FdState) (events : List Event) : State :=
  { s with fd := fd, events := events }

/-- An operation of the LE: its new registers and log, and its event list. -/
def State.setLe (s : State) (le : LeState) (events : List Event) : State :=
  { s with le := le, events := events }

/-- An operation of the DB: its new registers and its event list. -/
def State.setDb (s : State) (db : DbState) (events : List Event) : State :=
  { s with db := db, events := events }

/-- Only an event list: what a refused operation leaves (R95). -/
def State.setEvents (s : State) (events : List Event) : State :=
  { s with events := events }

/-- The host's stream. -/
def State.setInput (s : State) (input : List Input) : State :=
  { s with input := input }

/-- What the environment still gives, after a draw. -/
def State.setPins (s : State) (pins : List Bool) (drawCount : Nat) : State :=
  { s with pins := pins, drawCount := drawCount }

/-! ## How a step can stop -/

/-- The faults of the machine: none. No item of the spec is a fault (part I of 93_implementation_defined.md),
and the block has no trap (R103). -/
inductive Fault where
  deriving DecidableEq, Repr

/-- The refusals of the MODEL. A refusal of the block (R95) is no refusal of the model: it is a next state with
one event. -/
inductive Refusal where
  /-- Raised by an arm of `exec` whose instruction has no meaning yet; no arm raises it. Safe. -/
  | notModelled (mnemonic : String)
  deriving DecidableEq, Repr

/-- The outcome of one step. -/
abbrev Result := Host.Outcome State Fault Refusal

end Sys2Proof.Machine
end

