-- ==== Sys2Proof/Machine/Operands.lean ====
section
/-! DEFINITION. The operand forms: hexadecimal and decimal digits (R8, R47), the digits of a frame (R30, R60),
the TagID string (R61), the line and button fields (R51) and the escapes of a text (R74). -/

namespace Sys2Proof.Machine

/-! ## Digits -/

/-- `IsHex(b)` (R47). -/
def isHex (p : Params) (b : Byte) : Bool :=
  decide (0x30 ≤ b.toNat ∧ b.toNat ≤ 0x39) || decide (0x41 ≤ b.toNat ∧ b.toNat ≤ 0x46) ||
    (p.hexLowerOk && decide (0x61 ≤ b.toNat ∧ b.toNat ≤ 0x66))

/-- `HexVal(b)` (R47); what it is for a byte that is no hexadecimal digit, nothing reads
(DESIGN CHOICE, safe; notes/assumptions/16.md). -/
def hexVal (b : Byte) : Nibble :=
  if b.toNat ≤ 0x39 then BitVec.ofNat 4 (b.toNat - 0x30)
  else if b.toNat ≤ 0x46 then BitVec.ofNat 4 (b.toNat - 0x37)
  else BitVec.ofNat 4 (b.toNat - 0x57)

/-- The value of a list of digits, most significant digit first (R8). -/
def digitsValue (base : Nat) (digits : List Nat) : Nat :=
  digits.foldl (fun acc d => acc * base + d) 0

/-- `digit := 0x30..0x39` (R50). -/
def isDigit (b : Byte) : Bool :=
  decide (0x30 ≤ b.toNat ∧ b.toNat ≤ 0x39)

/-- `value(ds)`: the decimal value of a list of digit bytes (R8, R50). -/
def decimalValue (ds : List Byte) : Nat :=
  digitsValue 10 (ds.map (fun d => d.toNat - 0x30))

/-! ## The digits of a frame -/

/-- The byte made of two digits, the earlier one its high nibble (R30). -/
def digitPair (hi lo : Nibble) : Byte := hi ++ lo

/-- `P_0` to `P_4`, the payload bytes (R30). -/
def payloadByte (dig : Vector Nibble 12) (k : Fin 5) : Byte :=
  digitPair (dig[2 * k.val]) (dig[2 * k.val + 1])

/-- `C`, the checksum byte (R30). -/
def checksumByte (dig : Vector Nibble 12) : Byte :=
  digitPair dig[10] dig[11]

/-- `{P_0, P_1, P_2, P_3, P_4}` (R13). -/
def payloadWord (dig : Vector Nibble 12) : BitVec 40 :=
  payloadByte dig 0 ++ payloadByte dig 1 ++ payloadByte dig 2 ++ payloadByte dig 3 ++ payloadByte dig 4

/-- `TagValue`: the last TAG_DIGITS data digits, most significant first (R60). -/
def tagValue (dig : Vector Nibble 12) : TagValue :=
  BitVec.ofNat (4 * Config.tagDigits)
    (digitsValue 16
      (((dig.toList.take Config.dataDigits).drop (Config.dataDigits - Config.tagDigits)).map BitVec.toNat))

/-! ## The TagID string (R61) -/

/-- The ASCII byte of a decimal digit. -/
def digitByte (d : Nat) : Byte := BitVec.ofNat 8 (0x30 + d)

/-- The last `fuel` decimal digits of `v` at most, most significant first, with no leading zeros. -/
def decDigits : Nat → Nat → List Byte
  | 0, _ => []
  | fuel + 1, v => if v < 10 then [digitByte v] else decDigits fuel (v / 10) ++ [digitByte (v % 10)]

/-- `Dec(v)` (R61). Thirteen digits hold every value of at most ten hexadecimal digits. -/
def dec (v : Nat) : List Byte := decDigits 13 v

/-- `TagIdString(v)` (R61). -/
def tagIdString (format : TagIdFormat) (v : TagValue) : List Byte :=
  match format with
  | .prefixed => Config.tagPrefix ++ dec v.toNat
  | .zpad10 => List.replicate (10 - (dec v.toNat).length) 0x30 ++ dec v.toNat

/-! ## Operand fields (R51) -/

/-- The DDRAM address of the start of a line, where the field names one: lines 1..4 (R51, R28). -/
def lineAddr (p : Params) (line : BitVec 3) : Option (BitVec 7) :=
  match line.toNat with
  | 1 => some p.lineAddrs.line1
  | 2 => some p.lineAddrs.line2
  | 3 => some p.lineAddrs.line3
  | 4 => some p.lineAddrs.line4
  | _ => none

/-- The button a field names: 00 = L, 01 = M, 10 = R (R51). -/
def buttonOf (field : BitVec 2) : Option Button :=
  match field.toNat with
  | 0 => some .left
  | 1 => some .middle
  | 2 => some .right
  | _ => none

/-- The number of a button: L = 0, M = 1, R = 2 (R5, R20). -/
def buttonNumber : Button → BitVec 2
  | .left => 0
  | .middle => 1
  | .right => 2

/-! ## Escapes (R74) -/

/-- `'&'` -/
abbrev ampersand : Byte := 0x26

/-- `EscapeParse` over at most `fuel` tokens. -/
def escapeParseFuel : Nat → List Byte → List Byte
  | 0, _ => []
  | _ + 1, [] => []
  | fuel + 1, c :: r =>
    if c ≠ ampersand then c :: escapeParseFuel fuel r
    else if r.head? = some ampersand then ampersand :: escapeParseFuel fuel r.tail
    else
      let ds := r.takeWhile isDigit
      if 1 ≤ ds.length ∧ r[ds.length]? = some ampersand ∧ decimalValue ds ≤ 255 then
        BitVec.ofNat 8 (decimalValue ds) :: escapeParseFuel fuel (r.drop (ds.length + 1))
      else ampersand :: escapeParseFuel fuel r

/-- `EscapeParse(t)` (R74): a text has at most as many tokens as bytes. -/
def escapeParse (t : List Byte) : List Byte := escapeParseFuel t.length t

end Sys2Proof.Machine
end

