-- ==== Sys2Proof/Machine/Flags.lean ====
section
/-! DEFINITION. The flag computations: the checksum test (R59), the stable level and the press edge (R86, R87),
the status views (R14, R18, R22), and the code and packed info of every event (R92). -/

namespace Sys2Proof.Machine

/-! ## Checksum -/

/-- `Sum` (R59): the running checksum over the five payload bytes, from 0x00. -/
def checksumSum (dig : Vector Nibble 12) : Byte :=
  0x00 ^^^ payloadByte dig 0 ^^^ payloadByte dig 1 ^^^ payloadByte dig 2 ^^^ payloadByte dig 3 ^^^
    payloadByte dig 4

/-- `CksOK` (R59). -/
def checksumOk (dig : Vector Nibble 12) : Bool :=
  checksumSum dig == checksumByte dig

/-! ## Debouncing -/

/-- `Stable(r1, r2)` (R86): 1 if both raw levels are 0. -/
def stable (r1 r2 : Bool) : Bool := !r1 && !r2

/-- `Edge(cur, prev) = cur & ~prev` (R87). -/
def edge (cur prev : Bool) : Bool := cur && !prev

/-! ## Status views -/

/-- `fd_mode` as a bit: ACC = 0, DONE = 1 (R10). -/
def fdModeBit : FdMode → BitVec 1
  | .acc => 0
  | .done => 1

/-- FD_STAT (R14): bit 0 DONE, bits 4:1 IDX, bits 7:5 zero. -/
def fdStat (fd : FdState) : BitVec 8 :=
  (0 : BitVec 3) ++ fd.idx ++ fdModeBit fd.mode

/-- LE_STAT (R18): bit 0 BL, bits 4:1 GLYPHS, bits 7:5 zero. -/
def leStat (le : LeState) : BitVec 8 :=
  (0 : BitVec 3) ++ le.glyphs ++ BitVec.ofBool le.bl

/-- DB_STAT (R22): bits 2:0 LEVEL_R, LEVEL_M, LEVEL_L, bits 6:4 PREV_R, PREV_M, PREV_L, bits 7 and 3 zero. -/
def dbStat (db : DbState) : BitVec 8 :=
  (0 : BitVec 1) ++ BitVec.ofBool db.prev.right ++ BitVec.ofBool db.prev.middle ++ BitVec.ofBool db.prev.left ++
    (0 : BitVec 1) ++ BitVec.ofBool db.level.right ++ BitVec.ofBool db.level.middle ++
    BitVec.ofBool db.level.left

/-- `fd_tagstr` (R13): the TagID string while DONE, the empty list while ACC. -/
def fdTagStr (p : Params) (fd : FdState) : List Byte :=
  match fd.mode with
  | .acc => []
  | .done => tagIdString p.tagIdFormat fd.tag

/-! ## Event codes (R92) -/

/-- The code of an event (R92). -/
def eventCode : Event → BitVec 8
  | .frameError .badStart _ _ => 0x01
  | .frameError .badHex _ _ => 0x02
  | .frameError .badEnd _ _ => 0x03
  | .frameError .badChecksum _ _ => 0x04
  | .fdTransportError => 0x05
  | .fdTagOk _ _ => 0x06
  | .leTruncated _ _ => 0x10
  | .leBadLine _ => 0x11
  | .leBadGlyphCount _ => 0x12
  | .leGlyphLength _ _ => 0x13
  | .dbPressed _ => 0x20
  | .dbBadButton _ => 0x21
  | .opPayloadShape _ => 0x3E
  | .illegalOp _ => 0x3F

/-- The 64-bit info field of an event (R92); unnamed bits are 0. A count takes the eight bits the table gives
it (DEDUCED; notes/assumptions/15.md): it is at most SEG_MAX for an operation that the decoder accepted. -/
def eventInfo : Event → BitVec 64
  | .frameError _ index byte => (0 : BitVec 48) ++ byte ++ (0 : BitVec 4) ++ index
  | .fdTransportError => 0
  | .fdTagOk tag payload => tag.setWidth 24 ++ payload
  | .leTruncated line dropped => (0 : BitVec 48) ++ BitVec.ofNat 8 dropped ++ (0 : BitVec 5) ++ line
  | .leBadLine line => (0 : BitVec 61) ++ line
  | .leBadGlyphCount n => (0 : BitVec 60) ++ n
  | .leGlyphLength n len => (0 : BitVec 48) ++ BitVec.ofNat 8 len ++ (0 : BitVec 4) ++ n
  | .dbPressed button => (0 : BitVec 62) ++ buttonNumber button
  | .dbBadButton button => (0 : BitVec 62) ++ button
  | .opPayloadShape word => (0 : BitVec 48) ++ word
  | .illegalOp word => (0 : BitVec 48) ++ word

/-- The kinds of event (R92). -/
inductive EventKind where
  /-- a frame error, recovered inside the FD (R93) -/
  | recovered
  /-- the transport error, escalated (R94) -/
  | escalated
  | report
  | warning
  | refusal
  deriving DecidableEq, Repr

/-- The kind of an event (R92). -/
def eventKind : Event → EventKind
  | .frameError _ _ _ => .recovered
  | .fdTransportError => .escalated
  | .fdTagOk _ _ => .report
  | .leTruncated _ _ => .warning
  | .leBadLine _ => .refusal
  | .leBadGlyphCount _ => .refusal
  | .leGlyphLength _ _ => .refusal
  | .dbPressed _ => .report
  | .dbBadButton _ => .refusal
  | .opPayloadShape _ => .refusal
  | .illegalOp _ => .refusal

end Sys2Proof.Machine
end

