-- ==== Sys2Proof/Machine/Ops.lean ====
section
/-! DEFINITION. The named operations that the meanings share. The block has no trap (R103): what takes the place
of taking an exception are two shared operations, the frame-error recovery `frameErr` (R58, R93) and the refusal
`State.refuse` (R95); there is no return from either (R104). -/

namespace Sys2Proof.Machine

/-! ## Whole block -/

/-- `Refuse` (R9, R95): exactly one event and no other effect. -/
def State.refuse (s : State) (e : Event) : State := s.setEvents [e]

/-- The event of a command that the decoder rejects (R53 checks 1 and 2, R96). -/
def rejectEvent : Reject → Event
  | .illegalOp w => .illegalOp w
  | .payloadShape w => .opPayloadShape w

/-- Block reset (R112): every register at its reset value, no bus item, no draw, no event. The parameters and
the host's and environment's side stay: reset changes nothing outside the block (DEDUCED;
notes/assumptions/14.md). -/
def State.blockReset (s : State) : State :=
  { s with fd := .initial, le := .initial s.params, db := .initial s.params, events := [] }

/-! ## FD -/

/-- `FrameErr(cause, b)` (R58): the event with the index as it was; the digits cleared; a START_CODE kept as
byte 0 of a new frame. The mode stays as it is. -/
def frameErr (cause : FrameCause) (b : Byte) (fd : FdState) : FdState × List Event :=
  ({ fd with
      dig := Vector.replicate 12 0
      idx := if b = Config.startCode then 1 else 0 },
    [.frameError cause fd.idx b])

/-- A hex digit is accepted at index `i`, 1..12: `fd_dig[i-1] <- HexVal(b); fd_idx <- i + 1` (R62). -/
def acceptDigit (b : Byte) (fd : FdState) : FdState × List Event :=
  ({ fd with
      dig := fd.dig.setIfInBounds (fd.idx.toNat - 1) (hexVal b)
      idx := fd.idx + 1 },
    [])

/-- A valid frame completes (R62): the three outputs are written, the digits and the index cleared, the mode is
DONE, and FD_TAG_OK is raised. -/
def completeFrame (fd : FdState) : FdState × List Event :=
  ({ mode := .done
     idx := 0
     dig := Vector.replicate 12 0
     tag := tagValue fd.dig
     payload := payloadWord fd.dig
     cks := checksumByte fd.dig },
    [.fdTagOk (tagValue fd.dig) (payloadWord fd.dig)])

/-! ## LE -/

/-- The byte with the bit `v` at position `at_` and zeros elsewhere. -/
def bitAt (at_ : Fin 8) (v : Bool) : Byte :=
  (BitVec.ofBool v).setWidth 8 <<< at_.val

/-- `Xfer(n, en, rs)` (R70, R48): the nibble, the backlight bit, the enable bit and the register select, each at
its place of the expander bit map; RW is 0. -/
def xferByte (p : Params) (bl : Bool) (n : Nibble) (en rs : Bool) : Byte :=
  bitAt p.expander.d7 (n.getLsbD 3) ||| bitAt p.expander.d6 (n.getLsbD 2) |||
    bitAt p.expander.d5 (n.getLsbD 1) ||| bitAt p.expander.d4 (n.getLsbD 0) |||
    bitAt p.expander.bl bl ||| bitAt p.expander.en en ||| bitAt p.expander.rw false ||| bitAt p.expander.rs rs

/-- `SendNibble(n, rs)` (R71): one strobe. -/
def sendNibble (p : Params) (bl : Bool) (n : Nibble) (rs : Bool) : List BusItem :=
  (if p.nibbleSetupWrite then [.xfer (xferByte p bl n false rs)] else []) ++
    [.xfer (xferByte p bl n true rs), .wait .enHigh, .xfer (xferByte p bl n false rs), .wait .enLow]

/-- `SendByte(v, rs)` (R72): two strobes, high nibble first. -/
def sendByte (p : Params) (bl : Bool) (v : Byte) (rs : Bool) : List BusItem :=
  sendNibble p bl (v.extractLsb' 4 4) rs ++ sendNibble p bl (v.extractLsb' 0 4) rs

/-- `SendCmd(v)` (R72): an LCD instruction. -/
def sendCmd (p : Params) (bl : Bool) (v : Byte) : List BusItem := sendByte p bl v false

/-- `SendData(v)` (R72): a character code or a glyph row. -/
def sendData (p : Params) (bl : Bool) (v : Byte) : List BusItem := sendByte p bl v true

/-- `RenderLine(n, t)` (R75) on the line whose DDRAM address is `addr`: the items emitted and the events raised. -/
def renderLine (p : Params) (bl : Bool) (line : BitVec 3) (addr : BitVec 7) (t : Segment) :
    List BusItem × List Event :=
  let codes := escapeParse t
  (sendCmd p bl (0x80 ||| addr.setWidth 8) ++ (codes.take p.cols).flatMap (sendData p bl),
    if p.cols < codes.length then [.leTruncated line (codes.length - p.cols)] else [])

/-- `Emit` (R9): items go to the end of the bus log. -/
def LeState.emit (le : LeState) (items : List BusItem) : LeState :=
  { le with log := le.log ++ items }

/-! ## DB -/

/-- The level that the next draw of a button's pin returns (R85): what the environment gives next, or a free
value. -/
def State.nextLevel (s : State) (b : Button) : Bool :=
  match s.pins with
  | [] => Config.rawLevel b s.drawCount
  | r :: _ => r

/-- The state after a draw: the draw is counted, and its reading is used up. -/
def State.afterDraw (s : State) : State := s.setPins s.pins.tail (s.drawCount + 1)

end Sys2Proof.Machine
end

