-- ==== Sys2Proof/Machine/Debouncer.lean ====
section
/-! DEFINITION. The operations of the DB: DB_SAMPLE and DB_REARM (R88, R89). -/

namespace Sys2Proof.Machine

/-- The DB after a sample of button `b` with the raw levels `r1` and `r2`, and the events (R88). -/
def dbSampled (b : Button) (r1 r2 : Bool) (db : DbState) : DbState × List Event :=
  let cur := stable r1 r2
  ({ level := db.level.set b cur, prev := db.prev.set b cur },
    if edge cur (db.prev.get b) then [.dbPressed b] else [])

/-- DB_SAMPLE (R88): two draws in order, at least T_DB_SETTLE apart, and the edge detection. A refused sample
makes no draw. -/
def execDbSample (button : BitVec 2) (s : State) : Host.Outcome State Fault Refusal :=
  match buttonOf button with
  | none => .next (s.refuse (.dbBadButton button))
  | some b =>
    let r1 := s.nextLevel b
    let r2 := s.afterDraw.nextLevel b
    let r := dbSampled b r1 r2 s.db
    .next (s.afterDraw.afterDraw.setDb r.1 r.2)

/-- DB_REARM (R89): every edge reference to PREV_INIT; the levels stay. -/
def execDbRearm (s : State) : Host.Outcome State Fault Refusal :=
  .next (s.setDb { s.db with prev := .all s.params.prevInit } [])

end Sys2Proof.Machine
end

