-- ==== Sys2Proof/Machine/FrameDecoder.lean ====
section
/-! DEFINITION. The operations of the FD: FD_POLL, FD_BYTE, FD_RESET, FD_XERR (R62 to R65). -/

namespace Sys2Proof.Machine

/-- A byte reaches the FD: the pseudocode of rule R62, on the FD's own registers. The indexes 14 and 15,
which no run reaches, go with 13, as the pseudocode's last case reads (DEDUCED; notes/assumptions/11.md). -/
def fdReceive (p : Params) (fd : FdState) (b : Byte) : FdState × List Event :=
  match fd.mode with
  | .done => (fd, [])
  | .acc =>
    if fd.idx = 0 then
      if b = Config.startCode then ({ fd with idx := 1 }, []) else frameErr .badStart b fd
    else if fd.idx.toNat ≤ 12 then
      if isHex p b then acceptDigit b fd else frameErr .badHex b fd
    else if b ≠ Config.endCode then frameErr .badEnd b fd
    else if !checksumOk fd.dig then frameErr .badChecksum b fd
    else completeFrame fd

/-- FD_POLL (R63): no state change and no event. -/
def execFdPoll (s : State) : Host.Outcome State Fault Refusal :=
  .next (s.setEvents [])

/-- FD_BYTE (R62). -/
def execFdByte (b : Byte) (s : State) : Host.Outcome State Fault Refusal :=
  .next (s.setFd (fdReceive s.params s.fd b).1 (fdReceive s.params s.fd b).2)

/-- FD_RESET (R64): every FD register cleared, no event. -/
def execFdReset (s : State) : Host.Outcome State Fault Refusal :=
  .next (s.setFd .initial [])

/-- FD_XERR (R65): FD_TRANSPORT_ERROR, and then the effects of FD_RESET. -/
def execFdXerr (s : State) : Host.Outcome State Fault Refusal :=
  .next (s.setFd .initial [.fdTransportError])

end Sys2Proof.Machine
end

