-- ==== Sys2Proof/Machine/LcdEncoder.lean ====
section
/-! DEFINITION. The operations of the LE: LE_INIT, LE_CLEAR, LE_BL_ON, LE_BL_OFF, LE_PRINT_LINE, LE_PRINT_LINES,
LE_LOAD_GLYPHS (R76 to R82). -/

namespace Sys2Proof.Machine

/-- The items LE_INIT emits (R76). -/
def initItems (p : Params) (bl : Bool) : List BusItem :=
  sendNibble p bl 0x3 false ++ [.wait .init1] ++
  sendNibble p bl 0x3 false ++ [.wait .init2] ++
  sendNibble p bl 0x3 false ++ [.wait .init2] ++
  sendNibble p bl 0x2 false ++
  sendCmd p bl 0x28 ++
  sendCmd p bl 0x0C ++
  sendCmd p bl 0x01 ++ [.wait .clear] ++
  sendCmd p bl 0x06

/-- The items LE_CLEAR emits (R77). -/
def clearItems (p : Params) (bl : Bool) : List BusItem :=
  sendCmd p bl 0x01 ++ [.wait .clear]

/-- The backlight bit is written and one transfer with no nibble and no enable shows it (R78, R79). -/
def setBacklight (p : Params) (on : Bool) (le : LeState) : LeState :=
  LeState.emit { le with bl := on } [.xfer (xferByte p on 0x0 false false)]

/-- The four lines of LE_PRINT_LINES, in order (R81). -/
def renderLines (p : Params) (bl : Bool) (t1 t2 t3 t4 : Segment) : List BusItem × List Event :=
  let r1 := renderLine p bl 1 p.lineAddrs.line1 t1
  let r2 := renderLine p bl 2 p.lineAddrs.line2 t2
  let r3 := renderLine p bl 3 p.lineAddrs.line3 t3
  let r4 := renderLine p bl 4 p.lineAddrs.line4 t4
  (r1.1 ++ r2.1 ++ r3.1 ++ r4.1, r1.2 ++ r2.2 ++ r3.2 ++ r4.2)

/-- The items LE_LOAD_GLYPHS emits (R82). -/
def glyphItems (p : Params) (bl : Bool) (rows : Segment) : List BusItem :=
  sendCmd p bl 0x40 ++ rows.flatMap (sendData p bl)

/-- LE_INIT (R76). -/
def execLeInit (s : State) : Host.Outcome State Fault Refusal :=
  .next (s.setLe (s.le.emit (initItems s.params s.le.bl)) [])

/-- LE_CLEAR (R77). -/
def execLeClear (s : State) : Host.Outcome State Fault Refusal :=
  .next (s.setLe (s.le.emit (clearItems s.params s.le.bl)) [])

/-- LE_BL_ON (R78). -/
def execLeBlOn (s : State) : Host.Outcome State Fault Refusal :=
  .next (s.setLe (setBacklight s.params true s.le) [])

/-- LE_BL_OFF (R79). -/
def execLeBlOff (s : State) : Host.Outcome State Fault Refusal :=
  .next (s.setLe (setBacklight s.params false s.le) [])

/-- LE_PRINT_LINE (R80). -/
def execLePrintLine (line : BitVec 3) (text : Segment) (s : State) : Host.Outcome State Fault Refusal :=
  match lineAddr s.params line with
  | none => .next (s.refuse (.leBadLine line))
  | some addr =>
    let r := renderLine s.params s.le.bl line addr text
    .next (s.setLe (s.le.emit r.1) r.2)

/-- LE_PRINT_LINES (R81). -/
def execLePrintLines (t1 t2 t3 t4 : Segment) (s : State) : Host.Outcome State Fault Refusal :=
  let r := renderLines s.params s.le.bl t1 t2 t3 t4
  .next (s.setLe (s.le.emit r.1) r.2)

/-- LE_LOAD_GLYPHS (R82): checks 3 and 4 of rule R53, then the rows and the new glyph count. -/
def execLeLoadGlyphs (n : BitVec 4) (rows : Segment) (s : State) : Host.Outcome State Fault Refusal :=
  if !glyphCountOk s.params n then .next (s.refuse (.leBadGlyphCount n))
  else if !glyphLengthOk n rows then .next (s.refuse (.leGlyphLength n rows.length))
  else .next (s.setLe (LeState.emit { s.le with glyphs := n } (glyphItems s.params s.le.bl rows)) [])

end Sys2Proof.Machine
end

