-- ==== Sys2Proof/Machine/Dispatch.lean ====
section
/-! DEFINITION. The dispatch: one arm for each operation, one direct call of its meaning. -/

namespace Sys2Proof.Machine

def exec (i : Instr) (s : State) : Host.Outcome State Fault Refusal :=
  match i with
  | .fdPoll => Sys2Proof.Machine.execFdPoll s
  | .fdByte b => Sys2Proof.Machine.execFdByte b s
  | .fdReset => Sys2Proof.Machine.execFdReset s
  | .fdXerr => Sys2Proof.Machine.execFdXerr s
  | .leInit => Sys2Proof.Machine.execLeInit s
  | .leClear => Sys2Proof.Machine.execLeClear s
  | .leBlOn => Sys2Proof.Machine.execLeBlOn s
  | .leBlOff => Sys2Proof.Machine.execLeBlOff s
  | .lePrintLine line text => Sys2Proof.Machine.execLePrintLine line text s
  | .lePrintLines t1 t2 t3 t4 => Sys2Proof.Machine.execLePrintLines t1 t2 t3 t4 s
  | .leLoadGlyphs n rows => Sys2Proof.Machine.execLeLoadGlyphs n rows s
  | .dbSample button => Sys2Proof.Machine.execDbSample button s
  | .dbRearm => Sys2Proof.Machine.execDbRearm s

end Sys2Proof.Machine
end

