-- ==== Sys2Proof/Machine/Step.lean ====
section
/-! DEFINITION. One step: the next element of the host's stream, completely (R2). -/

namespace Sys2Proof.Machine

/-- One step. With nothing presented the block waits (DESIGN CHOICE, safe; notes/assumptions/1.md). A block reset
resets. An operation is decoded (checks 1
and 2 of rule R53) and then executed, or refused with the event of the check that failed. -/
def step (s : State) : Host.Outcome State Fault Refusal :=
  match s.input with
  | [] => .next s
  | .blockReset :: rest => .next (s.setInput rest).blockReset
  | .op c :: rest =>
    match decode s.params c with
    | .error r => .next ((s.setInput rest).refuse (rejectEvent r))
    | .ok i => exec i (s.setInput rest)

/-- The operation with the op word `w` (with the payload of `tableCommand`) presented as the next element of the
host's stream. -/
def State.withFetchWord (s : State) (nbits w : Nat) : State :=
  s.setInput (.op (tableCommand (w % 2 ^ nbits)) :: s.input)

end Sys2Proof.Machine
end

