-- ==== Sys2Proof/Machine/Assembler.lean ====
section
/-! DEFINITION. The assembly syntax of rule R57: one operation a line, the pseudo-operations and their
expansions, the raw word, quoted texts and comments. What rule R57 leaves open of the lexical form is a DESIGN CHOICE
(notes/assumptions/13.md). -/

namespace Sys2Proof.Machine

/-! ## Statements and their expansion -/

/-- A line of assembly. -/
inductive AsmLine where
  /-- one operation of the table -/
  | op (i : Instr)
  /-- `.word`: the raw word -/
  | word (w : OpWord)
  /-- `fd.frame`: ten hexadecimal digits -/
  | frame (digits : List Byte)
  /-- `fd.bytes` -/
  | bytes (bs : List Byte)
  /-- `le.teardown` -/
  | teardown
  /-- `db.read_lr` -/
  | readLr
  deriving DecidableEq, Repr

/-- The uppercase hexadecimal digit of a nibble. -/
def upperHexDigit (n : Nibble) : Byte :=
  if n.toNat < 10 then BitVec.ofNat 8 (0x30 + n.toNat) else BitVec.ofNat 8 (0x37 + n.toNat)

/-- The exclusive or of the bytes written as pairs of hexadecimal digits. -/
def xorOfPairs : List Byte → Byte
  | a :: b :: r => digitPair (hexVal a) (hexVal b) ^^^ xorOfPairs r
  | _ => 0x00

/-- The fourteen bytes of a frame with the given data digits (R46, R57). -/
def frameBytes (digits : List Byte) : List Byte :=
  let c := xorOfPairs digits
  [Config.startCode] ++ digits ++ [upperHexDigit (c.extractLsb' 4 4), upperHexDigit (c.extractLsb' 0 4)] ++
    [Config.endCode]

/-- The commands of a line (R57). -/
def AsmLine.commands : AsmLine → List Command
  | .op i => [encode i]
  | .word w => [{ word := w, segs := [] }]
  | .frame digits => (frameBytes digits).map (fun b => encode (.fdByte b))
  | .bytes bs => bs.map (fun b => encode (.fdByte b))
  | .teardown => [encode .leClear, encode .leBlOff]
  | .readLr => [encode (.dbSample 0), encode (.dbSample 2)]

/-! ## Text -/

/-- The pieces of a line. -/
inductive AsmToken where
  | name (cs : List Char)
  | text (bs : List Byte)
  | comma
  | open_
  | close_
  deriving DecidableEq, Repr

/-- The value of a hexadecimal digit character. -/
def hexDigitOf (c : Char) : Option Nat :=
  if isHex .standard (BitVec.ofNat 8 c.toNat) ∧ c.toNat < 256 then
    some (hexVal (BitVec.ofNat 8 c.toNat)).toNat
  else none

/-- A quoted text after its opening quote: its bytes and what follows the closing quote. `\"` is 0x22, `\\` is
0x5C, `\xNN` is byte NN, and every other character is its ASCII byte (R57). -/
def readQuoted : Nat → List Char → Option (List Byte × List Char)
  | 0, _ => none
  | _ + 1, [] => none
  | _ + 1, '"' :: r => some ([], r)
  | fuel + 1, '\\' :: '"' :: r => (readQuoted fuel r).map (fun x => (0x22 :: x.1, x.2))
  | fuel + 1, '\\' :: '\\' :: r => (readQuoted fuel r).map (fun x => (0x5C :: x.1, x.2))
  | fuel + 1, '\\' :: 'x' :: h :: l :: r =>
    match hexDigitOf h, hexDigitOf l with
    | some a, some b => (readQuoted fuel r).map (fun x => (BitVec.ofNat 8 (16 * a + b) :: x.1, x.2))
    | _, _ => none
  | _ + 1, '\\' :: _ => none
  | fuel + 1, c :: r =>
    if c.toNat < 128 then (readQuoted fuel r).map (fun x => (BitVec.ofNat 8 c.toNat :: x.1, x.2)) else none

/-- A character that ends a name. -/
def endsName (c : Char) : Bool :=
  c = ' ' || c = '\t' || c = ',' || c = '[' || c = ']' || c = ';' || c = '"'

/-- A line as pieces, up to its comment. -/
def tokens : Nat → List Char → Option (List AsmToken)
  | 0, _ => some []
  | _ + 1, [] => some []
  | _ + 1, ';' :: _ => some []
  | fuel + 1, ' ' :: r => tokens fuel r
  | fuel + 1, '\t' :: r => tokens fuel r
  | fuel + 1, ',' :: r => (tokens fuel r).map (AsmToken.comma :: ·)
  | fuel + 1, '[' :: r => (tokens fuel r).map (AsmToken.open_ :: ·)
  | fuel + 1, ']' :: r => (tokens fuel r).map (AsmToken.close_ :: ·)
  | fuel + 1, '"' :: r =>
    match readQuoted (r.length + 1) r with
    | none => none
    | some (bs, rest) => (tokens fuel rest).map (AsmToken.text bs :: ·)
  | fuel + 1, c :: r =>
    let more := r.takeWhile (fun d => !endsName d)
    (tokens fuel (r.drop more.length)).map (AsmToken.name (c :: more) :: ·)

/-- The value of one or more digits of a base up to 16. -/
def readDigits (base : Nat) (ds : List Char) : Option Nat :=
  if ds = [] then none
  else (ds.mapM hexDigitOf).bind (fun vs => if vs.all (· < base) then some (digitsValue base vs) else none)

/-- A number below a bound: `0x` and hexadecimal digits, or bare digits of the base given. -/
def readBelow (base bound : Nat) (cs : List Char) : Option Nat :=
  let value :=
    match cs with
    | '0' :: 'x' :: ds => readDigits 16 ds
    | ds => readDigits base ds
  value.bind (fun n => if n < bound then some n else none)

/-- A byte. Bare digits are hexadecimal, as the lines `fd.bytes 02,30,...` of program P4 (95_test_vectors.md), with
their op words 0402 0430, have them (DEDUCED; notes/assumptions/13.md). -/
def readByte (cs : List Char) : Option Byte :=
  (readBelow 16 256 cs).map (BitVec.ofNat 8)

/-- A list of bytes separated by commas. -/
def readBytes : List AsmToken → Option (List Byte)
  | [.name n] => (readByte n).map (fun b => [b])
  | .name n :: .comma :: r => (readByte n).bind (fun b => (readBytes r).map (b :: ·))
  | _ => none

/-- A bracketed list of row bytes, which may be empty. -/
def readRows (ts : List AsmToken) : Option (List Byte) :=
  match ts with
  | [.open_, .close_] => some []
  | .open_ :: r => if r.getLast? = some .close_ then readBytes r.dropLast else none
  | _ => none

/-- The field value of a button's name. -/
def buttonNamed (cs : List Char) : Option (BitVec 2) :=
  if cs = ['L'] then some 0 else if cs = ['M'] then some 1 else if cs = ['R'] then some 2 else none

/-- A line without operands. -/
def plainLine (name : List Char) : Option AsmLine :=
  if name = "fd.poll".toList then some (.op .fdPoll)
  else if name = "fd.reset".toList then some (.op .fdReset)
  else if name = "fd.xerr".toList then some (.op .fdXerr)
  else if name = "le.init".toList then some (.op .leInit)
  else if name = "le.clear".toList then some (.op .leClear)
  else if name = "le.bl_on".toList then some (.op .leBlOn)
  else if name = "le.bl_off".toList then some (.op .leBlOff)
  else if name = "db.rearm".toList then some (.op .dbRearm)
  else if name = "le.teardown".toList then some .teardown
  else if name = "db.read_lr".toList then some .readLr
  else none

/-- A line with operands. Of `le.load_glyphs` any list of row bytes is taken, whatever its length, as one segment, so
that the block's own check of the length can be written (DESIGN CHOICE; notes/assumptions/13.md). -/
def operandLine (name : List Char) (args : List AsmToken) : Option AsmLine :=
  if name = "fd.byte".toList then
    match args with
    | [.name n] => (readByte n).map (fun b => .op (.fdByte b))
    | _ => none
  else if name = "fd.bytes".toList then (readBytes args).map .bytes
  else if name = "fd.frame".toList then
    match args with
    | [.text ds] => if ds.length = 10 ∧ ds.all (isHex .standard) then some (.frame ds) else none
    | _ => none
  else if name = "le.print_line".toList then
    match args with
    | [.name n, .comma, .text t] => (readBelow 10 8 n).map (fun v => .op (.lePrintLine (BitVec.ofNat 3 v) t))
    | _ => none
  else if name = "le.print_lines".toList then
    match args with
    | [.text t1, .comma, .text t2, .comma, .text t3, .comma, .text t4] => some (.op (.lePrintLines t1 t2 t3 t4))
    | _ => none
  else if name = "le.load_glyphs".toList then
    match args with
    | .name n :: .comma :: r =>
      (readBelow 10 16 n).bind (fun v => (readRows r).map (fun bs => .op (.leLoadGlyphs (BitVec.ofNat 4 v) bs)))
    | _ => none
  else if name = "db.sample".toList then
    match args with
    | [.name b] => (buttonNamed b).map (fun v => .op (.dbSample v))
    | _ => none
  else if name = ".word".toList then
    match args with
    | [.name n] => (readBelow 16 65536 n).map (fun v => .word (BitVec.ofNat 16 v))
    | _ => none
  else none

/-- The commands of a line of text (R57): none of them for a blank or comment line, no answer for a line that is
no assembly. -/
def assembleLine (line : List Char) : Option (List Command) :=
  match tokens (line.length + 1) line with
  | none => none
  | some [] => some []
  | some [.name n] => (plainLine n).map AsmLine.commands
  | some (.name n :: args) => (operandLine n args).map AsmLine.commands
  | some _ => none

end Sys2Proof.Machine
end

