-- ==== Sys2Proof/Machine/Ports.lean ====
section
/-! DEFINITION. The port view of rule R56 over the transaction-level step: which operations a cycle is, in which
order, on which event port their events appear, what the output ports show, and the handshakes of the command,
segment and bus ports. How many cycles a duration is stays open (notes/assumptions/8.md). -/

namespace Sys2Proof.Machine

/-! ## Inputs -/

/-- The inputs of one cycle (R56). `accepted` is the op word accepted from the command port in this cycle, with
its segments. -/
structure CycleIn where
  rst : Bool
  rxValid : Bool
  rxByte : Byte
  rxFault : Bool
  accepted : Option Command
  deriving DecidableEq, Repr

/-- The bytes of the segment port, each with its `seg_last`, as segments: a segment is the bytes up to and
including the one flagged (R45, R56), so that none is empty (DEDUCED; notes/assumptions/12.md). The second part is the segment not yet finished. -/
def collectSegments : List (Byte × Bool) → List Segment × Segment
  | [] => ([], [])
  | (b, last) :: r =>
    let rest := collectSegments r
    if last then ([b] :: rest.1, rest.2)
    else
      match rest.1 with
      | [] => ([], b :: rest.2)
      | g :: gs => ((b :: g) :: gs, rest.2)

/-! ## A cycle as operations -/

/-- The port on which an operation's events appear (R56). -/
inductive EventPort where
  | fd
  | cmd
  deriving DecidableEq, Repr

/-- The command accepted in the cycle is this operation. -/
def CycleIn.commands (c : CycleIn) (p : Params) (i : Instr) : Bool :=
  match c.accepted with
  | none => false
  | some cmd =>
    match decode p cmd with
    | .ok j => decide (j = i)
    | .error _ => false

/-- The operations of a cycle without `rst`, in the order of rule R56, each with its event port: FD_XERR,
FD_RESET, FD_BYTE or FD_POLL, and then any other command. A command that does not decode is such an other command
(DEDUCED; notes/assumptions/6.md). So is an FD_BYTE or FD_POLL taken from the command port, whose events appear on the
command event port (DEDUCED; notes/assumptions/21.md). -/
def cycleOps (p : Params) (c : CycleIn) : List (EventPort × Command) :=
  let xerr := c.commands p .fdXerr
  let reset := c.commands p .fdReset
  (if c.rxFault then [(.fd, encode .fdXerr)] else if xerr then [(.cmd, encode .fdXerr)] else []) ++
  (if reset then [(.cmd, encode .fdReset)] else []) ++
  [(.fd, encode (if c.rxValid && !c.rxFault then .fdByte c.rxByte else .fdPoll))] ++
  (match c.accepted with
    | none => []
    | some cmd => if xerr || reset then [] else [(.cmd, cmd)])

/-- A cycle as a stretch of the stream: with `rst` a block reset and nothing else (R56). -/
def cycleInputs (p : Params) (c : CycleIn) : List (EventPort × Input) :=
  if c.rst then [(.cmd, .blockReset)] else (cycleOps p c).map (fun x => (x.1, Input.op x.2))

/-- What a cycle leaves: the state, the events of the two event ports, and the bus items it produced. -/
structure CycleOut where
  state : State
  fdEvents : List Event
  cmdEvents : List Event
  busItems : List BusItem
  deriving DecidableEq, Repr

/-- Runs a stretch of the stream by the machine's own step, one element at a time, sorting the events by
port. -/
def runCycleInputs : List (EventPort × Input) → CycleOut → Host.Outcome CycleOut Fault Refusal
  | [], out => .next out
  | (port, i) :: rest, out =>
    match step (out.state.setInput [i]) with
    | .fault f => .fault f
    | .refused r => .refused r
    | .next t =>
      runCycleInputs rest
        { state := t
          fdEvents := out.fdEvents ++ (if port = .fd then t.events else [])
          cmdEvents := out.cmdEvents ++ (if port = .cmd then t.events else [])
          busItems := out.busItems ++ t.le.log.drop out.state.le.log.length }

/-- One cycle of the port view (R56). -/
def runCycle (c : CycleIn) (s : State) : Host.Outcome CycleOut Fault Refusal :=
  runCycleInputs (cycleInputs s.params c) { state := s, fdEvents := [], cmdEvents := [], busItems := [] }

/-! ## Outputs -/

/-- The status outputs (R56, R13, R14, R18, R22). `rx_ready` is always 1. -/
structure StatusPorts where
  rxReady : Bool
  fdStat : BitVec 8
  fdTag : BitVec 24
  fdPayload : BitVec 40
  fdCks : BitVec 8
  fdTagStr : List Byte
  leStat : BitVec 8
  dbStat : BitVec 8
  deriving DecidableEq, Repr

/-- What the status outputs show (R56). -/
def statusPorts (s : State) : StatusPorts :=
  { rxReady := true
    fdStat := fdStat s.fd
    fdTag := s.fd.tag.setWidth 24
    fdPayload := s.fd.payload
    fdCks := s.fd.cks
    fdTagStr := fdTagStr s.params s.fd
    leStat := leStat s.le
    dbStat := dbStat s.db }

/-- `bus_kind` of a bus item (R56). -/
def busKind : BusItem → BitVec 3
  | .xfer _ => 0
  | .wait .enHigh => 1
  | .wait .enLow => 2
  | .wait .clear => 3
  | .wait .init1 => 4
  | .wait .init2 => 5

/-- `bus_byte` of a transfer (R56); a wait has none. -/
def busByte : BusItem → Option Byte
  | .xfer b => some b
  | .wait _ => none

/-- What an event port presents of an event: its code and its info (R56, R92). -/
def eventPort (e : Event) : BitVec 8 × BitVec 64 := (eventCode e, eventInfo e)

/-! ## Handshakes (R56, R115; notes/assumptions/8.md)

At port level an operation takes many cycles (R115). The block's state is that of the transactions; what stands
here besides is what a port has not yet delivered. -/

/-- The inputs of one cycle, signal by signal (R56). `settle` is no signal: it is how many cycles the settle
interval of a sample accepted in this cycle lasts, which is open (R85, I12). -/
structure PortIn where
  rst : Bool
  rxValid : Bool
  rxByte : Byte
  rxFault : Bool
  cmdValid : Bool
  cmdWord : OpWord
  segValid : Bool
  segByte : Byte
  segLast : Bool
  busReady : Bool
  pinL : Bool
  pinM : Bool
  pinR : Bool
  settle : Nat
  deriving DecidableEq, Repr

/-- The level of a button's pin in a cycle: true = 1 = high (R56). -/
def PortIn.pin (x : PortIn) : Button → Bool
  | .left => x.pinL
  | .middle => x.pinM
  | .right => x.pinR

/-- A DB_SAMPLE between its two reads: its button and field, the first reading, and the cycles still to wait. -/
structure Sampling where
  field : BitVec 2
  button : Button
  first : Bool
  left : Nat
  deriving DecidableEq, Repr

/-- The block with its ports: the transaction state, the op word taken whose segments are still to come, the
payload bytes taken and not yet used, the bus items and command events not yet presented, and a sample in
progress. -/
structure PortState where
  block : State
  waiting : Option OpWord
  segBytes : List (Byte × Bool)
  busQueue : List BusItem
  eventQueue : List Event
  sampling : Option Sampling
  deriving DecidableEq, Repr

/-- The ports with nothing in progress. -/
def PortState.idle (s : State) : PortState :=
  { block := s, waiting := none, segBytes := [], busQueue := [], eventQueue := [], sampling := none }

/-- An accepted operation has not completed (R56, R115). -/
def PortState.busy (q : PortState) : Bool :=
  !q.busQueue.isEmpty || !q.eventQueue.isEmpty || q.sampling.isSome

/-- `cmd_ready`: 0 while an accepted operation has not completed (R56), and while a word waits for the segments
that follow it (DESIGN CHOICE; notes/assumptions/8.md). -/
def PortState.cmdReady (q : PortState) : Bool := !q.busy && q.waiting.isNone

/-- `seg_ready`: 0 while an accepted operation has not completed (R56). -/
def PortState.segReady (q : PortState) : Bool := !q.busy

/-- The sample that a command starts, if it is a DB_SAMPLE that is not refused. -/
def startSample (p : Params) (x : PortIn) (c : Command) : Option Sampling :=
  match decode p c with
  | .ok (.dbSample field) =>
    (buttonOf field).map (fun b => { field := field, button := b, first := x.pin b, left := x.settle })
  | _ => none

/-- What the ports do with the command side in a cycle: the command that completes as a transaction in this cycle,
the two readings it is given, and what is still in progress afterwards. -/
structure CmdSide where
  accepted : Option Command
  pins : List Bool
  waiting : Option OpWord
  segBytes : List (Byte × Bool)
  sampling : Option Sampling
  deriving DecidableEq, Repr

/-- The command side where nothing is taken and nothing completes. -/
def CmdSide.hold (q : PortState) : CmdSide :=
  { accepted := none, pins := [], waiting := q.waiting, segBytes := q.segBytes, sampling := q.sampling }

/-- The op word of a cycle: one taken before whose segments are still to come, else the one presented. -/
def currentWord (x : PortIn) (q : PortState) : Option OpWord :=
  match q.waiting with
  | some w => some w
  | none => if x.cmdValid then some x.cmdWord else none

/-- The payload bytes taken up to a cycle and in it. -/
def takenBytes (x : PortIn) (q : PortState) : List (Byte × Bool) :=
  q.segBytes ++ (if x.segValid then [(x.segByte, x.segLast)] else [])

/-- An op word with the payload bytes taken so far. The op word fixes how many segments follow (R55): until they are
all finished the word waits, and then it is accepted with them, as the one operation that the word and its segments
are (R43; DEDUCED, notes/assumptions/8.md). -/
def offerWord (x : PortIn) (q : PortState) (w : OpWord) (bytes : List (Byte × Bool)) : CmdSide :=
  let segs := (collectSegments bytes).1
  let c : Command := { word := w, segs := segs }
  if segs.length < payloadCount w then
    { accepted := none, pins := [], waiting := some w, segBytes := bytes, sampling := none }
  else
    let later := (collectSegments bytes).2.map (fun b => (b, false))
    match startSample q.block.params x c with
    | some m => { accepted := none, pins := [], waiting := none, segBytes := later, sampling := some m }
    | none => { accepted := some c, pins := [], waiting := none, segBytes := later, sampling := none }

/-- The command side of a cycle. A busy block takes neither a word nor a segment byte (R56, I13); a sample in
progress waits, and completes with its second reading. Otherwise the byte on the segment port is taken, and a word
that is presented, or that waits, is offered with the segments taken. Segments taken while no word waits go with the
next word (DESIGN CHOICE; notes/assumptions/8.md). -/
def commandSide (x : PortIn) (q : PortState) : CmdSide :=
  match q.sampling with
  | some m =>
    if m.left = 0 then
      { CmdSide.hold q with
        accepted := some (encode (.dbSample m.field)), pins := [m.first, x.pin m.button], sampling := none }
    else { CmdSide.hold q with sampling := some { m with left := m.left - 1 } }
  | none =>
    if q.busy then CmdSide.hold q
    else
      match currentWord x q with
      | none => { CmdSide.hold q with segBytes := takenBytes x q }
      | some w => offerWord x q w (takenBytes x q)

/-- The outputs of one cycle (R56): the status views, the readiness of the command and segment ports, the bus item
and the command event presented, and the event of the FD's port. In a cycle with `rst` they are a DESIGN CHOICE
(notes/assumptions/19.md). -/
structure PortOut where
  status : StatusPorts
  cmdReady : Bool
  segReady : Bool
  bus : Option BusItem
  fdEvent : Option Event
  cmdEvent : Option Event
  deriving DecidableEq, Repr

/-- One cycle of the ports. The bus item at the head of the queue stays until `bus_ready`; the command event at the
head is presented for this cycle. With `rst` the block is reset, and everything in progress is dropped, the word and
the segment byte presented in the cycle included. What the outputs show in that cycle itself rule R56 leaves open;
here they show what they would show without `rst`: the queued bus item and command event of an operation that the
reset cuts off, and the readiness and status from the start of the cycle (DESIGN CHOICE; notes/assumptions/19.md). -/
def portCycle (x : PortIn) (q : PortState) : Host.Outcome (PortState × PortOut) Fault Refusal :=
  let side := commandSide x q
  let cycle : CycleIn :=
    { rst := x.rst, rxValid := x.rxValid, rxByte := x.rxByte, rxFault := x.rxFault, accepted := side.accepted }
  match runCycle cycle (q.block.setPins side.pins q.block.drawCount) with
  | .fault f => .fault f
  | .refused r => .refused r
  | .next out =>
    .next
      (if x.rst then PortState.idle out.state
        else
          { block := out.state
            waiting := side.waiting
            segBytes := side.segBytes
            busQueue := (if x.busReady then q.busQueue.tail else q.busQueue) ++ out.busItems
            eventQueue := q.eventQueue.tail ++ out.cmdEvents
            sampling := side.sampling },
        { status := statusPorts q.block
          cmdReady := q.cmdReady
          segReady := q.segReady
          bus := q.busQueue.head?
          fdEvent := out.fdEvents.head?
          cmdEvent := q.eventQueue.head? })

/-- Some cycles of the ports, one after the other. -/
def portRun : List PortIn → PortState → Host.Outcome PortState Fault Refusal
  | [], q => .next q
  | x :: xs, q =>
    match portCycle x q with
    | .next (r, _) => portRun xs r
    | .fault f => .fault f
    | .refused r => .refused r

/-- The segment port's bytes for some segments, each byte with its `seg_last` (R45, R55). -/
def segmentStream (segs : List Segment) : List (Byte × Bool) :=
  segs.flatMap (fun t => t.dropLast.map (fun b => (b, false)) ++ t.getLast?.toList.map (fun b => (b, true)))

/-- The segment byte a cycle presents, if any (R56). -/
def PortIn.segment (x : PortIn) : Option (Byte × Bool) :=
  if x.segValid then some (x.segByte, x.segLast) else none

/-! ## Durations (R106, R119, R124) -/

/-- The least time the display transport needs for some bus items: the sum of their waits (R35, I12). -/
def minBusTime (items : List BusItem) : Nat :=
  (items.map (fun i => match i with
    | .xfer _ => 0
    | .wait k => Config.waitDuration k)).sum

/-- The least time a number of samples takes: T_DB_SETTLE each (R119, I12). -/
def minSampleTime (samples : Nat) : Nat := samples * Config.dbSettle

end Sys2Proof.Machine
end

