-- ==== Sys2Proof/Machine/Grammar.lean ====
section
/-! DEFINITION. The grammar of rule R50 read literally: at each position the tokens that match, the longest one
taken. The LE itself runs `escapeParse`, the functional form of rule R74. -/

namespace Sys2Proof.Machine

/-- One token at the start of a text: how many bytes it spans, and the code it stands for. -/
abbrev Token := Nat × Byte

/-- `amp2 := '&' '&'`, one code 0x26 (R50). -/
def amp2Tokens : List Byte → List Token
  | a :: b :: _ => if a = ampersand ∧ b = ampersand then [(2, ampersand)] else []
  | _ => []

/-- `escape := '&' digit+ '&'` with `k` digits and a value of at most 255 (R50). -/
def escapeToken (t : List Byte) (k : Nat) : List Token :=
  let ds := (t.drop 1).take k
  if 1 ≤ k ∧ t.head? = some ampersand ∧ ds.length = k ∧ ds.all isDigit ∧ t[k + 1]? = some ampersand ∧
      decimalValue ds ≤ 255 then
    [(k + 2, BitVec.ofNat 8 (decimalValue ds))]
  else []

/-- Every `escape` at the start of a text, whatever its number of digits. -/
def escapeTokens (t : List Byte) : List Token :=
  (List.range t.length).flatMap (escapeToken t)

/-- `literal`: any single byte, as one code (R50). -/
def literalTokens : List Byte → List Token
  | [] => []
  | c :: _ => [(1, c)]

/-- Every token that matches at the start of a text (R50). -/
def matchingTokens (t : List Byte) : List Token :=
  literalTokens t ++ amp2Tokens t ++ escapeTokens t

/-- The longest of some tokens (R50: "the longest token that matches at the current position is taken"). -/
def longestToken (ts : List Token) : Token :=
  ts.foldl (fun best x => if best.1 < x.1 then x else best) (0, 0)

/-- `text := token*`, over at most `fuel` tokens (R50). -/
def grammarParseFuel : Nat → List Byte → List Byte
  | 0, _ => []
  | _ + 1, [] => []
  | fuel + 1, c :: r =>
    let x := longestToken (matchingTokens (c :: r))
    x.2 :: grammarParseFuel fuel ((c :: r).drop x.1)

/-- The codes of a text by the grammar of rule R50. -/
def grammarParse (t : List Byte) : List Byte := grammarParseFuel t.length t

/-- The codes that the escapes of a text name (R116), over at most `fuel` tokens: the codes of the tokens longer
than two bytes. -/
def escapedCodesFuel : Nat → List Byte → List Byte
  | 0, _ => []
  | _ + 1, [] => []
  | fuel + 1, c :: r =>
    let x := longestToken (matchingTokens (c :: r))
    let later := escapedCodesFuel fuel ((c :: r).drop x.1)
    if 2 < x.1 then x.2 :: later else later

/-- The codes that the escapes of a text name (R116). -/
def escapedCodes (t : List Byte) : List Byte := escapedCodesFuel t.length t

end Sys2Proof.Machine
end

