-- ==== Sys2Proof/Safety.lean ====
section
/-! DEFINITION. The terms the claims use: the invariants of the three units, runs of operations and the events
they raise, valid frames, what a receiver on the bus takes from the transfers, and the host's duties. -/

namespace Sys2Proof.Machine

/-! ## Invariants -/

/-- Every reachable FD state satisfies these (R15), and while DONE the outputs are those of one valid frame
(R59, R60). -/
abbrev FdState.Inv (fd : FdState) : Prop :=
  fd.idx.toNat ≤ 13 ∧
  (fd.mode = .done → fd.idx = 0) ∧
  (fd.mode = .acc → fd.tag = 0 ∧ fd.payload = 0 ∧ fd.cks = 0) ∧
  (∀ j : Fin 12, fd.idx.toNat ≤ j.val + 1 → fd.dig[j] = 0) ∧
  (fd.mode = .done →
    fd.tag = fd.payload.extractLsb' 0 24 ∧
    fd.cks = fd.payload.extractLsb' 32 8 ^^^ fd.payload.extractLsb' 24 8 ^^^ fd.payload.extractLsb' 16 8 ^^^
      fd.payload.extractLsb' 8 8 ^^^ fd.payload.extractLsb' 0 8)

/-- A bus item is no read of the display: a transfer has its RW bit 0 (R34, R48). -/
def writesOnly (m : ExpanderMap) : BusItem → Bool
  | .xfer b => !b.getLsbD m.rw.val
  | .wait _ => true

/-- The glyph count is legal (R17) and the LE has never read from the display (R34). -/
abbrev LeState.Inv (p : Params) (le : LeState) : Prop :=
  le.glyphs.toNat ≤ p.maxGlyphs.toNat ∧ le.log.all (writesOnly p.expander) = true

/-- Where PREV_INIT = 0, an edge reference of 1 is the stable level (R89 corner case 2). -/
abbrev DbState.Inv (p : Params) (db : DbState) : Prop :=
  p.prevInit = false →
    (db.prev.left = true → db.level.left = true) ∧
    (db.prev.middle = true → db.level.middle = true) ∧
    (db.prev.right = true → db.level.right = true)

/-- The invariant of the machine. -/
abbrev State.Inv (s : State) : Prop :=
  s.params.wf ∧ s.fd.Inv ∧ s.le.Inv s.params ∧ s.db.Inv s.params

/-! ## Runs -/

/-- The states after each operation of a run, as far as the run goes. -/
def statesAfter : List Instr → State → List State
  | [], _ => []
  | i :: is, s =>
    match exec i s with
    | .next t => t :: statesAfter is t
    | .fault _ => []
    | .refused _ => []

/-- The state after a whole run, if every operation has a next state. -/
def runOps : List Instr → State → Option State
  | [], s => some s
  | i :: is, s =>
    match exec i s with
    | .next t => runOps is t
    | .fault _ => none
    | .refused _ => none

/-- The events of a run, in the order raised (R36, R100). -/
def eventsOf (is : List Instr) (s : State) : List Event :=
  (statesAfter is s).flatMap State.events

/-- The event reports a decoded tag. -/
def isTagOk : Event → Bool
  | .fdTagOk _ _ => true
  | _ => false

/-- How many FD_TAG_OK a run raises. -/
def tagOkCount (is : List Instr) (s : State) : Nat :=
  (eventsOf is s).countP isTagOk

/-- The event reports a press. -/
def isPressed : Event → Bool
  | .dbPressed _ => true
  | _ => false

/-- How many DB_PRESSED a run raises. -/
def pressedCount (is : List Instr) (s : State) : Nat :=
  (eventsOf is s).countP isPressed

/-- A step in which the serial source does nothing but deliver or not: FD_BYTE or FD_POLL. -/
def isReceive : Instr → Bool
  | .fdPoll => true
  | .fdByte _ => true
  | _ => false

/-- The serial bytes of a run, in order. -/
def bytesOf : List Instr → List Byte
  | [] => []
  | .fdByte b :: is => b :: bytesOf is
  | _ :: is => bytesOf is

/-! ## Frames -/

/-- The byte made of two hexadecimal digit characters, the first one high (R30, R47). -/
def hexPair (hi lo : Byte) : Byte := (hexVal hi) ++ (hexVal lo)

/-- A valid frame (R46): START_CODE, ten data digits, two checksum digits, END_CODE, and the exclusive or of the
five payload bytes equal to the checksum byte. -/
def validFrame (p : Params) (f : List Byte) : Bool :=
  match f with
  | [st, d0, d1, d2, d3, d4, d5, d6, d7, d8, d9, c0, c1, en] =>
    decide (st = 0x02) && decide (en = 0x03) &&
      [d0, d1, d2, d3, d4, d5, d6, d7, d8, d9, c0, c1].all (isHex p) &&
      decide (hexPair d0 d1 ^^^ hexPair d2 d3 ^^^ hexPair d4 d5 ^^^ hexPair d6 d7 ^^^ hexPair d8 d9 =
        hexPair c0 c1)
  | _ => false

/-- The faults rule R67 names: a wrong START_CODE, a wrong END_CODE, or both right and twelve hex digits whose
checksum does not match. -/
def faultyFrame (p : Params) (q : List Byte) : Bool :=
  match q with
  | [st, d0, d1, d2, d3, d4, d5, d6, d7, d8, d9, c0, c1, en] =>
    decide (st ≠ 0x02) || decide (en ≠ 0x03) ||
      ([d0, d1, d2, d3, d4, d5, d6, d7, d8, d9, c0, c1].all (isHex p) &&
        decide (hexPair d0 d1 ^^^ hexPair d2 d3 ^^^ hexPair d4 d5 ^^^ hexPair d6 d7 ^^^ hexPair d8 d9 ≠
          hexPair c0 c1))
  | _ => false

/-! ## The receiving end of the bus -/

/-- The nibble and the register select a transfer byte carries, by the expander bit map (R48). -/
def carried (m : ExpanderMap) (b : Byte) : Nibble × Bool :=
  (BitVec.ofBool (b.getLsbD m.d7.val) ++ BitVec.ofBool (b.getLsbD m.d6.val) ++
    BitVec.ofBool (b.getLsbD m.d5.val) ++ BitVec.ofBool (b.getLsbD m.d4.val),
    b.getLsbD m.rs.val)

/-- The strobes a receiver sees: a nibble with its register select each time EN goes from 1 to 0 (R71). `held` is
what the last transfer carried if its EN was 1 (PRESUMED; notes/assumptions/17.md). -/
def strobes (m : ExpanderMap) : Option (Nibble × Bool) → List BusItem → List (Nibble × Bool)
  | _, [] => []
  | held, .wait _ :: r => strobes m held r
  | held, .xfer b :: r =>
    if b.getLsbD m.en.val then strobes m (some (carried m b)) r
    else
      match held with
      | none => strobes m none r
      | some x => x :: strobes m none r

/-- Two strobes as one byte, high nibble first (R31). -/
def pairNibbles : List (Nibble × Bool) → List (Byte × Bool)
  | (hi, _) :: (lo, rs) :: r => (hi ++ lo, rs) :: pairNibbles r
  | _ => []

/-- The bytes a receiver takes from some bus items, each with its register select: false a command, true data. -/
def receivedBytes (m : ExpanderMap) (items : List BusItem) : List (Byte × Bool) :=
  pairNibbles (strobes m none items)

/-- The bytes of the transfers among some bus items. -/
def transferBytes : List BusItem → List Byte
  | [] => []
  | .xfer b :: r => b :: transferBytes r
  | .wait _ :: r => transferBytes r

/-- The bytes that the display must take from an accepted operation of the LE (R49, R75 to R82): false a command,
true data. LE_INIT's four single nibbles 3, 3, 3, 2 pair up as 0x33 and 0x32. -/
def displayBytes (p : Params) : Instr → List (Byte × Bool)
  | .leInit => [(0x33, false), (0x32, false), (0x28, false), (0x0C, false), (0x01, false), (0x06, false)]
  | .leClear => [(0x01, false)]
  | .lePrintLine line t => lineBytes line t
  | .lePrintLines t1 t2 t3 t4 => lineBytes 1 t1 ++ lineBytes 2 t2 ++ lineBytes 3 t3 ++ lineBytes 4 t4
  | .leLoadGlyphs _ rows => (0x40, false) :: rows.map (fun r => (r, true))
  | .fdPoll => []
  | .fdByte _ => []
  | .fdReset => []
  | .fdXerr => []
  | .leBlOn => []
  | .leBlOff => []
  | .dbSample _ => []
  | .dbRearm => []
where
  /-- One line: the set-DDRAM-address command and at most COLS codes (R75). -/
  lineBytes (line : BitVec 3) (t : Segment) : List (Byte × Bool) :=
    (0x80 ||| ((lineAddr p line).getD 0).setWidth 8, false) ::
      ((escapeParse t).take p.cols).map (fun c => (c, true))

/-! ## Reserved words -/

/-- The reserved op words, by the fields of the format `OPW16` (R43, R54). -/
def reservedWord (w : OpWord) : Bool :=
  let u := (w.extractLsb' 14 2).toNat
  let op := (w.extractLsb' 10 4).toNat
  let f := (w.extractLsb' 0 10).toNat
  match u with
  | 0 => if op = 1 then decide (256 ≤ f) else decide (4 ≤ op) || decide (f ≠ 0)
  | 1 => if op = 4 then decide (8 ≤ f) else if op = 6 then decide (16 ≤ f) else decide (7 ≤ op) || decide (f ≠ 0)
  | 2 => if op = 0 then decide (4 ≤ f) else decide (2 ≤ op) || decide (f ≠ 0)
  | _ => true

/-! ## The host's duties (R111, R114, R116, R122): predicates of a run's operations, which nothing enforces -/

/-- LE_INIT comes before every other operation of the LE but LE_BL_ON and LE_BL_OFF (R111, R114). -/
def initialisedFirst : List Instr → Bool
  | [] => true
  | .leInit :: _ => true
  | .leBlOn :: is => initialisedFirst is
  | .leBlOff :: is => initialisedFirst is
  | i :: is => if i.unit = .le then false else initialisedFirst is

/-- With `loaded` glyphs loaded, a text's escapes name no glyph code that is still to be loaded (R116; DEDUCED,
notes/assumptions/18.md). -/
def escapesLoaded (p : Params) (loaded : Nat) (t : Segment) : Bool :=
  (escapedCodes t).all (fun k => decide (k.toNat < loaded ∨ p.maxGlyphs.toNat ≤ k.toNat))

/-- LE_LOAD_GLYPHS comes before every text that names a code it loads (R111, R116). A glyph once loaded counts as
loaded after a later load of fewer glyphs too (DEDUCED; notes/assumptions/18.md). -/
def glyphsBeforeUse (p : Params) : Nat → List Instr → Bool
  | _, [] => true
  | loaded, .leLoadGlyphs n rows :: is =>
    glyphsBeforeUse p (if (Instr.leLoadGlyphs n rows).legal p then max loaded n.toNat else loaded) is
  | loaded, i :: is => i.segments.all (escapesLoaded p loaded) && glyphsBeforeUse p loaded is

/-- The LE operations of the run end with LE_CLEAR and then LE_BL_OFF (R111, R122). Operations of the FD and the DB
may stand between and after the two; another operation of the LE may not (DESIGN CHOICE; notes/assumptions/20.md). -/
def endsInTeardown (is : List Instr) : Bool :=
  let les := is.filter (fun i => decide (i.unit = .le))
  decide (les.drop (les.length - 2) = [.leClear, .leBlOff])

/-- The duties of rule R111 that a run's operations show. -/
def dutiesMet (p : Params) (is : List Instr) : Bool :=
  initialisedFirst is && glyphsBeforeUse p 0 is && endsInTeardown is

end Sys2Proof.Machine
end

