-- ==== Sys2Proof/Certificates/Slice0/Obligations.lean ====
section
/-! DEFINITION. The statements for the provers, from the numbered rules of spec/. -/

open Sys2Proof Sys2Proof.Machine

/-- R52, R57: a word of every row, written out from its encoding. -/
def Obligations.TableWordsDecodeToTheirOperations : Prop :=
  decode .standard { word := 0x0000, segs := [] } = .ok .fdPoll ∧
  decode .standard { word := 0x0441, segs := [] } = .ok (.fdByte 0x41) ∧
  decode .standard { word := 0x0800, segs := [] } = .ok .fdReset ∧
  decode .standard { word := 0x0C00, segs := [] } = .ok .fdXerr ∧
  decode .standard { word := 0x4000, segs := [] } = .ok .leInit ∧
  decode .standard { word := 0x4400, segs := [] } = .ok .leClear ∧
  decode .standard { word := 0x4800, segs := [] } = .ok .leBlOn ∧
  decode .standard { word := 0x4C00, segs := [] } = .ok .leBlOff ∧
  decode .standard { word := 0x5003, segs := [[0x48, 0x69]] } = .ok (.lePrintLine 3 [0x48, 0x69]) ∧
  decode .standard { word := 0x5400, segs := [[0x41], [], [0x42], []] } =
    .ok (.lePrintLines [0x41] [] [0x42] []) ∧
  decode .standard { word := 0x5801, segs := [[2, 4, 8, 31, 8, 4, 2, 0]] } =
    .ok (.leLoadGlyphs 1 [2, 4, 8, 31, 8, 4, 2, 0]) ∧
  decode .standard { word := 0x8002, segs := [] } = .ok (.dbSample 2) ∧
  decode .standard { word := 0x8400, segs := [] } = .ok .dbRearm

/-- R43, R45, R51, R52: no bit of an encoding is dropped. -/
def Obligations.EncodedOperationDecodesBack : Prop :=
  ∀ (p : Params) (i : Instr), i.wf p = true → decode p (encode i) = .ok i

/-- R52, R54: a word with a reserved bit set is never accepted. -/
def Obligations.DecodedCommandEncodesBack : Prop :=
  ∀ (p : Params) (c : Command) (i : Instr), decode p c = .ok i → encode i = c ∧ i.wf p = true

/-- R52: "At most one row matches any word." -/
def Obligations.RowsAreDisjoint : Prop :=
  ∀ (w : OpWord) (r₁ r₂ : OpRow), r₁ ∈ opMap → r₂ ∈ opMap → r₁.selects w = true → r₂.selects w = true → r₁ = r₂

/-- R54, R96: reserved words, by fields, and their refusal. -/
def Obligations.ReservedWordsAreRefusedAsIllegal : Prop :=
  (∀ w : OpWord, decodeWord w = none ↔ reservedWord w = true) ∧
  ∀ (s : State) (w : OpWord) (segs : List Segment) (rest : List Input),
    s.input = .op { word := w, segs := segs } :: rest → reservedWord w = true →
    step s = .next { s with input := rest, events := [.illegalOp w] }

/-- R45 and check 2 of R53. -/
def Obligations.MalformedPayloadIsRefused : Prop :=
  ∀ (s : State) (w : OpWord) (segs : List Segment) (rest : List Input) (op : Opcode),
    s.input = .op { word := w, segs := segs } :: rest → decodeWord w = some op →
    (segs.length ≠
        (match op with
          | .lePrintLine => 1
          | .lePrintLines => 4
          | .leLoadGlyphs => 1
          | _ => 0) ∨
      ∃ t ∈ segs, s.params.segMax.toNat < t.length) →
    step s = .next { s with input := rest, events := [.opPayloadShape w] }

/-- R2: one operation a step, in stream order. The second clause is the model's choice (notes/assumptions/1.md). -/
def Obligations.StepRunsTheDecodedOperation : Prop :=
  (∀ (s : State) (c : Command) (rest : List Input) (i : Instr),
    s.input = .op c :: rest → decode s.params c = .ok i → step s = exec i { s with input := rest }) ∧
  ∀ s : State, s.input = [] → step s = .next s

/-- R103, R105: no trap, no privilege; part I of 93: no item is a fault. -/
def Obligations.EveryOperationCompletes : Prop :=
  ∀ (i : Instr) (s : State), ∃ t, exec i s = .next t ∧ t.params = s.params ∧ t.input = s.input ∧
    (i.unit ≠ .db → t.pins = s.pins ∧ t.drawCount = s.drawCount)

/-- R95: a refusal has exactly one effect. -/
def Obligations.RefusedOperationHasOneEventAndNoOtherEffect : Prop :=
  (∀ (i : Instr) (s t : State) (e : Event), exec i s = .next t → e ∈ t.events → eventKind e = .refusal →
    t = { s with events := [e] }) ∧
  (∀ (i : Instr) (s : State), ∃ t, exec i s = .next t ∧
    (i.legal s.params = true ↔ ∀ e ∈ t.events, eventKind e ≠ .refusal)) ∧
  (∀ (s : State) (c : Command) (rest : List Input) (r : Reject),
    s.input = .op c :: rest → decode s.params c = .error r →
    ∃ e, eventKind e = .refusal ∧ step s = .next { s with input := rest, events := [e] }) ∧
  ∀ e : Event, eventKind e = .refusal ↔ eventCode e ∈ [0x11, 0x12, 0x13, 0x21, 0x3E, 0x3F]

/-- R112: the reset table, for the machine right after reset and for the signal `rst`. -/
def Obligations.ResetStateHoldsTheResetValues : Prop :=
  (State.reset.fd.mode = .acc ∧ State.reset.fd.idx = 0 ∧ (∀ j : Fin 12, State.reset.fd.dig[j] = 0) ∧
    State.reset.fd.tag = 0 ∧ State.reset.fd.payload = 0 ∧ State.reset.fd.cks = 0 ∧
    fdStat State.reset.fd = 0x00 ∧ State.reset.le.bl = true ∧ State.reset.le.glyphs = 0 ∧
    leStat State.reset.le = 0x01 ∧ State.reset.le.log = [] ∧
    (∀ b : Button, State.reset.db.level.get b = false ∧ State.reset.db.prev.get b = false) ∧
    dbStat State.reset.db = 0x00 ∧ State.reset.events = []) ∧
  (∀ (s : State) (rest : List Input), s.input = .blockReset :: rest →
    step s = .next
      { s with
        fd := { mode := .acc, idx := 0, dig := Vector.replicate 12 0, tag := 0, payload := 0, cks := 0 }
        le := { bl := s.params.blReset, glyphs := 0, log := [] }
        db :=
          { level := { left := false, middle := false, right := false }
            prev := { left := s.params.prevInit, middle := s.params.prevInit, right := s.params.prevInit } }
        events := []
        input := rest }) ∧
  ∀ p : Params, p.prevInit = true → dbStat (State.resetWith p).db = 0x70

/-- R113: the three FD resets. -/
def Obligations.ThreeResetsLeaveTheSameFd : Prop :=
  (∀ s : State,
    exec .fdReset s = .next { s with fd := s.blockReset.fd, events := [] } ∧
    exec .fdXerr s = .next { s with fd := s.blockReset.fd, events := [.fdTransportError] } ∧
    s.blockReset.le = LeState.initial s.params ∧ s.blockReset.db = DbState.initial s.params ∧
    s.blockReset.fd = FdState.initial) ∧
  (∀ (s t : State) (b : Byte) (c : FrameCause) (k : BitVec 4) (x : Byte),
    exec (.fdByte b) s = .next t → .frameError c k x ∈ t.events →
    t.fd.tag = s.fd.tag ∧ t.fd.payload = s.fd.payload ∧ t.fd.cks = s.fd.cks ∧
      (t.fd.idx = 0 ∨ t.fd.idx = 1)) ∧
  ∃ (s t : State) (b : Byte), exec (.fdByte b) s = .next t ∧ t.events ≠ [] ∧ t.fd.idx = 1

/-- R63. -/
def Obligations.FdPollChangesNothing : Prop :=
  ∀ s : State,
    decode s.params { word := 0x0000, segs := [] } = .ok .fdPoll ∧
    exec .fdPoll s = .next { s with events := [] } ∧
    ((fdStat s.fd).getLsbD 0 = true ↔ s.fd.mode = .done)

/-- R64. -/
def Obligations.FdResetClearsTheFd : Prop :=
  ∀ s : State,
    decode s.params { word := 0x0800, segs := [] } = .ok .fdReset ∧
    (∃ t, exec .fdReset s = .next t ∧
      t = { s with
            fd := { mode := .acc, idx := 0, dig := Vector.replicate 12 0, tag := 0, payload := 0, cks := 0 }
            events := [] } ∧
      fdStat t.fd = 0x00 ∧
      (s.fd.Inv → s.fd.mode = .acc → s.fd.idx = 0 → t.fd = s.fd))

/-- R65. -/
def Obligations.FdXerrReportsAndClearsTheFd : Prop :=
  ∀ s : State,
    decode s.params { word := 0x0C00, segs := [] } = .ok .fdXerr ∧
    (∃ t r, exec .fdXerr s = .next t ∧ exec .fdReset s = .next r ∧ t.fd = r.fd ∧ fdStat t.fd = 0x00 ∧
      t = { s with
            fd := { mode := .acc, idx := 0, dig := Vector.replicate 12 0, tag := 0, payload := 0, cks := 0 }
            events := [.fdTransportError] })

/-- R58, R59, R60, R62: the pseudocode of FD_BYTE, with the digits of the frame written out. -/
def Obligations.FdByteFollowsItsPseudocode : Prop :=
  ∀ (b : Byte) (s : State),
    decode s.params { word := 0x0400 ||| b.setWidth 16, segs := [] } = .ok (.fdByte b) ∧
    (s.fd.mode = .done → exec (.fdByte b) s = .next { s with events := [] }) ∧
    (s.fd.mode = .acc → s.fd.idx = 0 →
      exec (.fdByte b) s =
        if b = 0x02 then .next { s with fd := { s.fd with idx := 1 }, events := [] }
        else .next
          { s with
            fd := { s.fd with idx := 0, dig := Vector.replicate 12 0 }
            events := [.frameError .badStart 0 b] }) ∧
    (∀ i : Fin 12, s.fd.mode = .acc → s.fd.idx.toNat = i.val + 1 →
      exec (.fdByte b) s =
        if isHex s.params b = true then
          .next
            { s with
              fd := { s.fd with idx := BitVec.ofNat 4 (i.val + 2), dig := s.fd.dig.set i.val (hexVal b) }
              events := [] }
        else .next
          { s with
            fd := { s.fd with idx := if b = 0x02 then 1 else 0, dig := Vector.replicate 12 0 }
            events := [.frameError .badHex (BitVec.ofNat 4 (i.val + 1)) b] }) ∧
    (s.fd.mode = .acc → s.fd.idx = 13 →
      exec (.fdByte b) s =
        if b ≠ 0x03 then .next
          { s with
            fd := { s.fd with idx := if b = 0x02 then 1 else 0, dig := Vector.replicate 12 0 }
            events := [.frameError .badEnd 13 b] }
        else if (s.fd.dig[0] ++ s.fd.dig[1] : BitVec 8) ^^^ (s.fd.dig[2] ++ s.fd.dig[3] : BitVec 8) ^^^
            (s.fd.dig[4] ++ s.fd.dig[5] : BitVec 8) ^^^ (s.fd.dig[6] ++ s.fd.dig[7] : BitVec 8) ^^^
            (s.fd.dig[8] ++ s.fd.dig[9] : BitVec 8) ≠ (s.fd.dig[10] ++ s.fd.dig[11] : BitVec 8) then
          .next
            { s with
              fd := { s.fd with idx := 0, dig := Vector.replicate 12 0 }
              events := [.frameError .badChecksum 13 b] }
        else
          let tag : BitVec 24 :=
            s.fd.dig[4] ++ s.fd.dig[5] ++ s.fd.dig[6] ++ s.fd.dig[7] ++ s.fd.dig[8] ++ s.fd.dig[9]
          let payload : BitVec 40 :=
            s.fd.dig[0] ++ s.fd.dig[1] ++ s.fd.dig[2] ++ s.fd.dig[3] ++ s.fd.dig[4] ++ s.fd.dig[5] ++
              s.fd.dig[6] ++ s.fd.dig[7] ++ s.fd.dig[8] ++ s.fd.dig[9]
          .next
            { s with
              fd :=
                { mode := .done
                  idx := 0
                  dig := Vector.replicate 12 0
                  tag := tag
                  payload := payload
                  cks := s.fd.dig[10] ++ s.fd.dig[11] }
              events := [.fdTagOk tag payload] })

/-- R47. -/
def Obligations.HexDigitsAreTheAsciiOnes : Prop :=
  (∀ (p : Params) (b : Byte),
    isHex p b = true ↔
      (0x30 ≤ b.toNat ∧ b.toNat ≤ 0x39) ∨ (0x41 ≤ b.toNat ∧ b.toNat ≤ 0x46) ∨
        (p.hexLowerOk = true ∧ 0x61 ≤ b.toNat ∧ b.toNat ≤ 0x66)) ∧
  (∀ b : Byte, 0x30 ≤ b.toNat ∧ b.toNat ≤ 0x39 → (hexVal b).toNat = b.toNat - 0x30) ∧
  (∀ b : Byte, 0x41 ≤ b.toNat ∧ b.toNat ≤ 0x46 → (hexVal b).toNat = b.toNat - 0x37) ∧
  (∀ b : Byte, 0x61 ≤ b.toNat ∧ b.toNat ≤ 0x66 → (hexVal b).toNat = b.toNat - 0x57) ∧
  ∀ p : Params, isHex p 0x02 = false ∧ isHex p 0x03 = false

/-- R61. -/
def Obligations.TagIdStringIsTheDecimalValue : Prop :=
  ∀ v : TagValue, ∃ ds : List Byte,
    ds ≠ [] ∧ ds.all isDigit = true ∧ decimalValue ds = v.toNat ∧ (ds.head? = some 0x30 → ds = [0x30]) ∧
    tagIdString .prefixed v = [0x30, 0x30, 0x30] ++ ds ∧
    tagIdString .zpad10 v = List.replicate (10 - ds.length) 0x30 ++ ds ∧
    4 ≤ (tagIdString .prefixed v).length ∧ (tagIdString .prefixed v).length ≤ 11 ∧
    ((tagIdString .prefixed v).length = 10 ↔ 1000000 ≤ v.toNat ∧ v.toNat ≤ 9999999)

/-- R14, R18, R22. -/
def Obligations.StatusViewsShowTheRegisters : Prop :=
  (∀ fd : FdState,
    ((fdStat fd).getLsbD 0 = true ↔ fd.mode = .done) ∧ (fdStat fd).extractLsb' 1 4 = fd.idx ∧
      (fdStat fd).extractLsb' 5 3 = 0) ∧
  (∀ le : LeState,
    (leStat le).getLsbD 0 = le.bl ∧ (leStat le).extractLsb' 1 4 = le.glyphs ∧ (leStat le).extractLsb' 5 3 = 0) ∧
  (∀ db : DbState,
    (dbStat db).getLsbD 0 = db.level.left ∧ (dbStat db).getLsbD 1 = db.level.middle ∧
      (dbStat db).getLsbD 2 = db.level.right ∧ (dbStat db).getLsbD 3 = false ∧
      (dbStat db).getLsbD 4 = db.prev.left ∧ (dbStat db).getLsbD 5 = db.prev.middle ∧
      (dbStat db).getLsbD 6 = db.prev.right ∧ (dbStat db).getLsbD 7 = false) ∧
  (fdStat State.reset.fd = 0x00 ∧ leStat State.reset.le = 0x01 ∧
    ∀ p : Params, dbStat (State.resetWith p).db = if p.prevInit = true then 0x70 else 0x00)

/-- R66, the document's first property. -/
def Obligations.FdResynchronises : Prop :=
  ∀ (s : State) (pre f post : List Byte) (is js : List Instr),
    s.fd.mode = .acc → validFrame s.params f = true →
    is.all isReceive = true → js.all isReceive = true →
    bytesOf is = pre ++ f → bytesOf js = post →
    tagOkCount (is ++ js) s = 1 ∧ tagOkCount is s = 1

/-- R67, the document's second property. -/
def Obligations.FdRecoversAfterAFaultyFrame : Prop :=
  ∀ (s : State) (q f : List Byte),
    s.fd.mode = .acc → s.fd.idx = 0 → faultyFrame s.params q = true → validFrame s.params f = true →
    tagOkCount (q.map .fdByte) s = 0 ∧
    tagOkCount ((q ++ f.dropLast).map .fdByte) s = 0 ∧
    tagOkCount ((q ++ f).map .fdByte) s = 1

/-- R68. -/
def Obligations.AtMostOneTagBetweenResets : Prop :=
  ∀ (is : List Instr) (s : State), Instr.fdReset ∉ is → Instr.fdXerr ∉ is →
    ∃ t, runOps is s = some t ∧ tagOkCount is s ≤ 1 ∧
      (tagOkCount is s = 1 → t.fd.mode = .done) ∧
      (s.fd.mode = .done →
        tagOkCount is s = 0 ∧ t.fd = s.fd ∧ fdTagStr t.params t.fd = fdTagStr s.params s.fd)

/-- R69, R93. -/
def Obligations.FrameErrorIsNotVisibleInFdStat : Prop :=
  ∀ (s t : State) (b : Byte) (c : FrameCause) (k : BitVec 4) (x : Byte),
    exec (.fdByte b) s = .next t → .frameError c k x ∈ t.events →
    s.fd.mode = .acc ∧ t.fd.mode = .acc ∧ (fdStat t.fd).getLsbD 0 = false ∧
    t.events = [.frameError c s.fd.idx b] ∧
    (t.fd.idx = 0 → ∃ u, exec (.fdByte 0x02) t = .next u ∧ u.fd.idx = 1 ∧ u.events = [])

/-- R15, R17, R34, R89: the invariant holds at reset. -/
def Obligations.ResetMeetsTheInvariant : Prop :=
  State.reset.Inv ∧ ∀ p : Params, p.wf → (State.resetWith p).Inv

/-- R15 and the invariants that R17, R34, R59, R60 and R89 give. -/
def Obligations.EveryStepKeepsTheInvariant : Prop :=
  ∀ s t : State, s.Inv → step s = .next t → t.Inv

/-- R1: the units are independent. -/
def Obligations.OperationsTouchOnlyTheirUnit : Prop :=
  (∀ (i : Instr) (s t : State), exec i s = .next t →
    (i.unit ≠ .fd → t.fd = s.fd) ∧ (i.unit ≠ .le → t.le = s.le) ∧ (i.unit ≠ .db → t.db = s.db)) ∧
  ∀ (i : Instr) (s s' t t' : State), s.params = s'.params → exec i s = .next t → exec i s' = .next t' →
    (i.unit = .fd → s.fd = s'.fd → t.fd = t'.fd ∧ t.events = t'.events) ∧
    (i.unit = .le → s.le = s'.le → t.le = t'.le ∧ t.events = t'.events) ∧
    (i.unit = .db → s.db = s'.db → s.pins = s'.pins → s.drawCount = s'.drawCount →
      t.db = t'.db ∧ t.events = t'.events)

/-- R37. -/
def Obligations.OperationsOfDifferentUnitsCommute : Prop :=
  ∀ (i j : Instr) (s : State), i.unit ≠ j.unit →
    ∃ s₁ s₁₂ s₂ s₂₁, exec i s = .next s₁ ∧ exec j s₁ = .next s₁₂ ∧ exec j s = .next s₂ ∧ exec i s₂ = .next s₂₁ ∧
      s₁₂.fd = s₂₁.fd ∧ s₁₂.le = s₂₁.le ∧ s₁₂.db = s₂₁.db ∧ s₁₂.pins = s₂₁.pins ∧
      s₁₂.drawCount = s₂₁.drawCount ∧ s₁.events = s₂₁.events ∧ s₁₂.events = s₂.events

/-- R19, R36. -/
def Obligations.BusLogOnlyGrows : Prop :=
  (∀ (is : List Instr) (s : State), ∃ t items, runOps is s = some t ∧ t.le.log = s.le.log ++ items) ∧
  (∀ (i : Instr) (s t : State), exec i s = .next t → i.unit ≠ .le → t.le.log = s.le.log) ∧
  ∀ (is js : List Instr) (s t u : State), runOps is s = some t → runOps js t = some u →
    runOps (is ++ js) s = some u

/-- R70, R48. -/
def Obligations.TransferBytesHaveTheirLayout : Prop :=
  ∀ (p : Params) (bl : Bool) (n : Nibble) (en rs : Bool), p.expander = .standard →
    xferByte p bl n en rs = n ++ BitVec.ofBool bl ++ BitVec.ofBool en ++ (0 : BitVec 1) ++ BitVec.ofBool rs

/-- R71, R72. -/
def Obligations.SendByteIsTwoStrobes : Prop :=
  (∀ (p : Params) (bl rs : Bool) (n : Nibble),
    sendNibble p bl n rs =
      (if p.nibbleSetupWrite = true then [.xfer (xferByte p bl n false rs)] else []) ++
        [.xfer (xferByte p bl n true rs), .wait .enHigh, .xfer (xferByte p bl n false rs), .wait .enLow]) ∧
  (∀ (p : Params) (bl rs : Bool) (hi lo : Nibble),
    sendByte p bl (hi ++ lo) rs = sendNibble p bl hi rs ++ sendNibble p bl lo rs) ∧
  ∀ (p : Params) (bl : Bool) (v : Byte),
    sendCmd p bl v = sendByte p bl v false ∧ sendData p bl v = sendByte p bl v true

/-- R73. -/
def Obligations.SendByteShape : Prop :=
  ∀ (p : Params) (bl rs : Bool) (hi lo : Nibble), p.wf →
    let items := sendByte p bl (hi ++ lo) rs
    (items.countP (fun i => decide (busKind i ≠ 0))) = 4 ∧
    (transferBytes items).map (carried p.expander) =
      (if p.nibbleSetupWrite = true then
        [(hi, rs), (hi, rs), (hi, rs), (lo, rs), (lo, rs), (lo, rs)]
      else [(hi, rs), (hi, rs), (lo, rs), (lo, rs)]) ∧
    (transferBytes items).map (fun b => b.getLsbD p.expander.en.val) =
      (if p.nibbleSetupWrite = true then [false, true, false, false, true, false]
      else [true, false, true, false]) ∧
    ∀ b ∈ transferBytes items, b.getLsbD p.expander.rw.val = false

/-- R74: the functional form of the escape grammar. -/
def Obligations.EscapeParseEquations : Prop :=
  escapeParse [] = [] ∧
  (∀ r : List Byte, escapeParse (0x26 :: 0x26 :: r) = 0x26 :: escapeParse r) ∧
  (∀ ds r : List Byte, ds ≠ [] → ds.all isDigit = true → decimalValue ds ≤ 255 →
    escapeParse (0x26 :: (ds ++ 0x26 :: r)) = BitVec.ofNat 8 (decimalValue ds) :: escapeParse r) ∧
  (∀ r : List Byte, r.head? ≠ some 0x26 →
    (∀ ds r' : List Byte, r = ds ++ 0x26 :: r' → ds ≠ [] → ds.all isDigit = true → 255 < decimalValue ds) →
    escapeParse (0x26 :: r) = 0x26 :: escapeParse r) ∧
  ∀ (c : Byte) (r : List Byte), c ≠ 0x26 → escapeParse (c :: r) = c :: escapeParse r

/-- R50: the grammar and the functional form agree. -/
def Obligations.EscapeParseIsTheLongestTokenGrammar : Prop :=
  ∀ t : List Byte, escapeParse t = grammarParse t

/-- R76. -/
def Obligations.LeInitEmitsItsSequence : Prop :=
  ∀ s : State,
    decode s.params { word := 0x4000, segs := [] } = .ok .leInit ∧
    exec .leInit s = .next
      { s with
        le :=
          { s.le with
            log := s.le.log ++
              (sendNibble s.params s.le.bl 0x3 false ++ [.wait .init1] ++
                sendNibble s.params s.le.bl 0x3 false ++ [.wait .init2] ++
                sendNibble s.params s.le.bl 0x3 false ++ [.wait .init2] ++
                sendNibble s.params s.le.bl 0x2 false ++ sendCmd s.params s.le.bl 0x28 ++
                sendCmd s.params s.le.bl 0x0C ++ sendCmd s.params s.le.bl 0x01 ++ [.wait .clear] ++
                sendCmd s.params s.le.bl 0x06) }
        events := [] }

/-- R77. -/
def Obligations.LeClearEmitsTheClearCommand : Prop :=
  ∀ s : State,
    decode s.params { word := 0x4400, segs := [] } = .ok .leClear ∧
    exec .leClear s = .next
      { s with
        le := { s.le with log := s.le.log ++ (sendCmd s.params s.le.bl 0x01 ++ [.wait .clear]) }
        events := [] }

/-- R78, R79. -/
def Obligations.BacklightOperationsSetTheBitAndShowIt : Prop :=
  ∀ s : State,
    decode s.params { word := 0x4800, segs := [] } = .ok .leBlOn ∧
    decode s.params { word := 0x4C00, segs := [] } = .ok .leBlOff ∧
    (∃ t, exec .leBlOn s = .next t ∧ (leStat t.le).getLsbD 0 = true ∧
      t = { s with
            le := { s.le with bl := true, log := s.le.log ++ [.xfer (xferByte s.params true 0 false false)] }
            events := [] }) ∧
    (∃ t, exec .leBlOff s = .next t ∧ (leStat t.le).getLsbD 0 = false ∧
      t = { s with
            le := { s.le with bl := false, log := s.le.log ++ [.xfer (xferByte s.params false 0 false false)] }
            events := [] }) ∧
    (s.params.expander = .standard →
      xferByte s.params true 0 false false = 0x08 ∧ xferByte s.params false 0 false false = 0x00)

/-- R75, R80, R97, R99. -/
def Obligations.PrintLineRendersOneLine : Prop :=
  ∀ (s : State) (t : Segment),
    (∀ (n : BitVec 3) (addr : BitVec 7),
      (n = 1 ∧ addr = s.params.lineAddrs.line1) ∨ (n = 2 ∧ addr = s.params.lineAddrs.line2) ∨
        (n = 3 ∧ addr = s.params.lineAddrs.line3) ∨ (n = 4 ∧ addr = s.params.lineAddrs.line4) →
      exec (.lePrintLine n t) s = .next
        { s with
          le :=
            { s.le with
              log := s.le.log ++
                (sendCmd s.params s.le.bl (0x80 ||| addr.setWidth 8) ++
                  ((escapeParse t).take s.params.cols).flatMap (sendData s.params s.le.bl)) }
          events :=
            if s.params.cols < (escapeParse t).length then
              [.leTruncated n ((escapeParse t).length - s.params.cols)]
            else [] }) ∧
    ∀ n : BitVec 3, n = 0 ∨ n = 5 ∨ n = 6 ∨ n = 7 →
      exec (.lePrintLine n t) s = .next { s with events := [.leBadLine n] }

/-- R81. -/
def Obligations.PrintLinesIsFourPrintLines : Prop :=
  ∀ (s : State) (t₁ t₂ t₃ t₄ : Segment),
    ([t₁, t₂, t₃, t₄].all (segmentOk s.params) = true →
      decode s.params { word := 0x5400, segs := [t₁, t₂, t₃, t₄] } = .ok (.lePrintLines t₁ t₂ t₃ t₄)) ∧
    ∃ t u, exec (.lePrintLines t₁ t₂ t₃ t₄) s = .next t ∧
      runOps [.lePrintLine 1 t₁, .lePrintLine 2 t₂, .lePrintLine 3 t₃, .lePrintLine 4 t₄] s = some u ∧
      u = { t with events := u.events } ∧
      t.events = eventsOf [.lePrintLine 1 t₁, .lePrintLine 2 t₂, .lePrintLine 3 t₃, .lePrintLine 4 t₄] s ∧
      t.events.length ≤ 4 ∧ (∀ e ∈ t.events, ∃ n d, e = .leTruncated n d) ∧
      t = { s with le := { s.le with log := t.le.log }, events := t.events }

/-- R82, R97, checks 3 and 4 of R53. -/
def Obligations.LoadGlyphsSendsRowsAndSetsTheCount : Prop :=
  ∀ (s : State) (n : BitVec 4) (rows : Segment),
    (n.toNat < 1 ∨ s.params.maxGlyphs.toNat < n.toNat →
      exec (.leLoadGlyphs n rows) s = .next { s with events := [.leBadGlyphCount n] }) ∧
    (1 ≤ n.toNat → n.toNat ≤ s.params.maxGlyphs.toNat → rows.length ≠ 8 * n.toNat →
      exec (.leLoadGlyphs n rows) s = .next { s with events := [.leGlyphLength n rows.length] }) ∧
    (1 ≤ n.toNat → n.toNat ≤ s.params.maxGlyphs.toNat → rows.length = 8 * n.toNat →
      ∃ t, exec (.leLoadGlyphs n rows) s = .next t ∧ (leStat t.le).extractLsb' 1 4 = n ∧
        t = { s with
              le :=
                { s.le with
                  glyphs := n
                  log := s.le.log ++
                    (sendCmd s.params s.le.bl 0x40 ++ rows.flatMap (sendData s.params s.le.bl)) }
              events := [] })

/-- R31, R48, R49, R71, R72, R75 to R82, seen from the receiving end of the bus. The receiver is the model's choice
and no rule of the spec: that it latches at the falling edge of EN and starts paired is PRESUMED
(notes/assumptions/17.md). -/
def Obligations.DisplayReceivesTheCommandsAndData : Prop :=
  ∀ (s : State) (i : Instr), s.params.wf → i.legal s.params = true →
    ∃ t items, exec i s = .next t ∧ t.le.log = s.le.log ++ items ∧
      receivedBytes s.params.expander items = displayBytes s.params i

/-- R83. -/
def Obligations.BacklightBitPersists : Prop :=
  (∀ (is : List Instr) (s s' : State), s.params.wf → exec .leBlOff s = .next s' → Instr.leBlOn ∉ is →
    ∃ t items, runOps is s' = some t ∧ t.le.log = s'.le.log ++ items ∧
      ∀ b ∈ transferBytes items, b.getLsbD s.params.expander.bl.val = false) ∧
  (∀ (is : List Instr) (s s' : State), s.params.wf → exec .leBlOn s = .next s' → Instr.leBlOff ∉ is →
    ∃ t items, runOps is s' = some t ∧ t.le.log = s'.le.log ++ items ∧
      ∀ b ∈ transferBytes items, b.getLsbD s.params.expander.bl.val = true) ∧
  ∀ (i : Instr) (s t : State), i ≠ .leBlOn → i ≠ .leBlOff → exec i s = .next t → t.le.bl = s.le.bl

/-- R84. -/
def Obligations.RenderedLineIsBounded : Prop :=
  ∀ (p : Params) (bl : Bool) (n : BitVec 3) (addr : BitVec 7) (t : Segment), p.wf → p.nibbleSetupWrite = false →
    ∃ (cmd : Byte) (data : List Byte), data.length ≤ p.cols ∧
      (renderLine p bl n addr t).1 = sendCmd p bl cmd ++ data.flatMap (sendData p bl) ∧
      (transferBytes (renderLine p bl n addr t).1).map (fun b => b.getLsbD p.expander.rs.val) =
        List.replicate 4 false ++ List.replicate (4 * data.length) true ∧
      (transferBytes (renderLine p bl n addr t).1).length ≤ (1 + p.cols) * 4 ∧
      (p.cols = 20 → (transferBytes (renderLine p bl n addr t).1).length ≤ 84)

/-- R45, R74, R75, R92. -/
def Obligations.TruncationCountsFitTheirField : Prop :=
  (∀ t : List Byte, (escapeParse t).length ≤ t.length) ∧
  ∀ (s t : State) (c : Command) (i : Instr), decode s.params c = .ok i → exec i s = .next t →
    (∀ n d, .leTruncated n d ∈ t.events → d ≤ s.params.segMax.toNat ∧ d < 256) ∧
    (∀ n d, .leGlyphLength n d ∈ t.events → d ≤ s.params.segMax.toNat ∧ d < 256)

/-- R122: the host duty on exit, and what it leaves. -/
def Obligations.TeardownLeavesTheDisplayDark : Prop :=
  AsmLine.teardown.commands = [{ word := 0x4400, segs := [] }, { word := 0x4C00, segs := [] }] ∧
  ∀ s : State, s.params.expander = .standard →
    ∃ t, runOps [.leClear, .leBlOff] s = some t ∧ t.le.log.getLast? = some (.xfer 0x00) ∧ t.le.bl = false

/-- R86, R87. -/
def Obligations.StableAndEdgeTables : Prop :=
  (stable false false = true ∧ stable false true = false ∧ stable true false = false ∧
    stable true true = false) ∧
  ∀ cur prev : Bool, edge cur prev = true ↔ cur = true ∧ prev = false

/-- R88, R98. -/
def Obligations.DbSampleDerivesLevelAndEdge : Prop :=
  ∀ s : State,
    (∀ f : BitVec 2, decode s.params { word := 0x8000 ||| f.setWidth 16, segs := [] } = .ok (.dbSample f)) ∧
    (∀ (f : BitVec 2) (b : Button) (r₁ r₂ : Bool),
      (f = 0 ∧ b = .left) ∨ (f = 1 ∧ b = .middle) ∨ (f = 2 ∧ b = .right) →
      s.nextLevel b = r₁ → s.afterDraw.nextLevel b = r₂ →
      exec (.dbSample f) s = .next
        { s with
          db :=
            { level := s.db.level.set b (!r₁ && !r₂)
              prev := s.db.prev.set b (!r₁ && !r₂) }
          events := if r₁ = false ∧ r₂ = false ∧ s.db.prev.get b = false then [.dbPressed b] else []
          pins := s.pins.drop 2
          drawCount := s.drawCount + 2 }) ∧
    (∀ (b : Button) (r₁ r₂ : Bool) (rest : List Bool), s.pins = r₁ :: r₂ :: rest →
      s.nextLevel b = r₁ ∧ s.afterDraw.nextLevel b = r₂) ∧
    exec (.dbSample 3) s = .next { s with events := [.dbBadButton 3] }

/-- R89. -/
def Obligations.DbRearmSetsEveryReference : Prop :=
  (∀ s : State,
    decode s.params { word := 0x8400, segs := [] } = .ok .dbRearm ∧
    ∃ t, exec .dbRearm s = .next t ∧
      t = { s with
            db :=
              { s.db with
                prev := { left := s.params.prevInit, middle := s.params.prevInit, right := s.params.prevInit } }
            events := [] } ∧
      ∀ (f : BitVec 2) (b : Button) (rest : List Bool), buttonOf f = some b → s.pins = false :: false :: rest →
        ∃ u, exec (.dbSample f) t = .next u ∧
          u.events = if s.params.prevInit = true then [] else [.dbPressed b]) ∧
  ∀ (i : Instr) (s t : State) (b : Button), i ≠ .dbRearm → exec i s = .next t →
    s.db.prev.get b = s.db.level.get b → t.db.prev.get b = t.db.level.get b

/-- R90, the document's property of the debouncer. -/
def Obligations.NoisySampleIsNeverAPress : Prop :=
  (∀ (s : State) (f : BitVec 2) (b : Button) (r₁ r₂ : Bool) (rest : List Bool),
    buttonOf f = some b → s.pins = r₁ :: r₂ :: rest →
    ∃ t, exec (.dbSample f) s = .next t ∧
      (r₁ ≠ r₂ → t.events = []) ∧
      (r₁ = true ∧ r₂ = true → t.events = []) ∧
      (r₁ = false ∧ r₂ = false → (.dbPressed b ∈ t.events ↔ s.db.prev.get b = false))) ∧
  ∀ (f : BitVec 2) (b : Button) (rest : List Bool), buttonOf f = some b →
    ∃ t, exec (.dbSample f) { State.reset with pins := false :: false :: rest } = .next t ∧
      t.events = [.dbPressed b]

/-- R91. -/
def Obligations.HeldButtonReportsOnce : Prop :=
  (∀ (f : BitVec 2) (b : Button) (n : Nat) (s : State) (rest : List Bool),
    buttonOf f = some b → s.pins = List.replicate (2 * n) false ++ rest →
    (statesAfter (List.replicate n (.dbSample f)) s).map State.events =
      (List.range n).map (fun k => if k = 0 ∧ s.db.prev.get b = false then [.dbPressed b] else [])) ∧
  ∀ (f : BitVec 2) (b : Button) (r₁ r₂ : Bool) (s : State) (rest : List Bool),
    buttonOf f = some b → (r₁ = true ∨ r₂ = true) →
    s.pins = false :: false :: r₁ :: r₂ :: false :: false :: rest →
    ∃ t₁ t₂ t₃, statesAfter [.dbSample f, .dbSample f, .dbSample f] s = [t₁, t₂, t₃] ∧
      t₂.events = [] ∧ t₃.events = [.dbPressed b]

/-- R92, the columns code, kind and info of its table. -/
def Obligations.EventCodesAreThoseOfTheTable : Prop :=
  (∀ (k : BitVec 4) (b : Byte),
    eventCode (.frameError .badStart k b) = 0x01 ∧ eventCode (.frameError .badHex k b) = 0x02 ∧
      eventCode (.frameError .badEnd k b) = 0x03 ∧ eventCode (.frameError .badChecksum k b) = 0x04) ∧
  (∀ (c : FrameCause) (k : BitVec 4) (b : Byte),
    eventKind (.frameError c k b) = .recovered ∧
      (eventInfo (.frameError c k b)).toNat = k.toNat + 2 ^ 8 * b.toNat) ∧
  (eventCode .fdTransportError = 0x05 ∧ eventKind .fdTransportError = .escalated ∧
    (eventInfo .fdTransportError).toNat = 0) ∧
  (∀ (tag : TagValue) (payload : BitVec 40),
    eventCode (.fdTagOk tag payload) = 0x06 ∧ eventKind (.fdTagOk tag payload) = .report ∧
      (eventInfo (.fdTagOk tag payload)).toNat = payload.toNat + 2 ^ 40 * tag.toNat) ∧
  (∀ (line : BitVec 3) (d : Nat),
    eventCode (.leTruncated line d) = 0x10 ∧ eventKind (.leTruncated line d) = .warning ∧
      (d < 256 → (eventInfo (.leTruncated line d)).toNat = line.toNat + 2 ^ 8 * d)) ∧
  (∀ line : BitVec 3,
    eventCode (.leBadLine line) = 0x11 ∧ eventKind (.leBadLine line) = .refusal ∧
      (eventInfo (.leBadLine line)).toNat = line.toNat) ∧
  (∀ n : BitVec 4,
    eventCode (.leBadGlyphCount n) = 0x12 ∧ eventKind (.leBadGlyphCount n) = .refusal ∧
      (eventInfo (.leBadGlyphCount n)).toNat = n.toNat) ∧
  (∀ (n : BitVec 4) (len : Nat),
    eventCode (.leGlyphLength n len) = 0x13 ∧ eventKind (.leGlyphLength n len) = .refusal ∧
      (len < 256 → (eventInfo (.leGlyphLength n len)).toNat = n.toNat + 2 ^ 8 * len)) ∧
  (eventCode (.dbPressed .left) = 0x20 ∧ eventCode (.dbPressed .middle) = 0x20 ∧
    eventCode (.dbPressed .right) = 0x20 ∧ (∀ b : Button, eventKind (.dbPressed b) = .report) ∧
    (eventInfo (.dbPressed .left)).toNat = 0 ∧ (eventInfo (.dbPressed .middle)).toNat = 1 ∧
    (eventInfo (.dbPressed .right)).toNat = 2) ∧
  (∀ f : BitVec 2,
    eventCode (.dbBadButton f) = 0x21 ∧ eventKind (.dbBadButton f) = .refusal ∧
      (eventInfo (.dbBadButton f)).toNat = f.toNat) ∧
  (∀ w : OpWord,
    eventCode (.opPayloadShape w) = 0x3E ∧ eventKind (.opPayloadShape w) = .refusal ∧
      (eventInfo (.opPayloadShape w)).toNat = w.toNat ∧
      eventCode (.illegalOp w) = 0x3F ∧ eventKind (.illegalOp w) = .refusal ∧
      (eventInfo (.illegalOp w)).toNat = w.toNat) ∧
  ∀ e : Event, eventCode e ∈
    [0x01, 0x02, 0x03, 0x04, 0x05, 0x06, 0x10, 0x11, 0x12, 0x13, 0x20, 0x21, 0x3E, 0x3F]

/-- R56, R102 item 5. That an ill-formed FD_XERR or FD_RESET is another command is the model's deduction
(notes/assumptions/6.md), and so is the command event port for the events of a commanded FD_BYTE
(notes/assumptions/21.md). -/
def Obligations.CycleAppliesResetsBeforeTheByte : Prop :=
  (∀ (c : CycleIn) (s : State), ∃ out, runCycle c s = .next out ∧ out.fdEvents.length ≤ 1) ∧
  (∀ (c : CycleIn) (s : State), c.rst = true →
    ∃ out, runCycle c s = .next out ∧ out.fdEvents = [] ∧ out.cmdEvents = [] ∧ out.busItems = [] ∧
      out.state.fd = .initial ∧ out.state.le = .initial s.params ∧ out.state.db = .initial s.params) ∧
  (∀ (c : CycleIn) (s : State), c.rst = false → c.rxFault = false → c.accepted = none →
    ∃ t out, exec (if c.rxValid = true then .fdByte c.rxByte else .fdPoll) s = .next t ∧
      runCycle c s = .next out ∧ out.state.fd = t.fd ∧ out.fdEvents = t.events ∧ out.cmdEvents = [] ∧
      out.busItems = [] ∧ out.state.le = s.le ∧ out.state.db = s.db) ∧
  (∀ (c : CycleIn) (s : State), c.rst = false → c.rxFault = false →
    (c.accepted = some { word := 0x0C00, segs := [] } ∨ c.accepted = some { word := 0x0800, segs := [] }) →
    ∃ t out, exec (if c.rxValid = true then .fdByte c.rxByte else .fdPoll) { s with fd := .initial } = .next t ∧
      runCycle c s = .next out ∧ out.state.fd = t.fd ∧ out.fdEvents = t.events ∧
      out.cmdEvents =
        (if c.accepted = some { word := 0x0C00, segs := [] } then [.fdTransportError] else []) ∧
      out.busItems = [] ∧ out.state.le = s.le ∧ out.state.db = s.db) ∧
  (∀ (c : CycleIn) (s : State), c.rst = false → c.rxFault = true →
    (c.accepted = none ∨ c.accepted = some { word := 0x0C00, segs := [] } ∨
      c.accepted = some { word := 0x0800, segs := [] }) →
    ∃ out, runCycle c s = .next out ∧ out.state.fd = .initial ∧ out.fdEvents = [.fdTransportError] ∧
      out.cmdEvents = [] ∧ out.busItems = [] ∧ out.state.le = s.le ∧ out.state.db = s.db) ∧
  ∀ (c : CycleIn) (s : State) (cmd : Command), c.rst = false → c.accepted = some cmd →
    decode s.params cmd ≠ .ok .fdXerr → decode s.params cmd ≠ .ok .fdReset →
    ∃ before t out, runCycle { c with accepted := none } s = .next before ∧
      step { before.state with input := [.op cmd] } = .next t ∧ runCycle c s = .next out ∧ out.state = t ∧
      out.fdEvents = before.fdEvents ∧ out.cmdEvents = t.events ∧ t.le.log = s.le.log ++ out.busItems

/-- R46, R57. -/
def Obligations.AssembledFrameIsValid : Prop :=
  ∀ ds : List Byte, ds.length = 10 → ds.all (isHex .standard) = true →
    (AsmLine.frame ds).commands = (frameBytes ds).map (fun b => encode (.fdByte b)) ∧
    (frameBytes ds).length = 14 ∧ ((frameBytes ds).drop 1).take 10 = ds ∧
    validFrame .standard (frameBytes ds) = true ∧
    ∀ s : State, s.params = .standard → s.fd.mode = .acc →
      tagOkCount ((frameBytes ds).map .fdByte) s = 1

/-- R56, R115, with entry I13 of 93_implementation_defined.md; the form of the handshake is the model's
(notes/assumptions/8.md), and so is what the ports show in a cycle with rst = 1, which the first and the last clause
take in (notes/assumptions/19.md). -/
def Obligations.BusyPortTurnsCommandsAway : Prop :=
  (∀ (x : PortIn) (q : PortState), q.busy = true →
    portCycle x q = portCycle { x with cmdValid := false, segValid := false } q ∧
    ∃ q' o, portCycle x q = .next (q', o) ∧ o.cmdReady = false ∧ o.segReady = false) ∧
  (∀ (x : PortIn) (s : State), x.rst = false → x.cmdValid = false → x.segValid = false →
    ∃ q' o, portCycle x (.idle s) = .next (q', o) ∧ o.cmdReady = true ∧ o.segReady = true ∧ q'.busy = false ∧
      q'.waiting = none ∧ q'.cmdReady = true ∧ q'.segReady = true ∧ o.bus = none ∧ o.cmdEvent = none) ∧
  ∀ (x : PortIn) (q : PortState) (w : OpWord), q.busy = false → q.waiting = some w →
    portCycle x q = portCycle { x with cmdValid := false } q ∧
    ∃ q' o, portCycle x q = .next (q', o) ∧ o.cmdReady = false ∧ o.segReady = true

/-- R19, R35, R56; the form of the handshake is the model's (notes/assumptions/8.md). -/
def Obligations.BusPortPresentsTheLogInOrder : Prop :=
  ∀ (x : PortIn) (q : PortState), x.rst = false →
    ∃ q' o items, portCycle x q = .next (q', o) ∧ o.bus = q.busQueue.head? ∧
      q'.block.le.log = q.block.le.log ++ items ∧
      q'.busQueue = (if x.busReady then q.busQueue.tail else q.busQueue) ++ items

/-- R43, R45, R55, R56. The form of the handshake is the model's (notes/assumptions/8.md). -/
def Obligations.SegmentsFollowTheirWord : Prop :=
  (∀ w : OpWord, payloadCount w = if w &&& 0xFFF8 = 0x5000 then 1 else if w = 0x5400 then 4
    else if w &&& 0xFFF0 = 0x5800 then 1 else 0) ∧
  (∀ (x : PortIn) (q : PortState) (w : OpWord), x.rst = false → q.busy = false →
    (q.waiting = some w ∨ q.waiting = none ∧ x.cmdValid = true ∧ x.cmdWord = w) →
    (collectSegments (q.segBytes ++ x.segment.toList)).1.length < payloadCount w →
    ∃ q' o, portCycle x q = .next (q', o) ∧ q'.waiting = some w ∧ q'.segBytes = q.segBytes ++ x.segment.toList ∧
      q'.busy = false ∧ q'.block.le = q.block.le ∧ q'.block.db = q.block.db) ∧
  ∀ (s : State) (w : OpWord) (segs : List Segment) (i : Instr) (x y : PortIn) (ys : List PortIn),
    decode s.params { word := w, segs := segs } = .ok i → segs ≠ [] → (∀ g ∈ segs, g ≠ []) →
    x.cmdValid = true → x.cmdWord = w → x.segValid = false → y.segValid = true →
    (∀ z ∈ x :: (ys ++ [y]), z.rst = false) →
    (ys ++ [y]).filterMap PortIn.segment = segmentStream segs →
    ∃ q t, portRun (x :: (ys ++ [y])) (.idle s) = .next q ∧ exec i s = .next t ∧ q.block.le = t.le ∧
      t.le.log = s.le.log ++ q.busQueue ∧ q.eventQueue = t.events ∧ q.waiting = none ∧ q.segBytes = []
end

