-- ==== Sys2Proof/Laws/State.lean ====
section
/-! SUPPORT. The small lemmas of `State`: what each named update leaves in each field, so that no later proof
unfolds a record update. -/

namespace Sys2Proof.Machine

variable (s : State)

/-! ## `State.setFd` -/

@[simp] theorem State.setFd_params (fd : FdState) (es : List Event) : (s.setFd fd es).params = s.params := rfl
@[simp] theorem State.setFd_fd (fd : FdState) (es : List Event) : (s.setFd fd es).fd = fd := rfl
@[simp] theorem State.setFd_le (fd : FdState) (es : List Event) : (s.setFd fd es).le = s.le := rfl
@[simp] theorem State.setFd_db (fd : FdState) (es : List Event) : (s.setFd fd es).db = s.db := rfl
@[simp] theorem State.setFd_events (fd : FdState) (es : List Event) : (s.setFd fd es).events = es := rfl
@[simp] theorem State.setFd_input (fd : FdState) (es : List Event) : (s.setFd fd es).input = s.input := rfl
@[simp] theorem State.setFd_pins (fd : FdState) (es : List Event) : (s.setFd fd es).pins = s.pins := rfl
@[simp] theorem State.setFd_drawCount (fd : FdState) (es : List Event) : (s.setFd fd es).drawCount = s.drawCount := rfl

/-! ## `State.setLe` -/

@[simp] theorem State.setLe_params (le : LeState) (es : List Event) : (s.setLe le es).params = s.params := rfl
@[simp] theorem State.setLe_fd (le : LeState) (es : List Event) : (s.setLe le es).fd = s.fd := rfl
@[simp] theorem State.setLe_le (le : LeState) (es : List Event) : (s.setLe le es).le = le := rfl
@[simp] theorem State.setLe_db (le : LeState) (es : List Event) : (s.setLe le es).db = s.db := rfl
@[simp] theorem State.setLe_events (le : LeState) (es : List Event) : (s.setLe le es).events = es := rfl
@[simp] theorem State.setLe_input (le : LeState) (es : List Event) : (s.setLe le es).input = s.input := rfl
@[simp] theorem State.setLe_pins (le : LeState) (es : List Event) : (s.setLe le es).pins = s.pins := rfl
@[simp] theorem State.setLe_drawCount (le : LeState) (es : List Event) : (s.setLe le es).drawCount = s.drawCount := rfl

/-! ## `State.setDb` -/

@[simp] theorem State.setDb_params (db : DbState) (es : List Event) : (s.setDb db es).params = s.params := rfl
@[simp] theorem State.setDb_fd (db : DbState) (es : List Event) : (s.setDb db es).fd = s.fd := rfl
@[simp] theorem State.setDb_le (db : DbState) (es : List Event) : (s.setDb db es).le = s.le := rfl
@[simp] theorem State.setDb_db (db : DbState) (es : List Event) : (s.setDb db es).db = db := rfl
@[simp] theorem State.setDb_events (db : DbState) (es : List Event) : (s.setDb db es).events = es := rfl
@[simp] theorem State.setDb_input (db : DbState) (es : List Event) : (s.setDb db es).input = s.input := rfl
@[simp] theorem State.setDb_pins (db : DbState) (es : List Event) : (s.setDb db es).pins = s.pins := rfl
@[simp] theorem State.setDb_drawCount (db : DbState) (es : List Event) : (s.setDb db es).drawCount = s.drawCount := rfl

/-! ## `State.setEvents` -/

@[simp] theorem State.setEvents_params (es : List Event) : (s.setEvents es).params = s.params := rfl
@[simp] theorem State.setEvents_fd (es : List Event) : (s.setEvents es).fd = s.fd := rfl
@[simp] theorem State.setEvents_le (es : List Event) : (s.setEvents es).le = s.le := rfl
@[simp] theorem State.setEvents_db (es : List Event) : (s.setEvents es).db = s.db := rfl
@[simp] theorem State.setEvents_events (es : List Event) : (s.setEvents es).events = es := rfl
@[simp] theorem State.setEvents_input (es : List Event) : (s.setEvents es).input = s.input := rfl
@[simp] theorem State.setEvents_pins (es : List Event) : (s.setEvents es).pins = s.pins := rfl
@[simp] theorem State.setEvents_drawCount (es : List Event) : (s.setEvents es).drawCount = s.drawCount := rfl

/-! ## `State.setInput` -/

@[simp] theorem State.setInput_params (is : List Input) : (s.setInput is).params = s.params := rfl
@[simp] theorem State.setInput_fd (is : List Input) : (s.setInput is).fd = s.fd := rfl
@[simp] theorem State.setInput_le (is : List Input) : (s.setInput is).le = s.le := rfl
@[simp] theorem State.setInput_db (is : List Input) : (s.setInput is).db = s.db := rfl
@[simp] theorem State.setInput_events (is : List Input) : (s.setInput is).events = s.events := rfl
@[simp] theorem State.setInput_input (is : List Input) : (s.setInput is).input = is := rfl
@[simp] theorem State.setInput_pins (is : List Input) : (s.setInput is).pins = s.pins := rfl
@[simp] theorem State.setInput_drawCount (is : List Input) : (s.setInput is).drawCount = s.drawCount := rfl

/-! ## `State.setPins` -/

@[simp] theorem State.setPins_params (ps : List Bool) (n : Nat) : (s.setPins ps n).params = s.params := rfl
@[simp] theorem State.setPins_fd (ps : List Bool) (n : Nat) : (s.setPins ps n).fd = s.fd := rfl
@[simp] theorem State.setPins_le (ps : List Bool) (n : Nat) : (s.setPins ps n).le = s.le := rfl
@[simp] theorem State.setPins_db (ps : List Bool) (n : Nat) : (s.setPins ps n).db = s.db := rfl
@[simp] theorem State.setPins_events (ps : List Bool) (n : Nat) : (s.setPins ps n).events = s.events := rfl
@[simp] theorem State.setPins_input (ps : List Bool) (n : Nat) : (s.setPins ps n).input = s.input := rfl
@[simp] theorem State.setPins_pins (ps : List Bool) (n : Nat) : (s.setPins ps n).pins = ps := rfl
@[simp] theorem State.setPins_drawCount (ps : List Bool) (n : Nat) : (s.setPins ps n).drawCount = n := rfl

/-! ## `State.refuse` -/

@[simp] theorem State.refuse_params (e : Event) : (s.refuse e).params = s.params := rfl
@[simp] theorem State.refuse_fd (e : Event) : (s.refuse e).fd = s.fd := rfl
@[simp] theorem State.refuse_le (e : Event) : (s.refuse e).le = s.le := rfl
@[simp] theorem State.refuse_db (e : Event) : (s.refuse e).db = s.db := rfl
@[simp] theorem State.refuse_events (e : Event) : (s.refuse e).events = [e] := rfl
@[simp] theorem State.refuse_input (e : Event) : (s.refuse e).input = s.input := rfl
@[simp] theorem State.refuse_pins (e : Event) : (s.refuse e).pins = s.pins := rfl
@[simp] theorem State.refuse_drawCount (e : Event) : (s.refuse e).drawCount = s.drawCount := rfl

/-! ## `State.blockReset` -/

@[simp] theorem State.blockReset_params : s.blockReset.params = s.params := rfl
@[simp] theorem State.blockReset_fd : s.blockReset.fd = .initial := rfl
@[simp] theorem State.blockReset_le : s.blockReset.le = .initial s.params := rfl
@[simp] theorem State.blockReset_db : s.blockReset.db = .initial s.params := rfl
@[simp] theorem State.blockReset_events : s.blockReset.events = [] := rfl
@[simp] theorem State.blockReset_input : s.blockReset.input = s.input := rfl
@[simp] theorem State.blockReset_pins : s.blockReset.pins = s.pins := rfl
@[simp] theorem State.blockReset_drawCount : s.blockReset.drawCount = s.drawCount := rfl

/-! ## `State.afterDraw` -/

@[simp] theorem State.afterDraw_params : s.afterDraw.params = s.params := rfl
@[simp] theorem State.afterDraw_fd : s.afterDraw.fd = s.fd := rfl
@[simp] theorem State.afterDraw_le : s.afterDraw.le = s.le := rfl
@[simp] theorem State.afterDraw_db : s.afterDraw.db = s.db := rfl
@[simp] theorem State.afterDraw_events : s.afterDraw.events = s.events := rfl
@[simp] theorem State.afterDraw_input : s.afterDraw.input = s.input := rfl
@[simp] theorem State.afterDraw_pins : s.afterDraw.pins = s.pins.tail := rfl
@[simp] theorem State.afterDraw_drawCount : s.afterDraw.drawCount = s.drawCount + 1 := rfl

/-! ## The other records -/

@[simp] theorem LeState.emit_bl (le : LeState) (items : List BusItem) : (le.emit items).bl = le.bl := rfl
@[simp] theorem LeState.emit_glyphs (le : LeState) (items : List BusItem) : (le.emit items).glyphs = le.glyphs := rfl
@[simp] theorem LeState.emit_log (le : LeState) (items : List BusItem) : (le.emit items).log = le.log ++ items := rfl

/-- Reading a button's bit after writing that button's bit. -/
@[simp] theorem ButtonBits.get_set_self (v : ButtonBits) (b : Button) (x : Bool) : (v.set b x).get b = x := by
  cases b <;> rfl

/-- Reading a button's bit after writing another button's bit. -/
theorem ButtonBits.get_set_ne (v : ButtonBits) (b c : Button) (x : Bool) (h : c ≠ b) :
    (v.set b x).get c = v.get c := by
  cases b <;> cases c <;> first | rfl | exact absurd rfl h

@[simp] theorem ButtonBits.get_all (x : Bool) (b : Button) : (ButtonBits.all x).get b = x := by
  cases b <;> rfl

end Sys2Proof.Machine
end

