-- ==== Sys2Proof/Laws/Ops.lean ====
section
/-! SUPPORT. One lemma for each shared operation that says once what it does, for proofs to cite. -/

namespace Sys2Proof.Machine

/-! ## FD -/

/-- Everything a byte can do to the FD (R62), by its mode and index. -/
theorem fdReceive_cases (p : Params) (fd : FdState) (b : Byte) :
    (fd.mode = .done ∧ fdReceive p fd b = (fd, [])) ∨
    (fd.mode = .acc ∧ fd.idx = 0 ∧ b = Config.startCode ∧ fdReceive p fd b = ({ fd with idx := 1 }, [])) ∨
    (fd.mode = .acc ∧ fd.idx = 0 ∧ b ≠ Config.startCode ∧ fdReceive p fd b = frameErr .badStart b fd) ∨
    (fd.mode = .acc ∧ fd.idx ≠ 0 ∧ fd.idx.toNat ≤ 12 ∧ isHex p b = true ∧ fdReceive p fd b = acceptDigit b fd) ∨
    (fd.mode = .acc ∧ fd.idx ≠ 0 ∧ fd.idx.toNat ≤ 12 ∧ isHex p b = false ∧
      fdReceive p fd b = frameErr .badHex b fd) ∨
    (fd.mode = .acc ∧ 13 ≤ fd.idx.toNat ∧ b ≠ Config.endCode ∧ fdReceive p fd b = frameErr .badEnd b fd) ∨
    (fd.mode = .acc ∧ 13 ≤ fd.idx.toNat ∧ b = Config.endCode ∧ checksumOk fd.dig = false ∧
      fdReceive p fd b = frameErr .badChecksum b fd) ∨
    (fd.mode = .acc ∧ 13 ≤ fd.idx.toNat ∧ b = Config.endCode ∧ checksumOk fd.dig = true ∧
      fdReceive p fd b = completeFrame fd) := by
  unfold fdReceive
  rcases hm : fd.mode with _ | _
  · dsimp only
    by_cases h0 : fd.idx = 0
    · rw [if_pos h0]
      by_cases hb : b = Config.startCode
      · rw [if_pos hb]
        exact .inr (.inl ⟨rfl, h0, hb, by simp⟩)
      · rw [if_neg hb]
        exact .inr (.inr (.inl ⟨rfl, h0, hb, rfl⟩))
    · rw [if_neg h0]
      by_cases h12 : fd.idx.toNat ≤ 12
      · rw [if_pos h12]
        rcases hx : isHex p b with _ | _
        · exact .inr (.inr (.inr (.inr (.inl ⟨rfl, h0, h12, rfl, rfl⟩))))
        · exact .inr (.inr (.inr (.inl ⟨rfl, h0, h12, rfl, rfl⟩)))
      · rw [if_neg h12]
        have h13 : 13 ≤ fd.idx.toNat := by omega
        by_cases he : b ≠ Config.endCode
        · rw [if_pos he]
          exact .inr (.inr (.inr (.inr (.inr (.inl ⟨rfl, h13, he, rfl⟩)))))
        · rw [if_neg he]
          have he' : b = Config.endCode := not_not.mp he
          rcases hc : checksumOk fd.dig with _ | _
          · exact .inr (.inr (.inr (.inr (.inr (.inr (.inl ⟨rfl, h13, he', rfl, rfl⟩))))))
          · exact .inr (.inr (.inr (.inr (.inr (.inr (.inr ⟨rfl, h13, he', rfl, rfl⟩))))))
  · exact .inl ⟨rfl, rfl⟩

/-- A byte raises at most one event, and FD_TAG_OK only when a frame completes (R62, R102). -/
theorem fdReceive_events_length (p : Params) (fd : FdState) (b : Byte) :
    (fdReceive p fd b).2.length ≤ 1 := by
  rcases fdReceive_cases p fd b with ⟨_, h⟩ | ⟨_, _, _, h⟩ | ⟨_, _, _, h⟩ | ⟨_, _, _, _, h⟩ | ⟨_, _, _, _, h⟩ |
    ⟨_, _, _, h⟩ | ⟨_, _, _, _, h⟩ | ⟨_, _, _, _, h⟩ <;> rw [h] <;> simp [frameErr, acceptDigit, completeFrame]

/-! ## LE -/

/-- A bit of `bitAt`: the value at its place, 0 elsewhere. -/
theorem bitAt_getLsbD (a : Fin 8) (v : Bool) (j : Nat) (hj : j < 8) :
    (bitAt a v).getLsbD j = (decide (j = a.val) && v) := by
  have h : ∀ (a j : Fin 8) (v : Bool), (bitAt a v).getLsbD j.val = (decide (j.val = a.val) && v) := by decide
  exact h a ⟨j, hj⟩ v

/-- Each bit of a transfer byte, whatever the expander bit map (R48, R70). -/
theorem xferByte_getLsbD (p : Params) (bl : Bool) (n : Nibble) (en rs : Bool) (j : Nat) (hj : j < 8) :
    (xferByte p bl n en rs).getLsbD j =
      ((decide (j = p.expander.d7.val) && n.getLsbD 3) || (decide (j = p.expander.d6.val) && n.getLsbD 2) ||
        (decide (j = p.expander.d5.val) && n.getLsbD 1) || (decide (j = p.expander.d4.val) && n.getLsbD 0) ||
        (decide (j = p.expander.bl.val) && bl) || (decide (j = p.expander.en.val) && en) ||
        (decide (j = p.expander.rs.val) && rs)) := by
  simp only [xferByte, BitVec.getLsbD_or, bitAt_getLsbD _ _ _ hj, Bool.and_false, Bool.or_false]

/-- A strobe is four items, or five with the set-up write (R71). -/
theorem sendNibble_length (p : Params) (bl : Bool) (n : Nibble) (rs : Bool) :
    (sendNibble p bl n rs).length = if p.nibbleSetupWrite then 5 else 4 := by
  unfold sendNibble
  split <;> rfl

/-- A byte is eight items, or ten with the set-up write (R72). -/
theorem sendByte_length (p : Params) (bl : Bool) (v : Byte) (rs : Bool) :
    (sendByte p bl v rs).length = if p.nibbleSetupWrite then 10 else 8 := by
  simp only [sendByte, List.length_append, sendNibble_length]
  split <;> rfl

/-- Every transfer of a strobe is a transfer byte of its nibble, with EN either way (R71). -/
theorem mem_sendNibble_xfer (p : Params) (bl : Bool) (n : Nibble) (rs : Bool) (x : Byte)
    (h : BusItem.xfer x ∈ sendNibble p bl n rs) : ∃ en, x = xferByte p bl n en rs := by
  unfold sendNibble at h
  rcases hs : p.nibbleSetupWrite with _ | _ <;> simp [hs] at h
  · rcases h with h | h
    · exact ⟨true, h⟩
    · exact ⟨false, h⟩
  · rcases h with h | h | h
    · exact ⟨false, h⟩
    · exact ⟨true, h⟩
    · exact ⟨false, h⟩

/-- Every transfer of a byte is a transfer byte of one of its nibbles (R72). -/
theorem mem_sendByte_xfer (p : Params) (bl : Bool) (v : Byte) (rs : Bool) (x : Byte)
    (h : BusItem.xfer x ∈ sendByte p bl v rs) : ∃ n en, x = xferByte p bl n en rs := by
  rcases List.mem_append.mp h with h | h
  · exact ⟨_, mem_sendNibble_xfer p bl _ rs x h⟩
  · exact ⟨_, mem_sendNibble_xfer p bl _ rs x h⟩

/-- LE_PRINT_LINE on a field that names a line (R80). -/
theorem execLePrintLine_some (s : State) (line : BitVec 3) (text : Segment) (addr : BitVec 7)
    (h : lineAddr s.params line = some addr) :
    execLePrintLine line text s =
      .next (s.setLe (s.le.emit (renderLine s.params s.le.bl line addr text).1)
        (renderLine s.params s.le.bl line addr text).2) := by
  simp [execLePrintLine, h]

/-- LE_PRINT_LINE on a field that names no line (R80). -/
theorem execLePrintLine_none (s : State) (line : BitVec 3) (text : Segment)
    (h : lineAddr s.params line = none) :
    execLePrintLine line text s = .next (s.refuse (.leBadLine line)) := by
  simp [execLePrintLine, h]

/-- A line field names a line exactly when it is 1..4 (R51). -/
theorem lineAddr_isSome (p : Params) (line : BitVec 3) : (lineAddr p line).isSome = lineFieldOk line := by
  have h : ∀ l : BitVec 3, l.toNat = 1 ∨ l.toNat = 2 ∨ l.toNat = 3 ∨ l.toNat = 4 ∨
      (l.toNat = 0 ∨ l.toNat = 5 ∨ l.toNat = 6 ∨ l.toNat = 7) := by decide
  rcases h line with h | h | h | h | h | h | h | h <;> simp [lineAddr, lineFieldOk, Config.rows, h]

/-- Everything LE_LOAD_GLYPHS can do (R82), in the order of the checks. -/
theorem execLeLoadGlyphs_cases (s : State) (n : BitVec 4) (rows : Segment) :
    (glyphCountOk s.params n = false ∧ execLeLoadGlyphs n rows s = .next (s.refuse (.leBadGlyphCount n))) ∨
    (glyphCountOk s.params n = true ∧ glyphLengthOk n rows = false ∧
      execLeLoadGlyphs n rows s = .next (s.refuse (.leGlyphLength n rows.length))) ∨
    (glyphCountOk s.params n = true ∧ glyphLengthOk n rows = true ∧
      execLeLoadGlyphs n rows s =
        .next (s.setLe (LeState.emit { s.le with glyphs := n } (glyphItems s.params s.le.bl rows)) [])) := by
  unfold execLeLoadGlyphs
  rcases glyphCountOk s.params n with _ | _ <;> rcases glyphLengthOk n rows with _ | _ <;> simp

/-! ## DB -/

/-- DB_SAMPLE of a field that names a button (R88). -/
theorem execDbSample_some (s : State) (f : BitVec 2) (b : Button) (h : buttonOf f = some b) :
    execDbSample f s =
      .next (s.afterDraw.afterDraw.setDb (dbSampled b (s.nextLevel b) (s.afterDraw.nextLevel b) s.db).1
        (dbSampled b (s.nextLevel b) (s.afterDraw.nextLevel b) s.db).2) := by
  simp [execDbSample, h]

/-- DB_SAMPLE of a field that names no button (R88). -/
theorem execDbSample_none (s : State) (f : BitVec 2) (h : buttonOf f = none) :
    execDbSample f s = .next (s.refuse (.dbBadButton f)) := by
  simp [execDbSample, h]

/-- A draw returns what the environment gives next (R85). -/
theorem nextLevel_cons (s : State) (b : Button) (r : Bool) (rest : List Bool) (h : s.pins = r :: rest) :
    s.nextLevel b = r := by
  simp [State.nextLevel, h]

end Sys2Proof.Machine
end

