-- ==== Sys2Proof/Laws/Bus.lean ====
section
/-! SUPPORT. What stands where in a transfer byte, for every expander bit map that is a permutation. -/

namespace Sys2Proof.Machine

/-- The signals of a permutation stand at places that differ pairwise. -/
theorem expander_ne (m : ExpanderMap) (h : m.wf) :
    (m.d7 ≠ m.d6 ∧ m.d7 ≠ m.d5 ∧ m.d7 ≠ m.d4 ∧ m.d7 ≠ m.bl ∧ m.d7 ≠ m.en ∧ m.d7 ≠ m.rw ∧ m.d7 ≠ m.rs) ∧
    (m.d6 ≠ m.d5 ∧ m.d6 ≠ m.d4 ∧ m.d6 ≠ m.bl ∧ m.d6 ≠ m.en ∧ m.d6 ≠ m.rw ∧ m.d6 ≠ m.rs) ∧
    (m.d5 ≠ m.d4 ∧ m.d5 ≠ m.bl ∧ m.d5 ≠ m.en ∧ m.d5 ≠ m.rw ∧ m.d5 ≠ m.rs) ∧
    (m.d4 ≠ m.bl ∧ m.d4 ≠ m.en ∧ m.d4 ≠ m.rw ∧ m.d4 ≠ m.rs) ∧
    (m.bl ≠ m.en ∧ m.bl ≠ m.rw ∧ m.bl ≠ m.rs) ∧ (m.en ≠ m.rw ∧ m.en ≠ m.rs) ∧ m.rw ≠ m.rs := by
  simp only [ExpanderMap.wf, List.nodup_cons, List.mem_cons, not_or, List.not_mem_nil] at h
  tauto

variable (p : Params) (bl : Bool) (n : Nibble) (en rs : Bool)

/-- The enable bit of a transfer byte. -/
theorem xferByte_en (h : p.wf) : (xferByte p bl n en rs).getLsbD p.expander.en.val = en := by
  obtain ⟨⟨_, _, _, _, h1, _, _⟩, ⟨_, _, _, h2, _, _⟩, ⟨_, _, h3, _, _⟩, ⟨_, h4, _, _⟩, ⟨h5, _, _⟩, ⟨_, h6⟩, _⟩ :=
    expander_ne p.expander h
  rw [xferByte_getLsbD _ _ _ _ _ _ (Fin.is_lt _)]
  simp [Fin.val_inj, h1.symm, h2.symm, h3.symm, h4.symm, h5.symm, h6]

/-- The register select of a transfer byte. -/
theorem xferByte_rs (h : p.wf) : (xferByte p bl n en rs).getLsbD p.expander.rs.val = rs := by
  obtain ⟨⟨_, _, _, _, _, _, h1⟩, ⟨_, _, _, _, _, h2⟩, ⟨_, _, _, _, h3⟩, ⟨_, _, _, h4⟩, ⟨_, _, h5⟩, ⟨_, h6⟩, _⟩ :=
    expander_ne p.expander h
  rw [xferByte_getLsbD _ _ _ _ _ _ (Fin.is_lt _)]
  simp [Fin.val_inj, h1.symm, h2.symm, h3.symm, h4.symm, h5.symm, h6.symm]

/-- The backlight bit of a transfer byte. -/
theorem xferByte_bl (h : p.wf) : (xferByte p bl n en rs).getLsbD p.expander.bl.val = bl := by
  obtain ⟨⟨_, _, _, h1, _, _, _⟩, ⟨_, _, h2, _, _, _⟩, ⟨_, h3, _, _, _⟩, ⟨h4, _, _, _⟩, ⟨h5, _, h6⟩, _, _⟩ :=
    expander_ne p.expander h
  rw [xferByte_getLsbD _ _ _ _ _ _ (Fin.is_lt _)]
  simp [Fin.val_inj, h1.symm, h2.symm, h3.symm, h4.symm, h5, h6]

/-- The   rw [xferByte_getLsbD _ _ _ _ _ _ (Fin.is_lt _)]
   simp bit of a transfer byte is 0. -/
theorem xferByte_rw (h : p.wf) : (xferByte p bl n en rs).getLsbD p.expander.rw.val = false := by
  obtain ⟨⟨_, _, _, _, _, h1, _⟩, ⟨_, _, _, _, h2, _⟩, ⟨_, _, _, h3, _⟩, ⟨_, _, h4, _⟩, ⟨_, h5, _⟩, ⟨h6, _⟩, h7⟩ :=
    expander_ne p.expander h
  rw [xferByte_getLsbD _ _ _ _ _ _ (Fin.is_lt _)]
  simp [Fin.val_inj, h1.symm, h2.symm, h3.symm, h4.symm, h5.symm, h6.symm, h7]

/-- A receiver reads back the nibble and the register select of a transfer byte. -/
theorem carried_xferByte (h : p.wf) : carried p.expander (xferByte p bl n en rs) = (n, rs) := by
  have hrs := xferByte_rs p bl n en rs h
  obtain ⟨⟨h1, h2, h3, h4, h5, _, h7⟩, ⟨g2, g3, g4, g5, _, g7⟩, ⟨f3, f4, f5, _, f7⟩, ⟨e4, e5, _, e7⟩, _⟩ :=
    expander_ne p.expander h
  have b7 : (xferByte p bl n en rs).getLsbD p.expander.d7.val = n.getLsbD 3 := by
    rw [xferByte_getLsbD _ _ _ _ _ _ (Fin.is_lt _)]
    simp [Fin.val_inj, h1, h2, h3, h4, h5, h7]
  have b6 : (xferByte p bl n en rs).getLsbD p.expander.d6.val = n.getLsbD 2 := by
    rw [xferByte_getLsbD _ _ _ _ _ _ (Fin.is_lt _)]
    simp [Fin.val_inj, h1.symm, g2, g3, g4, g5, g7]
  have b5 : (xferByte p bl n en rs).getLsbD p.expander.d5.val = n.getLsbD 1 := by
    rw [xferByte_getLsbD _ _ _ _ _ _ (Fin.is_lt _)]
    simp [Fin.val_inj, h2.symm, g2.symm, f3, f4, f5, f7]
  have b4 : (xferByte p bl n en rs).getLsbD p.expander.d4.val = n.getLsbD 0 := by
    rw [xferByte_getLsbD _ _ _ _ _ _ (Fin.is_lt _)]
    simp [Fin.val_inj, h3.symm, g3.symm, f3.symm, e4, e5, e7]
  have hn : ∀ n : Nibble, BitVec.ofBool (n.getLsbD 3) ++ BitVec.ofBool (n.getLsbD 2) ++
      BitVec.ofBool (n.getLsbD 1) ++ BitVec.ofBool (n.getLsbD 0) = n := by decide
  simp only [carried, hrs, b7, b6, b5, b4, hn]

end Sys2Proof.Machine
end

