-- ==== Sys2Proof/Laws/Decode.lean ====
section
/-! SUPPORT. What the decoder does, once, for proofs to cite. -/

namespace Sys2Proof

/-- The decoder accepts a command exactly when a row matches, the segments fit the row and every one of them is
within SEG_MAX (checks 1 and 2 of R53). -/
theorem decode_ok_iff (p : Params) (c : Command) (i : Instr) :
    decode p c = .ok i ↔
      ∃ op, decodeWord c.word = some op ∧ op.assemble c.word c.segs = some i ∧ i.wf p = true := by
  unfold decode
  rcases decodeWord c.word with _ | op
  · simp
  · rcases h : op.assemble c.word c.segs with _ | j
    · simp [h]
    · by_cases hw : j.wf p = true
      · simp [h, hw]
        rintro rfl
        exact hw
      · simp [h, hw]
        rintro rfl
        simpa using hw

/-- A row takes exactly the number of segments rule R45 fixes for it. -/
theorem assemble_isSome (op : Opcode) (w : OpWord) (segs : List Segment) :
    (op.assemble w segs).isSome = true ↔ segs.length = op.segments := by
  rcases segs with _ | ⟨a, _ | ⟨b, _ | ⟨c, _ | ⟨d, _ | ⟨e, r⟩⟩⟩⟩⟩ <;> cases op <;> simp [Opcode.assemble, Opcode.segments]

/-- The segments of an assembled operation are those it was given. -/
theorem assemble_segments (op : Opcode) (w : OpWord) (segs : List Segment) (i : Instr)
    (h : op.assemble w segs = some i) : i.segments = segs := by
  rcases segs with _ | ⟨a, _ | ⟨b, _ | ⟨c, _ | ⟨d, _ | ⟨e, r⟩⟩⟩⟩⟩ <;> cases op <;>
    simp [Opcode.assemble] at h <;> subst h <;> rfl

end Sys2Proof
end

