-- ==== Sys2Proof/Laws/PerInstr.lean ====
section
/-! SUPPORT. Statements made for every operation, one lemma for each constructor: the encoded op word selects the
operation's own row of the map (R52), and its payload has as many segments as rule R45 fixes for that row. -/

namespace Sys2Proof.Laws

/-- The row of the operation map that an operation is written with (R52). -/
def rowOf : Instr → Opcode
  | .fdPoll => .fdPoll
  | .fdByte _ => .fdByte
  | .fdReset => .fdReset
  | .fdXerr => .fdXerr
  | .leInit => .leInit
  | .leClear => .leClear
  | .leBlOn => .leBlOn
  | .leBlOff => .leBlOff
  | .lePrintLine _ _ => .lePrintLine
  | .lePrintLines _ _ _ _ => .lePrintLines
  | .leLoadGlyphs _ _ => .leLoadGlyphs
  | .dbSample _ => .dbSample
  | .dbRearm => .dbRearm

/-- The encoded op word selects the operation's own row, and the payload has the row's number of segments. -/
def EncodedWord.Statement (i : Instr) : Prop :=
  decodeWord (encodeWord i) = some (rowOf i) ∧ i.segments.length = (rowOf i).segments

theorem EncodedWord.fdPoll : EncodedWord.Statement .fdPoll := by constructor <;> rfl

theorem EncodedWord.fdByte (b : Byte) : EncodedWord.Statement (.fdByte b) := by
  have h : ∀ b : Byte, decodeWord (0b00000100#8 ++ b) = some .fdByte := by decide
  exact ⟨h b, rfl⟩

theorem EncodedWord.fdReset : EncodedWord.Statement .fdReset := by constructor <;> rfl

theorem EncodedWord.fdXerr : EncodedWord.Statement .fdXerr := by constructor <;> rfl

theorem EncodedWord.leInit : EncodedWord.Statement .leInit := by constructor <;> rfl

theorem EncodedWord.leClear : EncodedWord.Statement .leClear := by constructor <;> rfl

theorem EncodedWord.leBlOn : EncodedWord.Statement .leBlOn := by constructor <;> rfl

theorem EncodedWord.leBlOff : EncodedWord.Statement .leBlOff := by constructor <;> rfl

theorem EncodedWord.lePrintLine (line : BitVec 3) (text : Segment) :
    EncodedWord.Statement (.lePrintLine line text) := by
  have h : ∀ l : BitVec 3, decodeWord (0b0101000000000#13 ++ l) = some .lePrintLine := by decide
  exact ⟨h line, rfl⟩

theorem EncodedWord.lePrintLines (t1 t2 t3 t4 : Segment) :
    EncodedWord.Statement (.lePrintLines t1 t2 t3 t4) :=
  ⟨(by decide : decodeWord 0b0101010000000000#16 = some .lePrintLines), rfl⟩

theorem EncodedWord.leLoadGlyphs (n : BitVec 4) (rows : Segment) :
    EncodedWord.Statement (.leLoadGlyphs n rows) := by
  have h : ∀ n : BitVec 4, decodeWord (0b010110000000#12 ++ n) = some .leLoadGlyphs := by decide
  exact ⟨h n, rfl⟩

theorem EncodedWord.dbSample (button : BitVec 2) : EncodedWord.Statement (.dbSample button) := by
  have h : ∀ s : BitVec 2, decodeWord (0b10000000000000#14 ++ s) = some .dbSample := by decide
  exact ⟨h button, rfl⟩

theorem EncodedWord.dbRearm : EncodedWord.Statement .dbRearm :=
  ⟨(by decide : decodeWord 0b1000010000000000#16 = some .dbRearm), rfl⟩

end Sys2Proof.Laws
end

