-- ==== Sys2Proof/Laws/Ports.lean ====
section
/-! SUPPORT. What the command side of the ports can do in a cycle, case by case. -/

namespace Sys2Proof.Machine

variable (x : PortIn) (q : PortState)

@[simp] theorem idle_busy (s : State) : (PortState.idle s).busy = false := rfl
@[simp] theorem idle_cmdReady (s : State) : (PortState.idle s).cmdReady = true := rfl
@[simp] theorem idle_segReady (s : State) : (PortState.idle s).segReady = true := rfl

/-- While bus items or command events are still to be presented, the command side takes nothing. -/
theorem commandSide_of_busy (hs : q.sampling = none) (hb : q.busy = true) :
    commandSide x q = CmdSide.hold q := by
  simp [commandSide, hs, hb]

/-- A busy block does not read what the command and segment ports present. -/
theorem commandSide_ignores_ports (hb : q.busy = true) (cv sv sl : Bool) (w : OpWord) (b : Byte) :
    commandSide { x with cmdValid := cv, cmdWord := w, segValid := sv, segByte := b, segLast := sl } q =
      commandSide x q := by
  unfold commandSide
  cases hs : q.sampling with
  | none => simp [hb]
  | some m => rfl

/-- A block that is not busy has no sample in progress. -/
theorem sampling_of_not_busy (hb : q.busy = false) : q.sampling = none := by
  simpa [PortState.busy] using (Bool.or_eq_false_iff.mp hb).2

/-- With no word presented or waiting, the segment byte is taken and nothing else. -/
theorem commandSide_of_no_word (hb : q.busy = false) (hw : currentWord x q = none) :
    commandSide x q = { CmdSide.hold q with segBytes := takenBytes x q } := by
  simp [commandSide, sampling_of_not_busy q hb, hb, hw]

/-- A word presented or waiting is offered with the payload bytes taken. -/
theorem commandSide_of_word (hb : q.busy = false) (w : OpWord) (hw : currentWord x q = some w) :
    commandSide x q = offerWord x q w (takenBytes x q) := by
  simp [commandSide, sampling_of_not_busy q hb, hb, hw]

variable (w : OpWord) (bytes : List (Byte × Bool))

/-- A word whose segments are not all finished waits for them. -/
theorem offerWord_waits (h : (collectSegments bytes).1.length < payloadCount w) :
    offerWord x q w bytes =
      { accepted := none, pins := [], waiting := some w, segBytes := bytes, sampling := none } := by
  simp [offerWord, h]

/-- A word whose segments are all finished is accepted with them, unless it starts a sample. -/
theorem offerWord_accepts (h : payloadCount w ≤ (collectSegments bytes).1.length)
    (hs : startSample q.block.params x { word := w, segs := (collectSegments bytes).1 } = none) :
    offerWord x q w bytes =
      { accepted := some { word := w, segs := (collectSegments bytes).1 }, pins := [], waiting := none,
        segBytes := (collectSegments bytes).2.map (fun b => (b, false)), sampling := none } := by
  simp [offerWord, Nat.not_lt.mpr h, hs]

/-- An offered word either waits, or starts a sample, or is accepted. -/
theorem offerWord_cases :
    (offerWord x q w bytes).waiting = some w ∧ (offerWord x q w bytes).accepted = none ∨
    (offerWord x q w bytes).waiting = none ∧
      ((∃ m, (offerWord x q w bytes).sampling = some m ∧ (offerWord x q w bytes).accepted = none) ∨
        (offerWord x q w bytes).sampling = none ∧
          (offerWord x q w bytes).accepted = some { word := w, segs := (collectSegments bytes).1 }) := by
  simp only [offerWord]
  split
  · exact .inl ⟨rfl, rfl⟩
  · split
    · exact .inr ⟨rfl, .inl ⟨_, rfl, rfl⟩⟩
    · exact .inr ⟨rfl, .inr ⟨rfl, rfl⟩⟩

/-- The segments finished are not unfinished by a further byte. -/
theorem collectSegments_append_length (more : List (Byte × Bool)) :
    (collectSegments bytes).1.length ≤ (collectSegments (bytes ++ more)).1.length := by
  have grow : ∀ b : Byte × Bool, ∀ r : List (Byte × Bool),
      (collectSegments (b :: r)).1.length = (if b.2 then 1 else 0) + (collectSegments r).1.length := by
    rintro ⟨b, last⟩ r
    simp only [collectSegments]
    cases last
    · cases hr : (collectSegments r).1 <;> simp
    · simp [Nat.add_comm]
  induction bytes with
  | nil => simp [collectSegments]
  | cons b r ih => simpa only [List.cons_append, grow] using Nat.add_le_add_left ih _

end Sys2Proof.Machine
end

