-- ==== Sys2Proof/Laws/Text.lean ====
section
/-! SUPPORT. `EscapeParse` without its fuel: any fuel that is at least the length of the text gives the same
codes, so that the equations of rule R74 can be read off. -/

namespace Sys2Proof.Machine

/-- One token of `EscapeParse`, with the rest of the text parsed by `rest` (R74). -/
def escapeStep (c : Byte) (r : List Byte) (rest : List Byte → List Byte) : List Byte :=
  if c ≠ ampersand then c :: rest r
  else if r.head? = some ampersand then ampersand :: rest r.tail
  else if 1 ≤ (r.takeWhile isDigit).length ∧ r[(r.takeWhile isDigit).length]? = some ampersand ∧
      decimalValue (r.takeWhile isDigit) ≤ 255 then
    BitVec.ofNat 8 (decimalValue (r.takeWhile isDigit)) :: rest (r.drop ((r.takeWhile isDigit).length + 1))
  else ampersand :: rest r

theorem escapeParseFuel_succ_cons (fuel : Nat) (c : Byte) (r : List Byte) :
    escapeParseFuel (fuel + 1) (c :: r) = escapeStep c r (escapeParseFuel fuel) := rfl

/-- A token uses up at least one byte: the rest is parsed on texts no longer than what follows the first byte. -/
theorem escapeStep_congr (c : Byte) (r : List Byte) (f g : List Byte → List Byte)
    (h : ∀ t : List Byte, t.length ≤ r.length → f t = g t) : escapeStep c r f = escapeStep c r g := by
  have h1 : f r = g r := h r (Nat.le_refl _)
  have h2 : f r.tail = g r.tail := h _ (by simp)
  have h3 : ∀ k, f (r.drop k) = g (r.drop k) := fun k => h _ (by simp)
  simp only [escapeStep, h1, h2, h3]

theorem escapeParseFuel_enough (n : Nat) :
    ∀ (m : Nat) (t : List Byte), t.length ≤ n → t.length ≤ m → escapeParseFuel n t = escapeParseFuel m t := by
  induction n with
  | zero =>
    intro m t hn _
    have : t = [] := List.eq_nil_of_length_eq_zero (by omega)
    subst this
    cases m <;> rfl
  | succ n ih =>
    intro m t hn hm
    cases t with
    | nil => cases m <;> rfl
    | cons c r =>
      obtain ⟨k, rfl⟩ : ∃ k, m = k + 1 := ⟨m - 1, by simp at hm; omega⟩
      rw [escapeParseFuel_succ_cons, escapeParseFuel_succ_cons]
      refine escapeStep_congr c r _ _ (fun t ht => ih k t ?_ ?_) <;> simp at hn hm <;> omega

/-- `EscapeParse` of a text with a first byte, in one equation without fuel (R74). -/
theorem escapeParse_cons (c : Byte) (r : List Byte) : escapeParse (c :: r) = escapeStep c r escapeParse := by
  show escapeParseFuel (r.length + 1) (c :: r) = _
  rw [escapeParseFuel_succ_cons]
  exact escapeStep_congr c r _ _ (fun t ht => escapeParseFuel_enough _ _ t ht (Nat.le_refl _))

@[simp] theorem escapeParse_nil : escapeParse [] = [] := rfl

end Sys2Proof.Machine
end

