-- ==== Sys2Proof/Tests/Slice0.lean ====
section
/-! SUPPORT. The model's own tests. Expected values are the spec's: the source of each is named. -/

namespace Sys2Proof.Tests

open Sys2Proof Sys2Proof.Machine

/-! ## Well-formedness: an ill-formed term for each check -/

/-- A segment of SEG_MAX + 1 bytes, at a SEG_MAX of 2. -/
def smallSegs : Params := { Params.standard with segMax := 2 }

theorem test_wf_refuses_long_text : (Instr.lePrintLine 1 [1, 2, 3]).wf smallSegs = false := by decide
theorem test_wf_refuses_long_second_line : (Instr.lePrintLines [] [1, 2, 3] [] []).wf smallSegs = false := by decide
theorem test_wf_refuses_long_rows : (Instr.leLoadGlyphs 1 [1, 2, 3]).wf smallSegs = false := by decide
theorem test_wf_accepts_segMax_bytes : (Instr.lePrintLine 1 [1, 2]).wf smallSegs = true := by decide
theorem test_legal_refuses_line_0 : (Instr.lePrintLine 0 []).legal .standard = false := by decide
theorem test_legal_refuses_line_5 : (Instr.lePrintLine 5 []).legal .standard = false := by decide
theorem test_legal_accepts_line_4 : (Instr.lePrintLine 4 []).legal .standard = true := by decide
theorem test_legal_refuses_glyph_count_0 : (Instr.leLoadGlyphs 0 []).legal .standard = false := by decide
theorem test_legal_refuses_glyph_count_5 :
    (Instr.leLoadGlyphs 5 (List.replicate 40 0)).legal .standard = false := by decide
theorem test_legal_refuses_glyph_length : (Instr.leLoadGlyphs 2 (List.replicate 8 0)).legal .standard = false := by
  decide
theorem test_legal_refuses_button_3 : (Instr.dbSample 3).legal .standard = false := by decide
theorem test_standard_params_wf : Params.standard.wf := by decide
theorem test_colliding_expander_not_wf :
    ¬ ({ Params.standard with expander := { ExpanderMap.standard with rs := 1 } }).wf := by decide

/-! ## Decoding: a word of every row, bit by bit from the encodings of R52 -/

theorem test_decode_fdPoll : decode .standard ⟨0b0000000000000000, []⟩ = .ok .fdPoll := by decide
theorem test_decode_fdByte : decode .standard ⟨0b0000010011000101, []⟩ = .ok (.fdByte 0b11000101) := by decide
theorem test_decode_fdReset : decode .standard ⟨0b0000100000000000, []⟩ = .ok .fdReset := by decide
theorem test_decode_fdXerr : decode .standard ⟨0b0000110000000000, []⟩ = .ok .fdXerr := by decide
theorem test_decode_leInit : decode .standard ⟨0b0100000000000000, []⟩ = .ok .leInit := by decide
theorem test_decode_leClear : decode .standard ⟨0b0100010000000000, []⟩ = .ok .leClear := by decide
theorem test_decode_leBlOn : decode .standard ⟨0b0100100000000000, []⟩ = .ok .leBlOn := by decide
theorem test_decode_leBlOff : decode .standard ⟨0b0100110000000000, []⟩ = .ok .leBlOff := by decide
theorem test_decode_lePrintLine :
    decode .standard ⟨0b0101000000000011, [[0x41]]⟩ = .ok (.lePrintLine 3 [0x41]) := by decide
theorem test_decode_lePrintLines :
    decode .standard ⟨0b0101010000000000, [[1], [2], [3], [4]]⟩ = .ok (.lePrintLines [1] [2] [3] [4]) := by decide
theorem test_decode_leLoadGlyphs :
    decode .standard ⟨0b0101100000001010, [[7]]⟩ = .ok (.leLoadGlyphs 10 [7]) := by decide
theorem test_decode_dbSample : decode .standard ⟨0b1000000000000010, []⟩ = .ok (.dbSample 2) := by decide
theorem test_decode_dbRearm : decode .standard ⟨0b1000010000000000, []⟩ = .ok .dbRearm := by decide

/-- T-ENC-04, T-ENC-05, T-ENC-06, T-ENC-08, T-ENC-10, T-ENC-01: reserved words. -/
theorem test_decode_rejects_reserved :
    [0x0300, 0x4001, 0x5008, 0x8004, 0x8403, 0xC000].all
      (fun w : OpWord => decide (decode .standard ⟨w, []⟩ = .error (.illegalOp w))) = true := by decide

/-- T-ENC-11 to T-ENC-14: payload shapes. -/
theorem test_decode_rejects_shapes :
    decode .standard ⟨0x4000, [[0]]⟩ = .error (.payloadShape 0x4000) ∧
    decode .standard ⟨0x5001, []⟩ = .error (.payloadShape 0x5001) ∧
    decode .standard ⟨0x5001, [[0], [0]]⟩ = .error (.payloadShape 0x5001) ∧
    decode .standard ⟨0x5400, [[0], [0], [0]]⟩ = .error (.payloadShape 0x5400) := by decide

theorem test_decodeTableWord : decodeTableWord 16 0x5801 = some (.leLoadGlyphs 1 (List.replicate 8 0)) := by decide

/-! ## Meanings: one step each -/

/-- What is left of an outcome: a projection of its next state. -/
def after {α : Type} (f : State → α) (o : Host.Outcome State Fault Refusal) : Option α :=
  match o with
  | .next t => some (f t)
  | .fault _ => none
  | .refused _ => none

/-- Reset with other FD registers. -/
def withFd (fd : FdState) : State := { State.reset with fd := fd }

/-- The twelve digits of the frame of T-FD-01, at index 13. -/
def fullDigits : FdState := { FdState.initial with idx := 13, dig := #v[0, 0, 0, 0, 1, 2, 0xD, 6, 8, 7, 4, 3] }

/-- A decoded tag: the FD after T-FD-01. -/
def decoded : FdState :=
  { FdState.initial with mode := .done, tag := 0x12D687, payload := 0x000012D687, cks := 0x43 }

/-- Index 5, as in T-FD-22 and T-FD-17. -/
def atFive : FdState := { FdState.initial with idx := 5 }

/-- T-FD-22. -/
theorem test_fdPoll : after (fun t => (t.events, fdStat t.fd)) (exec .fdPoll (withFd atFive)) = some ([], 0x0A) := by
  decide
/-- T-FD-01, byte 13. -/
theorem test_fdByte_completes :
    after (fun t => (t.events, t.fd)) (exec (.fdByte 0x03) (withFd fullDigits)) =
      some ([.fdTagOk 0x12D687 0x000012D687], decoded) := by decide
/-- T-FD-27. -/
theorem test_fdByte_start_at_13 :
    after (fun t => (t.events, fdStat t.fd)) (exec (.fdByte 0x02) (withFd fullDigits)) =
      some ([.frameError .badEnd 13 0x02], 0x02) := by decide
/-- T-FD-23. -/
theorem test_fdReset : after (fun t => (t.events, t.fd)) (exec .fdReset (withFd decoded)) = some ([], .initial) := by
  decide
/-- T-FD-24. -/
theorem test_fdXerr :
    after (fun t => (t.events, fdStat t.fd)) (exec .fdXerr (withFd { FdState.initial with idx := 7 })) =
      some ([.fdTransportError], 0x00) := by decide
/-- T-LE-10: the 24 transfers of LE_INIT. -/
theorem test_leInit :
    after (fun t => transferBytes t.le.log) (exec .leInit .reset) =
      some [0x3C, 0x38, 0x3C, 0x38, 0x3C, 0x38, 0x2C, 0x28, 0x2C, 0x28, 0x8C, 0x88, 0x0C, 0x08, 0xCC, 0xC8,
        0x0C, 0x08, 0x1C, 0x18, 0x0C, 0x08, 0x6C, 0x68] := by decide
/-- T-LE-07. -/
theorem test_leClear :
    after (fun t => t.le.log) (exec .leClear .reset) =
      some [.xfer 0x0C, .wait .enHigh, .xfer 0x08, .wait .enLow, .xfer 0x1C, .wait .enHigh, .xfer 0x18,
        .wait .enLow, .wait .clear] := by decide
/-- T-LE-23. -/
theorem test_leBlOn :
    after (fun t => (t.le.log, leStat t.le)) (exec .leBlOn { State.reset with le := ⟨false, 0, []⟩ }) =
      some ([.xfer 0x08], 0x01) := by decide
/-- T-LE-23, first half. -/
theorem test_leBlOff : after (fun t => (t.le.log, leStat t.le)) (exec .leBlOff .reset) = some ([.xfer 0x00], 0x00) := by
  decide
/-- T-LE-11: "Hi&1&" on line 1. -/
theorem test_lePrintLine :
    after (fun t => transferBytes t.le.log) (exec (.lePrintLine 1 [0x48, 0x69, 0x26, 0x31, 0x26]) .reset) =
      some [0x8C, 0x88, 0x0C, 0x08, 0x4D, 0x49, 0x8D, 0x89, 0x6D, 0x69, 0x9D, 0x99, 0x0D, 0x09, 0x1D, 0x19] := by
  decide
/-- T-LE-16 with COLS = 2: one code more than the columns. -/
theorem test_lePrintLine_truncates :
    after (fun t => (t.events, (transferBytes t.le.log).length))
      (exec (.lePrintLine 1 [0x58, 0x58, 0x58]) (.resetWith { Params.standard with cols := 2 })) =
      some ([.leTruncated 1 1], 12) := by decide
/-- T-LE-19. -/
theorem test_lePrintLines :
    after (fun t => transferBytes t.le.log) (exec (.lePrintLines [0x41] [] [] []) .reset) =
      some [0x8C, 0x88, 0x0C, 0x08, 0x4D, 0x49, 0x1D, 0x19, 0xCC, 0xC8, 0x0C, 0x08, 0x9C, 0x98, 0x4C, 0x48,
        0xDC, 0xD8, 0x4C, 0x48] := by decide
/-- T-LE-21: the first eight transfers, and LE_STAT. -/
theorem test_leLoadGlyphs :
    after (fun t => ((transferBytes t.le.log).take 8, (transferBytes t.le.log).length, leStat t.le))
      (exec (.leLoadGlyphs 1 [0x02, 0x04, 0x08, 0x1F, 0x08, 0x04, 0x02, 0x00]) .reset) =
      some ([0x4C, 0x48, 0x0C, 0x08, 0x0D, 0x09, 0x2D, 0x29], 36, 0x03) := by decide
/-- T-ENC-21 and T-ENC-22: the count is checked before the length. -/
theorem test_leLoadGlyphs_refusals :
    after State.events (exec (.leLoadGlyphs 15 [0, 0, 0]) .reset) = some [.leBadGlyphCount 15] ∧
    after State.events (exec (.leLoadGlyphs 2 (List.replicate 8 0)) .reset) = some [.leGlyphLength 2 8] := by decide
/-- T-DB-04. -/
theorem test_dbSample_press :
    after (fun t => (t.events, dbStat t.db)) (exec (.dbSample 0) { State.reset with pins := [false, false] }) =
      some ([.dbPressed .left], 0x11) := by decide
/-- T-DB-14: no draw is made. -/
theorem test_dbSample_bad_button :
    after (fun t => (t.events, t.pins, t.drawCount)) (exec (.dbSample 3) { State.reset with pins := [false] }) =
      some ([.dbBadButton 3], [false], 0) := by decide
/-- T-DB-09. -/
theorem test_dbRearm :
    after (fun t => (t.events, dbStat t.db))
      (exec .dbRearm { State.reset with db := ⟨⟨true, false, false⟩, ⟨true, false, false⟩⟩ }) =
      some ([], 0x01) := by decide

/-! ## Functions -/

/-- T-LE-03: the set-up write. -/
theorem test_sendCmd_setup :
    sendCmd { Params.standard with nibbleSetupWrite := true } true 0x80 =
      [.xfer 0x88, .xfer 0x8C, .wait .enHigh, .xfer 0x88, .wait .enLow,
        .xfer 0x08, .xfer 0x0C, .wait .enHigh, .xfer 0x08, .wait .enLow] := by decide

/-- T-LE-24: some texts and their codes. -/
theorem test_escapeParse :
    escapeParse [0x26, 0x26, 0x26, 0x31, 0x26] = [0x26, 0x01] ∧
    escapeParse [0x26, 0x32, 0x35, 0x36, 0x26] = [0x26, 0x32, 0x35, 0x36, 0x26] ∧
    escapeParse [0x26, 0x32, 0x35, 0x35, 0x26] = [0xFF] ∧
    escapeParse [0x26, 0x31, 0x26, 0x32, 0x26] = [0x01, 0x32, 0x26] := by decide

/-- T-FD-04: the TagID of 0xFFFFFF in both formats. -/
theorem test_tagIdString :
    tagIdString .prefixed 0xFFFFFF = [0x30, 0x30, 0x30, 0x31, 0x36, 0x37, 0x37, 0x37, 0x32, 0x31, 0x35] ∧
    tagIdString .zpad10 0xFFFFFF = [0x30, 0x30, 0x31, 0x36, 0x37, 0x37, 0x37, 0x32, 0x31, 0x35] := by decide

/-- R57: a line of assembly with a comment, and one with an escape in its text. -/
theorem test_assembleLine :
    assembleLine "fd.byte 0x41 ; noise".toList = some [⟨0x0441, []⟩] ∧
    assembleLine "le.print_line 1, \"a\\x00\"".toList = some [⟨0x5001, [[0x61, 0x00]]⟩] := by decide

/-- P4 of 95_test_vectors.md: bare bytes are hexadecimal, so 44 is the op word 0444. -/
theorem test_assemble_bytes :
    assembleLine "fd.bytes 02,30,44 ; bad".toList = some [⟨0x0402, []⟩, ⟨0x0430, []⟩, ⟨0x0444, []⟩] := by decide

/-- R45, R56: three bytes of the segment port, the second flagged last. -/
theorem test_collectSegments :
    collectSegments [(1, false), (2, true), (3, false)] = ([[1, 2]], [3]) := by decide

/-- R56: a START_CODE in the cycle of an FD_RESET begins a frame. -/
theorem test_cycle_reset_before_byte :
    (match runCycle ⟨false, true, 0x02, false, some ⟨0x0800, []⟩⟩ (withFd decoded) with
      | .next out => fdStat out.state.fd
      | _ => 0xFF) = 0x02 := by decide

/-- R56, R85: a sample of L accepted in one cycle reads its pin there and again after the settle interval. -/
theorem test_port_sample :
    (match portCycle ⟨false, false, 0, false, true, 0x8000, false, 0, false, true, false, true, true, 0⟩
        (.idle .reset) with
      | .next (q, _) =>
        match portCycle ⟨false, false, 0, false, false, 0, false, 0, false, true, false, true, true, 0⟩ q with
        | .next (r, o) => (r.block.db.level.left, r.eventQueue, o.cmdReady)
        | _ => (false, [], true)
      | _ => (false, [], true)) = (true, [.dbPressed .left], false) := by decide

/-- R56: a commanded FD_XERR clears the FD before the byte of its cycle and reports on the command event port. -/
theorem test_cycle_commanded_xerr :
    (match runCycle ⟨false, true, 0x41, false, some ⟨0x0C00, []⟩⟩ (withFd decoded) with
      | .next out => (fdStat out.state.fd, out.fdEvents, out.cmdEvents)
      | _ => (0xFF, [], [])) = (0x00, [.frameError .badStart 0 0x41], [.fdTransportError]) := by decide

/-- R122: polls may stand beside the teardown pair, another operation of the LE may not. -/
theorem test_endsInTeardown :
    endsInTeardown [.leInit, .leClear, .fdPoll, .leBlOff, .dbRearm] = true ∧
    endsInTeardown [.leClear, .leBlOff, .leInit] = false := by decide

/-- R116: a glyph once loaded stays loaded after a smaller load, and one never loaded does not count. -/
theorem test_glyphsBeforeUse :
    glyphsBeforeUse .standard 0 [.leLoadGlyphs 3 (List.replicate 24 0), .leLoadGlyphs 1 (List.replicate 8 0),
      .lePrintLine 1 [0x26, 0x32, 0x26]] = true ∧
    glyphsBeforeUse .standard 0 [.leLoadGlyphs 1 (List.replicate 8 0), .lePrintLine 1 [0x26, 0x32, 0x26]] =
      false := by decide

/-- R55, R56: the segment of an LE_PRINT_LINE follows its word, and the operation is accepted at its last byte. -/
theorem test_port_segment_follows :
    (match portRun
        [⟨false, false, 0, false, true, 0x5001, false, 0, false, false, true, true, true, 0⟩,
          ⟨false, false, 0, false, false, 0, false, 0, false, false, true, true, true, 0⟩,
          ⟨false, false, 0, false, false, 0, true, 0x48, true, false, true, true, true, 0⟩] (.idle .reset) with
      | .next q => (q.waiting, q.block.le.log.length, q.eventQueue, q.busQueue == q.block.le.log)
      | _ => (none, 0, [], false)) = (none, 16, [], true) := by decide

/-- The host's fetch place: an op word placed there is the operation the next step runs. -/
theorem test_withFetchWord :
    after (fun t => t.events) (step (State.reset.withFetchWord 16 0x0401)) = some [.frameError .badStart 0 0x01] := by
  decide

/-! ## Witnesses: for every obligation with hypotheses, a state and operands that meet them all -/

/-- The frame of T-FD-01. -/
def frame01 : List Byte := [0x02, 0x30, 0x30, 0x30, 0x30, 0x31, 0x32, 0x44, 0x36, 0x38, 0x37, 0x34, 0x33, 0x03]

/-- T-FD-15: the same frame with the checksum "44". -/
def badFrame : List Byte := [0x02, 0x30, 0x30, 0x30, 0x30, 0x31, 0x32, 0x44, 0x36, 0x38, 0x37, 0x34, 0x34, 0x03]

/-- A stream with this as its next element. -/
def presented (i : Input) : State := { State.reset with input := [i] }

theorem witness_EncodedOperationDecodesBack : (Instr.lePrintLine 7 [0x00, 0xFF]).wf .standard = true := by decide
theorem witness_DecodedCommandEncodesBack : decode .standard ⟨0x580F, [[1]]⟩ = .ok (.leLoadGlyphs 15 [1]) := by decide
theorem witness_RowsAreDisjoint :
    (⟨.lePrintLine, 0x5000, 0xFFF8⟩ : OpRow) ∈ opMap ∧
      (⟨.lePrintLine, 0x5000, 0xFFF8⟩ : OpRow).selects 0x5007 = true := by decide
theorem witness_ReservedWords_U11 :
    (presented (.op ⟨0xC123, []⟩)).input = .op ⟨0xC123, []⟩ :: [] ∧ reservedWord 0xC123 = true := by decide
theorem witness_ReservedWords_boundaries :
    reservedWord 0x04FF = false ∧ reservedWord 0x0500 = true ∧ reservedWord 0x5007 = false ∧
      reservedWord 0x5008 = true ∧ reservedWord 0x580F = false ∧ reservedWord 0x5810 = true ∧
      reservedWord 0x8003 = false ∧ reservedWord 0x8004 = true ∧ reservedWord 0x1000 = true ∧
      reservedWord 0x5C00 = true ∧ reservedWord 0x8800 = true := by decide
theorem witness_MalformedPayload_count :
    (presented (.op ⟨0x5400, [[], [], []]⟩)).input = .op ⟨0x5400, [[], [], []]⟩ :: [] ∧
      decodeWord 0x5400 = some .lePrintLines ∧ ([[], [], []] : List Segment).length ≠ 4 := by decide
theorem witness_MalformedPayload_length :
    ({ State.resetWith smallSegs with input := [.op ⟨0x5001, [[1, 2, 3]]⟩] }).input =
        .op ⟨0x5001, [[1, 2, 3]]⟩ :: [] ∧
      decodeWord 0x5001 = some .lePrintLine ∧
      ∃ t ∈ ([[1, 2, 3]] : List Segment), (State.resetWith smallSegs).params.segMax.toNat < t.length := by decide
theorem witness_StepRuns :
    (presented (.op ⟨0x0800, []⟩)).input = .op ⟨0x0800, []⟩ :: [] ∧
      decode (presented (.op ⟨0x0800, []⟩)).params ⟨0x0800, []⟩ = .ok .fdReset ∧ State.reset.input = [] := by decide
theorem witness_EveryOperationCompletes : Instr.fdPoll.unit ≠ .db ∧ Instr.leInit.unit ≠ .db := by decide
theorem witness_Refused_operation :
    after (fun t => (t.events, t.events.map eventKind)) (exec (.lePrintLine 7 []) .reset) =
      some ([.leBadLine 7], [.refusal]) := by decide
theorem witness_Refused_command :
    (presented (.op ⟨0xC000, []⟩)).input = .op ⟨0xC000, []⟩ :: [] ∧
      decode (presented (.op ⟨0xC000, []⟩)).params ⟨0xC000, []⟩ = .error (.illegalOp 0xC000) := by decide
theorem witness_ResetStep :
    (presented .blockReset).input = .blockReset :: [] ∧ ({ Params.standard with prevInit := true }).prevInit = true := by
  decide
theorem witness_FrameErrorOccurs :
    after State.events (exec (.fdByte 0x0D) (withFd atFive)) = some [.frameError .badHex 5 0x0D] := by decide
theorem witness_FrameErrorThenIndex0 :
    after (fun t => t.fd.idx) (exec (.fdByte 0x0D) (withFd atFive)) = some 0 := by decide
theorem witness_FdReset_idle : FdState.initial.Inv ∧ FdState.initial.mode = .acc ∧ FdState.initial.idx = 0 := by decide
theorem witness_FdByte_done : (withFd decoded).fd.mode = .done := by decide
theorem witness_FdByte_index0 : State.reset.fd.mode = .acc ∧ State.reset.fd.idx = 0 := by decide
theorem witness_FdByte_index1 :
    (withFd { FdState.initial with idx := 1 }).fd.mode = .acc ∧
      (withFd { FdState.initial with idx := 1 }).fd.idx.toNat = (0 : Fin 12).val + 1 := by decide
theorem witness_FdByte_index12 :
    (withFd { FdState.initial with idx := 12 }).fd.mode = .acc ∧
      (withFd { FdState.initial with idx := 12 }).fd.idx.toNat = (11 : Fin 12).val + 1 := by decide
theorem witness_FdByte_index13 : (withFd fullDigits).fd.mode = .acc ∧ (withFd fullDigits).fd.idx = 13 := by decide
theorem witness_HexDigits_boundaries :
    (0x30 ≤ (0x39 : Byte).toNat ∧ (0x39 : Byte).toNat ≤ 0x39) ∧
    (0x41 ≤ (0x46 : Byte).toNat ∧ (0x46 : Byte).toNat ≤ 0x46) ∧
    (0x61 ≤ (0x66 : Byte).toNat ∧ (0x66 : Byte).toNat ≤ 0x66) := by decide
theorem witness_FdResynchronises :
    State.reset.fd.mode = .acc ∧ validFrame State.reset.params frame01 = true ∧
      (([0x41, 0x02] ++ frame01).map Instr.fdByte).all isReceive = true ∧
      [Instr.fdPoll, .fdByte 0x02].all isReceive = true ∧
      bytesOf (([0x41, 0x02] ++ frame01).map Instr.fdByte) = [0x41, 0x02] ++ frame01 ∧
      bytesOf [Instr.fdPoll, .fdByte 0x02] = [0x02] := by decide
theorem witness_FdRecovers :
    State.reset.fd.mode = .acc ∧ State.reset.fd.idx = 0 ∧ faultyFrame State.reset.params badFrame = true ∧
      validFrame State.reset.params frame01 = true := by decide
theorem witness_AtMostOneTag :
    Instr.fdReset ∉ [Instr.fdByte 0x02, .fdPoll, .leInit] ∧ Instr.fdXerr ∉ [Instr.fdByte 0x02, .fdPoll, .leInit] ∧
      (withFd decoded).fd.mode = .done ∧ tagOkCount [.fdByte 0x03] (withFd fullDigits) = 1 := by decide
theorem witness_ResetInv : Params.standard.wf ∧ State.reset.Inv := by decide
theorem witness_StepKeepsInv :
    (presented (.op ⟨0x4C00, []⟩)).Inv ∧
      after (fun t => t.le.bl) (step (presented (.op ⟨0x4C00, []⟩))) = some false := by decide
theorem witness_StepKeepsInv_done : (withFd decoded).Inv := by decide
theorem witness_StepKeepsInv_full : (withFd fullDigits).Inv := by decide
theorem witness_OwnUnit :
    after (fun t => t.fd.idx) (exec (.fdByte 0x02) .reset) = some 1 ∧ (Instr.fdByte 0x02).unit ≠ .le ∧
      (Instr.fdByte 0x02).unit ≠ .db ∧ Instr.leClear.unit ≠ .fd := by decide
theorem witness_OwnUnit_agree :
    State.reset.params = (withFd decoded).params ∧ State.reset.le = (withFd decoded).le ∧
      State.reset.db = (withFd decoded).db ∧ State.reset.pins = (withFd decoded).pins ∧
      State.reset.drawCount = (withFd decoded).drawCount ∧ State.reset.fd = (presented .blockReset).fd ∧
      State.reset ≠ withFd decoded := by decide
theorem witness_Commute : (Instr.fdByte 0x02).unit ≠ Instr.leBlOff.unit := by decide
theorem witness_BusLog :
    Instr.fdPoll.unit ≠ .le ∧ (runOps [.leClear] State.reset).isSome = true := by decide
theorem witness_StandardMap : State.reset.params.expander = .standard := by decide
theorem witness_Escape_digits :
    ([0x32, 0x35, 0x35] : List Byte) ≠ [] ∧ ([0x32, 0x35, 0x35] : List Byte).all isDigit = true ∧
      decimalValue [0x32, 0x35, 0x35] ≤ 255 ∧ (0x41 : Byte) ≠ 0x26 := by decide
/-- "&256&": the digits before the second ampersand have a value above 255, and no other prefix ends in one. -/
theorem witness_Escape_lone :
    ([0x32, 0x35, 0x36, 0x26] : List Byte).head? ≠ some 0x26 ∧ 255 < decimalValue [0x32, 0x35, 0x36] ∧
      escapeParse [0x26, 0x32, 0x35, 0x36, 0x26] = 0x26 :: escapeParse [0x32, 0x35, 0x36, 0x26] := by decide
theorem witness_PrintLine_lines :
    ((1 : BitVec 3) = 1 ∧ (0x00 : BitVec 7) = State.reset.params.lineAddrs.line1) ∧
      ((4 : BitVec 3) = 4 ∧ (0x54 : BitVec 7) = State.reset.params.lineAddrs.line4) := by decide
theorem witness_PrintLines : ([[0x41], [], [], []] : List Segment).all (segmentOk State.reset.params) = true := by
  decide
theorem witness_LoadGlyphs_counts :
    (0 : BitVec 4).toNat < 1 ∧ State.reset.params.maxGlyphs.toNat < (5 : BitVec 4).toNat ∧
      1 ≤ (4 : BitVec 4).toNat ∧ (4 : BitVec 4).toNat ≤ State.reset.params.maxGlyphs.toNat ∧
      (List.replicate 32 (0 : Byte)).length = 8 * (4 : BitVec 4).toNat ∧
      (List.replicate 31 (0 : Byte)).length ≠ 8 * (4 : BitVec 4).toNat := by decide
theorem witness_Display :
    State.reset.params.wf ∧ (Instr.lePrintLine 4 [0x41]).legal State.reset.params = true ∧
      ({ Params.standard with nibbleSetupWrite := true }).wf := by decide
theorem witness_Backlight :
    after (fun t => t.le.bl) (exec .leBlOff .reset) = some false ∧
      after (fun t => t.le.bl) (exec .leBlOn .reset) = some true ∧
      Instr.leBlOn ∉ [Instr.leClear, .leBlOff] ∧ Instr.leBlOff ∉ [Instr.leClear, .leBlOn] := by decide
theorem witness_RenderedLine : Params.standard.wf ∧ Params.standard.nibbleSetupWrite = false ∧ Params.standard.cols = 20 := by
  decide
theorem witness_Truncation :
    decode { Params.standard with cols := 2 } ⟨0x5001, [[1, 2, 3]]⟩ = .ok (.lePrintLine 1 [1, 2, 3]) ∧
      after State.events (exec (.lePrintLine 1 [1, 2, 3]) (.resetWith { Params.standard with cols := 2 })) =
        some [.leTruncated 1 1] := by decide
theorem witness_GlyphLength :
    decode .standard ⟨0x5801, [[1]]⟩ = .ok (.leLoadGlyphs 1 [1]) ∧
      after State.events (exec (.leLoadGlyphs 1 [1]) .reset) = some [.leGlyphLength 1 1] := by decide
theorem witness_Samples :
    buttonOf 2 = some .right ∧ ({ State.reset with pins := [false, true, false] }).pins = false :: true :: [false] ∧
      ({ State.reset with pins := [false, false] }).pins = false :: false :: [] := by decide
theorem witness_HeldButton :
    ({ State.reset with pins := [false, false, false, false, true] }).pins = List.replicate (2 * 2) false ++ [true] ∧
      ({ State.reset with pins := [false, false, false, true, false, false] }).pins =
        false :: false :: false :: true :: false :: false :: [] := by decide
theorem witness_Rearm :
    Instr.dbSample 0 ≠ .dbRearm ∧
      ({ State.reset with db := ⟨.all true, ⟨false, true, false⟩⟩ }).db.prev.get .middle =
        ({ State.reset with db := ⟨.all true, ⟨false, true, false⟩⟩ }).db.level.get .middle ∧
      ({ State.reset with db := ⟨.all true, ⟨false, true, false⟩⟩ }).db.prev ≠
        ({ State.reset with db := ⟨.all true, ⟨false, true, false⟩⟩ }).db.level ∧
      (State.resetWith { Params.standard with prevInit := true }).params.prevInit = true := by decide
theorem witness_EventCounts : (235 : Nat) < 256 ∧ (255 : Nat) < 256 := by decide
theorem witness_Cycles :
    (⟨true, true, 0x02, false, none⟩ : CycleIn).rst = true ∧
      (⟨false, true, 0x02, false, none⟩ : CycleIn).accepted = none ∧
      (⟨false, true, 0x02, false, some ⟨0x0C00, []⟩⟩ : CycleIn).accepted = some ⟨0x0C00, []⟩ ∧
      (⟨false, true, 0x41, false, some ⟨0x0800, []⟩⟩ : CycleIn).accepted = some ⟨0x0800, []⟩ ∧
      (⟨false, true, 0x02, true, some ⟨0x0C00, []⟩⟩ : CycleIn).rxFault = true ∧
      decode .standard ⟨0x4400, []⟩ ≠ .ok .fdXerr ∧ decode .standard ⟨0x4400, []⟩ ≠ .ok .fdReset ∧
      decode .standard ⟨0x0800, [[]]⟩ ≠ .ok .fdReset := by decide
theorem witness_PortHandshake :
    (PortState.idle .reset).busy = false ∧ ({ PortState.idle .reset with busQueue := [.xfer 0x08] }).busy = true ∧
      ({ PortState.idle .reset with sampling := some ⟨0, .left, false, 3⟩ }).busy = true ∧
      ({ PortState.idle .reset with waiting := some 0x5001 }).busy = false ∧
      (⟨false, false, 0, false, false, 0, false, 0, false, true, true, true, true, 0⟩ : PortIn).rst = false := by
  decide
theorem witness_SegmentsFollow :
    (collectSegments ([] ++ (⟨false, false, 0, false, true, 0x5400, true, 0x48, true, true, true, true, true, 0⟩ :
      PortIn).segment.toList)).1.length < payloadCount 0x5400 ∧
    decode .standard ⟨0x5001, [[0x48, 0x69]]⟩ = .ok (.lePrintLine 1 [0x48, 0x69]) ∧
    [(⟨false, false, 0, false, false, 0, true, 0x48, false, true, true, true, true, 0⟩ : PortIn),
      ⟨false, false, 0, false, false, 0, true, 0x69, true, true, true, true, true, 0⟩].filterMap PortIn.segment =
        segmentStream [[0x48, 0x69]] := by decide
theorem witness_AssembledFrame :
    ([0x30, 0x30, 0x30, 0x30, 0x31, 0x32, 0x44, 0x36, 0x38, 0x37] : List Byte).length = 10 ∧
      ([0x30, 0x30, 0x30, 0x30, 0x31, 0x32, 0x44, 0x36, 0x38, 0x37] : List Byte).all (isHex .standard) = true ∧
      State.reset.params = .standard ∧ State.reset.fd.mode = .acc ∧
      frameBytes [0x30, 0x30, 0x30, 0x30, 0x31, 0x32, 0x44, 0x36, 0x38, 0x37] = frame01 := by decide

end Sys2Proof.Tests
end

section
/-! PROOFS. The rules of R1 and R2: what an operation does is a function of its own unit (and, for the DB, of the
pin readings), written back to that unit alone; and a step runs the operation its next command decodes to.

The three `…Effect` functions give each unit's operations as functions of what that unit may read; `exec_of_fd`,
`exec_of_le` and `exec_of_db` tie them to `exec`. -/

namespace Sys2Proof.Machine

/-! ## The FD -/

/-- The FD an FD operation leaves, and its events, from the parameters and the FD alone (R62 to R65). -/
def fdEffect (p : Params) (fd : FdState) : Instr → FdState × List Event
  | .fdByte b => fdReceive p fd b
  | .fdReset => (.initial, [])
  | .fdXerr => (.initial, [.fdTransportError])
  | _ => (fd, [])

theorem exec_of_fd {i : Instr} (hu : i.unit = .fd) (s : State) :
    exec i s = .next (s.setFd (fdEffect s.params s.fd i).1 (fdEffect s.params s.fd i).2) := by
  cases i with
  | fdPoll | fdByte | fdReset | fdXerr => rfl
  | _ => cases hu

/-! ## The LE -/

/-- What LE_PRINT_LINE leaves of the LE, and its events (R80). -/
def printLineEffect (p : Params) (le : LeState) (line : BitVec 3) (text : Segment) : LeState × List Event :=
  match lineAddr p line with
  | none => (le, [.leBadLine line])
  | some addr => (le.emit (renderLine p le.bl line addr text).1, (renderLine p le.bl line addr text).2)

/-- What LE_LOAD_GLYPHS leaves of the LE, and its events (R82). -/
def loadGlyphsEffect (p : Params) (le : LeState) (n : BitVec 4) (rows : Segment) : LeState × List Event :=
  if glyphCountOk p n = false then (le, [.leBadGlyphCount n])
  else if glyphLengthOk n rows = false then (le, [.leGlyphLength n rows.length])
  else (LeState.emit { le with glyphs := n } (glyphItems p le.bl rows), [])

/-- The LE an LE operation leaves, and its events, from the parameters and the LE alone (R76 to R82). -/
def leEffect (p : Params) (le : LeState) : Instr → LeState × List Event
  | .leInit => (le.emit (initItems p le.bl), [])
  | .leClear => (le.emit (clearItems p le.bl), [])
  | .leBlOn => (setBacklight p true le, [])
  | .leBlOff => (setBacklight p false le, [])
  | .lePrintLine line text => printLineEffect p le line text
  | .lePrintLines t1 t2 t3 t4 =>
    (le.emit (renderLines p le.bl t1 t2 t3 t4).1, (renderLines p le.bl t1 t2 t3 t4).2)
  | .leLoadGlyphs n rows => loadGlyphsEffect p le n rows
  | _ => (le, [])

/-- A refusal writes the LE back as it was (R95). -/
theorem State.refuse_eq_setLe (s : State) (e : Event) : s.refuse e = s.setLe s.le [e] := rfl

theorem execLePrintLine_eq (s : State) (line : BitVec 3) (text : Segment) :
    execLePrintLine line text s =
      .next (s.setLe (printLineEffect s.params s.le line text).1 (printLineEffect s.params s.le line text).2) := by
  cases ha : lineAddr s.params line with
  | none => simp [execLePrintLine_none s line text ha, printLineEffect, ha, State.refuse_eq_setLe]
  | some addr => simp [execLePrintLine_some s line text addr ha, printLineEffect, ha]

theorem execLeLoadGlyphs_eq (s : State) (n : BitVec 4) (rows : Segment) :
    execLeLoadGlyphs n rows s =
      .next (s.setLe (loadGlyphsEffect s.params s.le n rows).1 (loadGlyphsEffect s.params s.le n rows).2) := by
  obtain ⟨hn, hx⟩ | ⟨hn, hl, hx⟩ | ⟨hn, hl, hx⟩ := execLeLoadGlyphs_cases s n rows
  · simp [hx, loadGlyphsEffect, hn, State.refuse_eq_setLe]
  · simp [hx, loadGlyphsEffect, hn, hl, State.refuse_eq_setLe]
  · simp [hx, loadGlyphsEffect, hn, hl]

theorem exec_of_le {i : Instr} (hu : i.unit = .le) (s : State) :
    exec i s = .next (s.setLe (leEffect s.params s.le i).1 (leEffect s.params s.le i).2) := by
  cases i with
  | leInit | leClear | leBlOn | leBlOff | lePrintLines => rfl
  | lePrintLine line text => exact execLePrintLine_eq s line text
  | leLoadGlyphs n rows => exact execLeLoadGlyphs_eq s n rows
  | _ => cases hu

/-! ## The DB -/

/-- The two raw levels that a sample of a button would draw in this state (R85, R88). -/
def State.nextLevels (s : State) (b : Button) : Bool × Bool := (s.nextLevel b, s.afterDraw.nextLevel b)

/-- A draw reads the environment's readings and the draw counter, and no register (R85). -/
theorem State.nextLevel_congr {s s' : State} (hpins : s.pins = s'.pins) (hcount : s.drawCount = s'.drawCount)
    (b : Button) : s.nextLevel b = s'.nextLevel b := by
  rw [State.nextLevel, State.nextLevel, hpins, hcount]

theorem State.nextLevels_congr {s s' : State} (hpins : s.pins = s'.pins) (hcount : s.drawCount = s'.drawCount) :
    s.nextLevels = s'.nextLevels := by
  funext b
  have hfirst := State.nextLevel_congr hpins hcount b
  have hsecond : s.afterDraw.nextLevel b = s'.afterDraw.nextLevel b :=
    State.nextLevel_congr (by simp [hpins]) (by simp [hcount]) b
  rw [State.nextLevels, State.nextLevels, hfirst, hsecond]

/-- What DB_SAMPLE leaves of the DB, and its events, when a button's draws give `levels` (R88). -/
def sampleEffect (levels : Button → Bool × Bool) (db : DbState) (button : BitVec 2) : DbState × List Event :=
  match buttonOf button with
  | none => (db, [.dbBadButton button])
  | some b => dbSampled b (levels b).1 (levels b).2 db

/-- The DB a DB operation leaves, and its events, from the parameters, the readings and the DB alone
(R88, R89). -/
def dbEffect (p : Params) (levels : Button → Bool × Bool) (db : DbState) : Instr → DbState × List Event
  | .dbSample button => sampleEffect levels db button
  | .dbRearm => ({ db with prev := .all p.prevInit }, [])
  | _ => (db, [])

/-- The state once an operation's draws are made: two for a sample of a button, none for a refused sample or any
other operation (R88). -/
def State.afterDrawsOf (s : State) : Instr → State
  | .dbSample button => if (buttonOf button).isSome then s.afterDraw.afterDraw else s
  | _ => s

@[simp] theorem State.afterDrawsOf_fd (s : State) (i : Instr) : (s.afterDrawsOf i).fd = s.fd := by
  unfold State.afterDrawsOf
  split
  · split <;> simp
  · rfl

@[simp] theorem State.afterDrawsOf_le (s : State) (i : Instr) : (s.afterDrawsOf i).le = s.le := by
  unfold State.afterDrawsOf
  split
  · split <;> simp
  · rfl

/-- A refusal writes the DB back as it was (R95). -/
theorem State.refuse_eq_setDb (s : State) (e : Event) : s.refuse e = s.setDb s.db [e] := rfl

theorem execDbSample_eq (s : State) (button : BitVec 2) :
    execDbSample button s =
      .next ((s.afterDrawsOf (.dbSample button)).setDb (sampleEffect s.nextLevels s.db button).1
        (sampleEffect s.nextLevels s.db button).2) := by
  cases hb : buttonOf button with
  | none =>
    simp [execDbSample_none s button hb, sampleEffect, State.afterDrawsOf, hb, State.refuse_eq_setDb]
  | some b =>
    simp [execDbSample_some s button b hb, sampleEffect, State.afterDrawsOf, hb, State.nextLevels]

theorem exec_of_db {i : Instr} (hu : i.unit = .db) (s : State) :
    exec i s =
      .next ((s.afterDrawsOf i).setDb (dbEffect s.params s.nextLevels s.db i).1
        (dbEffect s.params s.nextLevels s.db i).2) := by
  cases i with
  | dbSample button => exact execDbSample_eq s button
  | dbRearm => rfl
  | _ => cases hu

/-! ## The units do not interfere (R1) -/

/-- The frame of an operation: the two units it does not belong to. -/
theorem exec_other_units {i : Instr} {s t : State} (h : exec i s = .next t) :
    (i.unit ≠ .fd → t.fd = s.fd) ∧ (i.unit ≠ .le → t.le = s.le) ∧ (i.unit ≠ .db → t.db = s.db) := by
  cases hu : i.unit with
  | fd =>
    rw [exec_of_fd hu] at h
    cases h
    simp
  | le =>
    rw [exec_of_le hu] at h
    cases h
    simp
  | db =>
    rw [exec_of_db hu] at h
    cases h
    simp

section
variable {i : Instr} {s s' t t' : State}

theorem exec_fd_local (hu : i.unit = .fd) (hp : s.params = s'.params) (hfd : s.fd = s'.fd)
    (h : exec i s = .next t) (h' : exec i s' = .next t') : t.fd = t'.fd ∧ t.events = t'.events := by
  rw [exec_of_fd hu] at h h'
  cases h
  cases h'
  simp [hp, hfd]

theorem exec_le_local (hu : i.unit = .le) (hp : s.params = s'.params) (hle : s.le = s'.le)
    (h : exec i s = .next t) (h' : exec i s' = .next t') : t.le = t'.le ∧ t.events = t'.events := by
  rw [exec_of_le hu] at h h'
  cases h
  cases h'
  simp [hp, hle]

theorem exec_db_local (hu : i.unit = .db) (hp : s.params = s'.params) (hdb : s.db = s'.db)
    (hpins : s.pins = s'.pins) (hcount : s.drawCount = s'.drawCount)
    (h : exec i s = .next t) (h' : exec i s' = .next t') : t.db = t'.db ∧ t.events = t'.events := by
  rw [exec_of_db hu] at h h'
  cases h
  cases h'
  simp [hp, hdb, State.nextLevels_congr hpins hcount]

end

/-- Settles O25: each unit's operations are functions of that unit (`exec_of_fd`, `exec_of_le`, `exec_of_db`). -/
theorem operationsTouchOnlyTheirUnit : Obligations.OperationsTouchOnlyTheirUnit :=
  ⟨fun _ _ _ h => exec_other_units h, fun _ _ _ _ _ hp h h' =>
    ⟨fun hu hfd => exec_fd_local hu hp hfd h h', fun hu hle => exec_le_local hu hp hle h h',
      fun hu hdb hpins hcount => exec_db_local hu hp hdb hpins hcount h h'⟩⟩

/-! ## One step, by the next element of the stream (R2, R53) -/

/-- With nothing presented the block waits. -/
theorem step_of_input_nil {s : State} (hin : s.input = []) : step s = .next s := by
  simp [step, hin]

theorem step_of_decode_ok {s : State} {c : Command} {rest : List Input} {i : Instr}
    (hin : s.input = .op c :: rest) (hdec : decode s.params c = .ok i) : step s = exec i (s.setInput rest) := by
  simp [step, hin, hdec]

/-- Settles O7, by the stream: a command that decodes, or nothing presented. -/
theorem stepRunsTheDecodedOperation : Obligations.StepRunsTheDecodedOperation :=
  ⟨fun _ _ _ _ hin hdec => step_of_decode_ok hin hdec, fun _ hin => step_of_input_nil hin⟩

end Sys2Proof.Machine
end

section
/-! PROOFS. What stands in the registers (10_state.md): the status views, the invariant of the three units at reset
and along every step, and the bus log with the port that presents it.

`fdReceive_inv`, `leEffect_appends` and `dbEffect_inv` say per unit what an operation keeps; `exec_inv` and
`exec_appends` put the units together, and the step, run and port statements follow from these two. -/

namespace Sys2Proof.Machine

/-! ## The status views (R14, R18, R22) -/

/-- The layout FD_STAT and LE_STAT share: a bit, a four-bit field above it, zeros above that. -/
theorem stat_layout_bits (n : BitVec 4) (b : BitVec 1) :
    ((0 : BitVec 3) ++ n ++ b).getLsbD 0 = b.getLsbD 0 ∧ ((0 : BitVec 3) ++ n ++ b).extractLsb' 1 4 = n ∧
      ((0 : BitVec 3) ++ n ++ b).extractLsb' 5 3 = 0 := by
  revert n b
  decide

theorem fdModeBit_getLsbD_zero_iff (m : FdMode) : (fdModeBit m).getLsbD 0 = true ↔ m = .done := by
  cases m <;> decide

theorem fdStat_bits (fd : FdState) :
    ((fdStat fd).getLsbD 0 = true ↔ fd.mode = .done) ∧ (fdStat fd).extractLsb' 1 4 = fd.idx ∧
      (fdStat fd).extractLsb' 5 3 = 0 := by
  obtain ⟨hdone, hidx, hzero⟩ := stat_layout_bits fd.idx (fdModeBit fd.mode)
  exact ⟨(Bool.eq_iff_iff.mp hdone).trans (fdModeBit_getLsbD_zero_iff fd.mode), hidx, hzero⟩

theorem leStat_bits (le : LeState) :
    (leStat le).getLsbD 0 = le.bl ∧ (leStat le).extractLsb' 1 4 = le.glyphs ∧ (leStat le).extractLsb' 5 3 = 0 := by
  obtain ⟨hbl, hglyphs, hzero⟩ := stat_layout_bits le.glyphs (BitVec.ofBool le.bl)
  exact ⟨hbl.trans (by simp), hglyphs, hzero⟩

theorem dbStat_bits (db : DbState) :
    (dbStat db).getLsbD 0 = db.level.left ∧ (dbStat db).getLsbD 1 = db.level.middle ∧
      (dbStat db).getLsbD 2 = db.level.right ∧ (dbStat db).getLsbD 3 = false ∧
      (dbStat db).getLsbD 4 = db.prev.left ∧ (dbStat db).getLsbD 5 = db.prev.middle ∧
      (dbStat db).getLsbD 6 = db.prev.right ∧ (dbStat db).getLsbD 7 = false := by
  obtain ⟨⟨ll, lm, lr⟩, ⟨pl, pm, pr⟩⟩ := db
  revert ll lm lr pl pm pr
  decide

theorem dbStat_resetWith (p : Params) :
    dbStat (State.resetWith p).db = if p.prevInit = true then 0x70 else 0x00 := by
  change dbStat (.initial p) = _
  rw [DbState.initial]
  cases p.prevInit <;> rfl

/-- Settles O18, by the layout of each view. -/
theorem statusViewsShowTheRegisters : Obligations.StatusViewsShowTheRegisters :=
  ⟨fdStat_bits, leStat_bits, dbStat_bits, rfl, rfl, dbStat_resetWith⟩

/-! ## The payload of a frame: its bytes and its tag (R13, R59, R60) -/

theorem toNat_append_eq_mul_add {m n : Nat} (x : BitVec m) (y : BitVec n) :
    (x ++ y).toNat = x.toNat * 2 ^ n + y.toNat := by
  rw [BitVec.toNat_append, ← Nat.shiftLeft_add_eq_or_of_lt y.isLt, Nat.shiftLeft_eq]

/-- The digits a tag is made of (R60). -/
theorem tagDigits_eq : ∀ dig : Vector Nibble 12,
    (dig.toList.take Config.dataDigits).drop (Config.dataDigits - Config.tagDigits) =
      [dig[4], dig[5], dig[6], dig[7], dig[8], dig[9]]
  | ⟨⟨[_, _, _, _, _, _, _, _, _, _, _, _]⟩, _⟩ => rfl

/-- The value of six digits is the low 24 bits of a word that ends in them. -/
theorem digitsValue_eq_low {n : Nat} (x : BitVec n) (a b c d e f : Nibble) :
    BitVec.ofNat 24 (digitsValue 16 ([a, b, c, d, e, f].map BitVec.toNat)) =
      (x ++ (a ++ b) ++ (c ++ d) ++ (e ++ f)).extractLsb' 0 24 := by
  apply BitVec.eq_of_toNat_eq
  simp only [digitsValue, List.map_cons, List.map_nil, List.foldl_cons, List.foldl_nil, BitVec.toNat_ofNat,
    BitVec.extractLsb'_toNat, Nat.shiftRight_zero, toNat_append_eq_mul_add]
  omega

/-- The tag is the low 24 bits of the payload: both are the value of the same six digits (R60). -/
theorem tagValue_eq_payload_low (dig : Vector Nibble 12) :
    tagValue dig = (payloadWord dig).extractLsb' 0 24 := by
  rw [tagValue, tagDigits_eq]
  exact digitsValue_eq_low (payloadByte dig 0 ++ payloadByte dig 1) _ _ _ _ _ _

/-- Five bytes read back from their concatenation. -/
theorem extract_bytes (a b c d e : Byte) :
    (a ++ b ++ c ++ d ++ e).extractLsb' 32 8 = a ∧ (a ++ b ++ c ++ d ++ e).extractLsb' 24 8 = b ∧
      (a ++ b ++ c ++ d ++ e).extractLsb' 16 8 = c ∧ (a ++ b ++ c ++ d ++ e).extractLsb' 8 8 = d ∧
      (a ++ b ++ c ++ d ++ e).extractLsb' 0 8 = e := by
  refine ⟨?_, ?_, ?_, ?_, ?_⟩ <;> apply BitVec.eq_of_toNat_eq <;>
    simp only [BitVec.extractLsb'_toNat, Nat.shiftRight_eq_div_pow, toNat_append_eq_mul_add] <;> omega

/-- The running checksum is the exclusive or of the payload's bytes (R59). -/
theorem checksumSum_eq_payload_xor (dig : Vector Nibble 12) :
    checksumSum dig =
      (payloadWord dig).extractLsb' 32 8 ^^^ (payloadWord dig).extractLsb' 24 8 ^^^
        (payloadWord dig).extractLsb' 16 8 ^^^ (payloadWord dig).extractLsb' 8 8 ^^^
        (payloadWord dig).extractLsb' 0 8 := by
  obtain ⟨h0, h1, h2, h3, h4⟩ := extract_bytes (payloadByte dig 0) (payloadByte dig 1) (payloadByte dig 2)
    (payloadByte dig 3) (payloadByte dig 4)
  rw [payloadWord, h0, h1, h2, h3, h4, checksumSum]
  simp only [BitVec.ofNat_eq_ofNat, BitVec.zero_xor]

/-! ## The FD keeps its invariant (R15) -/

theorem FdState.inv_iff_of_acc {fd : FdState} (hm : fd.mode = .acc) :
    fd.Inv ↔ fd.idx.toNat ≤ 13 ∧ (fd.tag = 0 ∧ fd.payload = 0 ∧ fd.cks = 0) ∧
      ∀ j : Fin 12, fd.idx.toNat ≤ j.val + 1 → fd.dig[j] = 0 := by
  simp [FdState.Inv, hm]

theorem FdState.initial_inv : FdState.initial.Inv := by
  rw [FdState.inv_iff_of_acc rfl]
  exact ⟨by decide, ⟨rfl, rfl, rfl⟩, fun j _ => by simp [FdState.initial]⟩

section
variable {fd : FdState} {b : Byte}

/-- A START_CODE at index 0: no digit is read yet, so none of them is below the new index. -/
theorem startFrame_inv (h : fd.Inv) (hm : fd.mode = .acc) (h0 : fd.idx = 0) :
    FdState.Inv { fd with idx := 1 } := by
  obtain ⟨-, hout, hdig⟩ := (FdState.inv_iff_of_acc hm).mp h
  exact (FdState.inv_iff_of_acc (fd := { fd with idx := 1 }) hm).mpr
    ⟨by simp, hout, fun j _ => hdig j (by simp [h0])⟩

theorem frameErr_inv (h : fd.Inv) (hm : fd.mode = .acc) (cause : FrameCause) :
    (frameErr cause b fd).1.Inv := by
  obtain ⟨-, hout, -⟩ := (FdState.inv_iff_of_acc hm).mp h
  refine (FdState.inv_iff_of_acc (fd := (frameErr cause b fd).1) hm).mpr
    ⟨?_, hout, fun j _ => by simp [frameErr]⟩
  simp only [frameErr]
  split <;> decide

/-- The digit written stands below the new index, and the digits from there on are still 0. -/
theorem acceptDigit_inv (h : fd.Inv) (hm : fd.mode = .acc) (h0 : fd.idx ≠ 0) (h12 : fd.idx.toNat ≤ 12) :
    (acceptDigit b fd).1.Inv := by
  obtain ⟨-, hout, hdig⟩ := (FdState.inv_iff_of_acc hm).mp h
  have hpos : fd.idx.toNat ≠ 0 := fun hz => h0 (BitVec.eq_of_toNat_eq hz)
  have hnext : (acceptDigit b fd).1.idx.toNat = fd.idx.toNat + 1 := by
    simp only [acceptDigit, BitVec.toNat_add, BitVec.ofNat_eq_ofNat, BitVec.toNat_ofNat]
    omega
  refine (FdState.inv_iff_of_acc (fd := (acceptDigit b fd).1) hm).mpr ⟨by omega, hout, fun j hj => ?_⟩
  have hkeep : (acceptDigit b fd).1.dig[j] = fd.dig[j] :=
    Vector.getElem_setIfInBounds_ne j.isLt (by omega)
  rw [hkeep]
  exact hdig j (by omega)

/-- The outputs of a completed frame are those of one payload (R59, R60). -/
theorem completeFrame_inv (hc : checksumOk fd.dig = true) : (completeFrame fd).1.Inv := by
  have hcks : checksumByte fd.dig = checksumSum fd.dig := (beq_iff_eq.mp hc).symm
  refine ⟨Nat.zero_le _, fun _ => rfl, nofun, fun j _ => by simp [completeFrame], fun _ => ⟨?_, ?_⟩⟩
  · exact tagValue_eq_payload_low fd.dig
  · exact hcks.trans (checksumSum_eq_payload_xor fd.dig)

theorem fdReceive_inv (p : Params) (b : Byte) (h : fd.Inv) : (fdReceive p fd b).1.Inv := by
  obtain ⟨-, hx⟩ | ⟨hm, h0, -, hx⟩ | ⟨hm, -, -, hx⟩ | ⟨hm, h0, h12, -, hx⟩ | ⟨hm, -, -, -, hx⟩ | ⟨hm, -, -, hx⟩ |
    ⟨hm, -, -, -, hx⟩ | ⟨-, -, -, hc, hx⟩ := fdReceive_cases p fd b <;> rw [hx]
  · exact h
  · exact startFrame_inv h hm h0
  · exact frameErr_inv h hm _
  · exact acceptDigit_inv h hm h0 h12
  · exact frameErr_inv h hm _
  · exact frameErr_inv h hm _
  · exact frameErr_inv h hm _
  · exact completeFrame_inv hc

theorem fdEffect_inv (p : Params) (i : Instr) (h : fd.Inv) : (fdEffect p fd i).1.Inv := by
  cases i with
  | fdByte b => exact fdReceive_inv p b h
  | fdReset | fdXerr => exact FdState.initial_inv
  | _ => exact h

end

/-! ## The LE writes to the display and appends to its log (R19, R34) -/

section
variable {p : Params} (hwf : p.wf)
include hwf

theorem writesOnly_xferByte (bl : Bool) (n : Nibble) (en rs : Bool) :
    writesOnly p.expander (.xfer (xferByte p bl n en rs)) = true := by
  rw [writesOnly, xferByte_rw p bl n en rs hwf, Bool.not_false]

theorem sendNibble_writesOnly (bl : Bool) (n : Nibble) (rs : Bool) :
    (sendNibble p bl n rs).all (writesOnly p.expander) = true := by
  rw [List.all_eq_true]
  intro item hmem
  cases item with
  | wait k => rfl
  | xfer x =>
    obtain ⟨en, rfl⟩ := mem_sendNibble_xfer p bl n rs x hmem
    exact writesOnly_xferByte hwf bl n en rs

theorem sendByte_writesOnly (bl : Bool) (v : Byte) (rs : Bool) :
    (sendByte p bl v rs).all (writesOnly p.expander) = true := by
  simp [sendByte, List.all_append, sendNibble_writesOnly hwf, -List.all_eq_true]

theorem sendCmd_writesOnly (bl : Bool) (v : Byte) : (sendCmd p bl v).all (writesOnly p.expander) = true :=
  sendByte_writesOnly hwf bl v false

theorem flatMap_sendData_writesOnly (bl : Bool) (codes : List Byte) :
    (codes.flatMap (sendData p bl)).all (writesOnly p.expander) = true := by
  rw [List.all_flatMap, List.all_eq_true]
  exact fun v _ => sendByte_writesOnly hwf bl v true

theorem initItems_writesOnly (bl : Bool) : (initItems p bl).all (writesOnly p.expander) = true := by
  simp [initItems, List.all_append, sendNibble_writesOnly hwf, sendCmd_writesOnly hwf, writesOnly, -List.all_eq_true]

theorem clearItems_writesOnly (bl : Bool) : (clearItems p bl).all (writesOnly p.expander) = true := by
  simp [clearItems, List.all_append, sendCmd_writesOnly hwf, writesOnly, -List.all_eq_true]

theorem renderLine_writesOnly (bl : Bool) (line : BitVec 3) (addr : BitVec 7) (t : Segment) :
    (renderLine p bl line addr t).1.all (writesOnly p.expander) = true := by
  simp [renderLine, List.all_append, sendCmd_writesOnly hwf, flatMap_sendData_writesOnly hwf, -List.all_eq_true]

theorem renderLines_writesOnly (bl : Bool) (t1 t2 t3 t4 : Segment) :
    (renderLines p bl t1 t2 t3 t4).1.all (writesOnly p.expander) = true := by
  simp [renderLines, List.all_append, renderLine_writesOnly hwf, -List.all_eq_true]

theorem glyphItems_writesOnly (bl : Bool) (rows : Segment) :
    (glyphItems p bl rows).all (writesOnly p.expander) = true := by
  simp [glyphItems, List.all_append, sendCmd_writesOnly hwf, flatMap_sendData_writesOnly hwf, -List.all_eq_true]

end

/-- What every operation of the LE has in common: items that write to the display go to the end of the log, and the
glyph count is the old one or one that passed check 3 of R53. -/
structure LeAppends (p : Params) (le le' : LeState) (items : List BusItem) : Prop where
  log : le'.log = le.log ++ items
  writes : p.wf → items.all (writesOnly p.expander) = true
  glyphs : le'.glyphs = le.glyphs ∨ glyphCountOk p le'.glyphs = true

/-- An operation that leaves the LE as it is. -/
theorem LeAppends.refl (p : Params) (le : LeState) : LeAppends p le le [] :=
  ⟨(List.append_nil _).symm, fun _ => rfl, .inl rfl⟩

/-- An operation that only emits. -/
theorem LeAppends.of_emit {p : Params} {le : LeState} {items : List BusItem}
    (h : p.wf → items.all (writesOnly p.expander) = true) : LeAppends p le (le.emit items) items :=
  ⟨rfl, h, .inl rfl⟩

theorem setBacklight_appends (p : Params) (on : Bool) (le : LeState) :
    LeAppends p le (setBacklight p on le) [.xfer (xferByte p on 0x0 false false)] :=
  ⟨rfl, fun hwf => by simp [writesOnly_xferByte hwf], .inl rfl⟩

theorem printLineEffect_appends (p : Params) (le : LeState) (line : BitVec 3) (text : Segment) :
    ∃ items, LeAppends p le (printLineEffect p le line text).1 items := by
  cases ha : lineAddr p line with
  | none => exact ⟨[], by simpa [printLineEffect, ha] using LeAppends.refl p le⟩
  | some addr =>
    simp only [printLineEffect, ha]
    exact ⟨_, .of_emit fun hwf => renderLine_writesOnly hwf le.bl line addr text⟩

theorem loadGlyphsEffect_appends (p : Params) (le : LeState) (n : BitVec 4) (rows : Segment) :
    ∃ items, LeAppends p le (loadGlyphsEffect p le n rows).1 items := by
  unfold loadGlyphsEffect
  split
  · exact ⟨[], .refl p le⟩
  · next hn =>
    split
    · exact ⟨[], .refl p le⟩
    · exact ⟨_, rfl, fun hwf => glyphItems_writesOnly hwf le.bl rows, .inr (by simpa using hn)⟩

theorem leEffect_appends (p : Params) (le : LeState) (i : Instr) :
    ∃ items, LeAppends p le (leEffect p le i).1 items := by
  cases i with
  | leInit => exact ⟨_, .of_emit fun hwf => initItems_writesOnly hwf le.bl⟩
  | leClear => exact ⟨_, .of_emit fun hwf => clearItems_writesOnly hwf le.bl⟩
  | leBlOn => exact ⟨_, setBacklight_appends p true le⟩
  | leBlOff => exact ⟨_, setBacklight_appends p false le⟩
  | lePrintLine line text => exact printLineEffect_appends p le line text
  | lePrintLines t1 t2 t3 t4 => exact ⟨_, .of_emit fun hwf => renderLines_writesOnly hwf le.bl t1 t2 t3 t4⟩
  | leLoadGlyphs n rows => exact loadGlyphsEffect_appends p le n rows
  | _ => exact ⟨[], .refl p le⟩

theorem LeState.initial_inv (p : Params) : (LeState.initial p).Inv p := ⟨Nat.zero_le _, rfl⟩

theorem LeAppends.inv {p : Params} {le le' : LeState} {items : List BusItem} (ha : LeAppends p le le' items)
    (hwf : p.wf) (h : le.Inv p) : le'.Inv p := by
  obtain ⟨hglyphs, hlog⟩ := h
  constructor
  · obtain hsame | hchecked := ha.glyphs
    · rwa [hsame]
    · exact (of_decide_eq_true hchecked).2
  · rw [ha.log, List.all_append, hlog, ha.writes hwf, Bool.and_self]

/-! ## The DB keeps its invariant (R89) -/

/-- The invariant button by button. -/
theorem DbState.inv_iff (p : Params) (db : DbState) :
    db.Inv p ↔ (p.prevInit = false → ∀ b, db.prev.get b = true → db.level.get b = true) := by
  constructor
  · intro h hp b
    obtain ⟨hleft, hmiddle, hright⟩ := h hp
    cases b with
    | left => exact hleft
    | middle => exact hmiddle
    | right => exact hright
  · exact fun h hp => ⟨h hp .left, h hp .middle, h hp .right⟩

/-- With every edge reference at PREV_INIT = 0 there is none to be the stable level. -/
theorem DbState.inv_of_prev_init (p : Params) (level : ButtonBits) :
    DbState.Inv p { level := level, prev := .all p.prevInit } := by
  rw [DbState.inv_iff]
  intro hp b hb
  simp [hp] at hb

/-- A sample writes one value to the level and to the reference of its button. -/
theorem dbSampled_inv {p : Params} {db : DbState} (b : Button) (r1 r2 : Bool) (h : db.Inv p) :
    (dbSampled b r1 r2 db).1.Inv p := by
  rw [DbState.inv_iff] at h ⊢
  intro hp c
  by_cases hc : c = b
  · simp [dbSampled, hc]
  · simpa [dbSampled, ButtonBits.get_set_ne _ b c _ hc] using h hp c

theorem dbEffect_inv {p : Params} {db : DbState} (levels : Button → Bool × Bool) (i : Instr) (h : db.Inv p) :
    (dbEffect p levels db i).1.Inv p := by
  cases i with
  | dbSample button =>
    cases hb : buttonOf button with
    | none => simpa only [dbEffect, sampleEffect, hb] using h
    | some b => simpa only [dbEffect, sampleEffect, hb] using dbSampled_inv b _ _ h
  | dbRearm => exact DbState.inv_of_prev_init p db.level
  | _ => exact h

/-! ## Reset and every step keep the invariant of the machine -/

theorem State.resetWith_inv {p : Params} (hwf : p.wf) : (State.resetWith p).Inv :=
  ⟨hwf, FdState.initial_inv, LeState.initial_inv p, DbState.inv_of_prev_init p _⟩

/-- Settles O23, unit by unit. -/
theorem resetMeetsTheInvariant : Obligations.ResetMeetsTheInvariant :=
  ⟨State.resetWith_inv (by decide), fun _ => State.resetWith_inv⟩

@[simp] theorem State.afterDrawsOf_params (s : State) (i : Instr) : (s.afterDrawsOf i).params = s.params := by
  unfold State.afterDrawsOf
  split
  · split <;> simp
  · rfl

/-- The invariant reads the parameters and the three units only. -/
theorem State.Inv.congr {s t : State} (h : s.Inv) (hp : t.params = s.params) (hfd : t.fd = s.fd)
    (hle : t.le = s.le) (hdb : t.db = s.db) : t.Inv := by
  rwa [State.Inv, hp, hfd, hle, hdb]

theorem exec_inv {i : Instr} {s t : State} (h : s.Inv) (hx : exec i s = .next t) : t.Inv := by
  obtain ⟨hwf, hfd, hle, hdb⟩ := h
  cases hu : i.unit with
  | fd =>
    rw [exec_of_fd hu] at hx
    cases hx
    exact ⟨hwf, fdEffect_inv s.params i hfd, hle, hdb⟩
  | le =>
    rw [exec_of_le hu] at hx
    cases hx
    obtain ⟨_, happ⟩ := leEffect_appends s.params s.le i
    exact ⟨hwf, hfd, happ.inv hwf hle, hdb⟩
  | db =>
    rw [exec_of_db hu] at hx
    cases hx
    simp only [State.Inv, State.setDb_params, State.setDb_fd, State.setDb_le, State.setDb_db,
      State.afterDrawsOf_params, State.afterDrawsOf_fd, State.afterDrawsOf_le]
    exact ⟨hwf, hfd, hle, dbEffect_inv s.nextLevels i hdb⟩

theorem step_of_blockReset {s : State} {rest : List Input} (hin : s.input = .blockReset :: rest) :
    step s = .next (s.setInput rest).blockReset := by
  simp [step, hin]

theorem step_of_decode_error {s : State} {c : Command} {rest : List Input} {r : Reject}
    (hin : s.input = .op c :: rest) (hdec : decode s.params c = .error r) :
    step s = .next ((s.setInput rest).refuse (rejectEvent r)) := by
  simp [step, hin, hdec]

/-- A block reset meets the invariant from every state of a well-formed block. -/
theorem State.blockReset_inv {s : State} (hwf : s.params.wf) : s.blockReset.Inv :=
  (State.resetWith_inv hwf).congr rfl rfl rfl rfl

theorem step_inv {s t : State} (h : s.Inv) (hx : step s = .next t) : t.Inv := by
  cases hin : s.input with
  | nil =>
    rw [step_of_input_nil hin] at hx
    cases hx
    exact h
  | cons i rest =>
    have hrest : (s.setInput rest).Inv := h.congr rfl rfl rfl rfl
    cases i with
    | blockReset =>
      obtain ⟨hwf, -⟩ := hrest
      rw [step_of_blockReset hin] at hx
      cases hx
      exact State.blockReset_inv hwf
    | op c =>
      cases hdec : decode s.params c with
      | error r =>
        rw [step_of_decode_error hin hdec] at hx
        cases hx
        exact hrest.congr rfl rfl rfl rfl
      | ok j =>
        rw [step_of_decode_ok hin hdec] at hx
        exact exec_inv hrest hx

/-- Settles O24, by what the stream presents: nothing, a block reset, a rejected command, or an operation of one
unit (`exec_inv`). -/
theorem everyStepKeepsTheInvariant : Obligations.EveryStepKeepsTheInvariant :=
  fun _ _ => step_inv

/-! ## The bus log only grows (R19, R36) -/

/-- Every operation completes, and appends to the bus log. -/
theorem exec_appends (i : Instr) (s : State) :
    ∃ t items, exec i s = .next t ∧ t.le.log = s.le.log ++ items := by
  cases hu : i.unit with
  | fd => exact ⟨_, [], exec_of_fd hu s, by simp⟩
  | le =>
    obtain ⟨items, happ⟩ := leEffect_appends s.params s.le i
    exact ⟨_, items, exec_of_le hu s, happ.log⟩
  | db => exact ⟨_, [], exec_of_db hu s, by simp⟩

theorem runOps_cons_of_exec {i : Instr} {s t : State} (hx : exec i s = .next t) (is : List Instr) :
    runOps (i :: is) s = runOps is t := by
  simp [runOps, hx]

theorem runOps_appends (is : List Instr) (s : State) :
    ∃ t items, runOps is s = some t ∧ t.le.log = s.le.log ++ items := by
  induction is generalizing s with
  | nil => exact ⟨s, [], rfl, (List.append_nil _).symm⟩
  | cons i is ih =>
    obtain ⟨u, first, hx, hfirst⟩ := exec_appends i s
    obtain ⟨t, later, hrun, hlater⟩ := ih u
    exact ⟨t, first ++ later, by rw [runOps_cons_of_exec hx, hrun], by rw [hlater, hfirst, List.append_assoc]⟩

/-- A run of two parts is the run of the second from where the first ends. -/
theorem runOps_append (is js : List Instr) (s : State) :
    runOps (is ++ js) s = (runOps is s).bind (runOps js) := by
  induction is generalizing s with
  | nil => rfl
  | cons i is ih =>
    obtain ⟨u, _, hx, _⟩ := exec_appends i s
    rw [List.cons_append, runOps_cons_of_exec hx, runOps_cons_of_exec hx, ih]

/-- Settles O27, by induction on the run, and by the frame of the FD's and the DB's operations. -/
theorem busLogOnlyGrows : Obligations.BusLogOnlyGrows := by
  refine ⟨runOps_appends, fun i s t hx hu => ?_, fun is js s t u hs ht => ?_⟩
  · obtain ⟨-, hle, -⟩ := exec_other_units hx
    rw [hle hu]
  · rw [runOps_append, hs, Option.bind_some, ht]

/-! ## The bus port presents the log in order (R35, R56) -/

/-- A step that takes a command completes and appends to the bus log, whether or not the command decodes. -/
theorem step_op_appends (s : State) (c : Command) (rest : List Input) :
    ∃ t items, step (s.setInput (.op c :: rest)) = .next t ∧ t.le.log = s.le.log ++ items := by
  have hin : (s.setInput (.op c :: rest)).input = .op c :: rest := rfl
  cases hdec : decode s.params c with
  | error r => exact ⟨_, [], step_of_decode_error hin hdec, by simp⟩
  | ok i =>
    rw [step_of_decode_ok hin hdec]
    exact exec_appends i _

/-- What a cycle has left so far, after one more step of it that leaves the state `t` (R56). -/
def CycleOut.extend (out : CycleOut) (port : EventPort) (t : State) : CycleOut :=
  { state := t
    fdEvents := out.fdEvents ++ (if port = .fd then t.events else [])
    cmdEvents := out.cmdEvents ++ (if port = .cmd then t.events else [])
    busItems := out.busItems ++ t.le.log.drop out.state.le.log.length }

@[simp] theorem CycleOut.extend_state (out : CycleOut) (port : EventPort) (t : State) :
    (out.extend port t).state = t := rfl

@[simp] theorem CycleOut.extend_busItems (out : CycleOut) (port : EventPort) (t : State) :
    (out.extend port t).busItems = out.busItems ++ t.le.log.drop out.state.le.log.length := rfl

theorem runCycleInputs_cons_of_step {out : CycleOut} {i : Input} {t : State}
    (hstep : step (out.state.setInput [i]) = .next t) (port : EventPort) (rest : List (EventPort × Input)) :
    runCycleInputs ((port, i) :: rest) out = runCycleInputs rest (out.extend port t) := by
  simp [runCycleInputs, hstep, CycleOut.extend]

/-- The bus items of a stretch of commands are what the stretch appends to the log. -/
theorem runCycleInputs_ops_appends (ops : List (EventPort × Command)) (out : CycleOut) :
    ∃ out' items, runCycleInputs (ops.map (fun x => (x.1, Input.op x.2))) out = .next out' ∧
      out'.state.le.log = out.state.le.log ++ items ∧ out'.busItems = out.busItems ++ items := by
  induction ops generalizing out with
  | nil => exact ⟨out, [], rfl, by simp, by simp⟩
  | cons x ops ih =>
    obtain ⟨t, first, hstep, hfirst⟩ := step_op_appends out.state x.2 []
    obtain ⟨out', later, hrun, hlog, hbus⟩ := ih (out.extend x.1 t)
    refine ⟨out', first ++ later, (runCycleInputs_cons_of_step hstep x.1 _).trans hrun, ?_, ?_⟩
    · rw [hlog, CycleOut.extend_state, hfirst, List.append_assoc]
    · rw [hbus, CycleOut.extend_busItems, hfirst, List.drop_left, List.append_assoc]

/-- A cycle without `rst` completes, and its bus items are what it appends to the log. -/
theorem runCycle_appends {c : CycleIn} (hrst : c.rst = false) (s : State) :
    ∃ out, runCycle c s = .next out ∧ out.state.le.log = s.le.log ++ out.busItems := by
  obtain ⟨out, items, hrun, hlog, hbus⟩ := runCycleInputs_ops_appends (cycleOps s.params c)
    { state := s, fdEvents := [], cmdEvents := [], busItems := [] }
  refine ⟨out, ?_, ?_⟩
  · simpa [runCycle, cycleInputs, hrst] using hrun
  · rw [hlog, hbus, List.nil_append]

/-- Settles O53: the items of the cycle are those its operations append (`runCycle_appends`). -/
theorem busPortPresentsTheLogInOrder : Obligations.BusPortPresentsTheLogInOrder := by
  intro x q hrst
  obtain ⟨out, hrun, hlog⟩ := runCycle_appends
    (c := { rst := x.rst, rxValid := x.rxValid, rxByte := x.rxByte, rxFault := x.rxFault,
            accepted := (commandSide x q).accepted })
    hrst (q.block.setPins (commandSide x q).pins q.block.drawCount)
  simp only [portCycle, hrun]
  exact ⟨_, _, out.busItems, rfl, rfl, by simpa [hrst] using hlog, by simp [hrst]⟩

end Sys2Proof.Machine
end

section
/-! PROOFS. Adjacent operations of different units can be exchanged (R37).

`State.AgreeOn u` relates two states that one unit cannot tell apart. An operation leaves its state so related to
the one it started from on every other unit (`exec_agreeOn_other_unit`), and on its own unit it takes related
states to related states (`exec_agreeOn_own_unit`); the exchange is these two lemmas, chained per unit. -/

namespace Sys2Proof.Machine

/-! ## What an operation keeps of the parameters and the draws -/

/-- The draws an operation makes are set by the draws so far, whatever the registers hold (R85, R88). -/
theorem State.afterDrawsOf_draws_congr {s s' : State} (hpins : s.pins = s'.pins)
    (hcount : s.drawCount = s'.drawCount) (i : Instr) :
    (s.afterDrawsOf i).pins = (s'.afterDrawsOf i).pins ∧
      (s.afterDrawsOf i).drawCount = (s'.afterDrawsOf i).drawCount := by
  unfold State.afterDrawsOf
  split
  · split <;> simp [hpins, hcount]
  · exact ⟨hpins, hcount⟩

theorem exec_params {i : Instr} {s t : State} (h : exec i s = .next t) : t.params = s.params := by
  cases hu : i.unit with
  | fd =>
    rw [exec_of_fd hu] at h
    cases h
    simp
  | le =>
    rw [exec_of_le hu] at h
    cases h
    simp
  | db =>
    rw [exec_of_db hu] at h
    cases h
    simp

/-- Only an operation of the DB draws (R85). -/
theorem exec_draws_of_not_db {i : Instr} {s t : State} (h : exec i s = .next t) (hdb : i.unit ≠ .db) :
    t.pins = s.pins ∧ t.drawCount = s.drawCount := by
  cases hu : i.unit with
  | fd =>
    rw [exec_of_fd hu] at h
    cases h
    simp
  | le =>
    rw [exec_of_le hu] at h
    cases h
    simp
  | db => exact absurd hu hdb

/-- From the same draws so far, an operation of the DB leaves the same draws (R88). -/
theorem exec_db_draws_congr {i : Instr} {s s' t t' : State} (hu : i.unit = .db) (hpins : s.pins = s'.pins)
    (hcount : s.drawCount = s'.drawCount) (h : exec i s = .next t) (h' : exec i s' = .next t') :
    t.pins = t'.pins ∧ t.drawCount = t'.drawCount := by
  rw [exec_of_db hu] at h h'
  cases h
  cases h'
  simpa using State.afterDrawsOf_draws_congr hpins hcount i

/-! ## States that a unit cannot tell apart -/

/-- The two states agree in what the operations of unit `u` read: the parameters, the unit's registers and, for
the DB, the pin readings (R1, R85). -/
def State.AgreeOn (u : UnitId) (s s' : State) : Prop :=
  s.params = s'.params ∧
    match u with
    | .fd => s.fd = s'.fd
    | .le => s.le = s'.le
    | .db => s.db = s'.db ∧ s.pins = s'.pins ∧ s.drawCount = s'.drawCount

theorem State.AgreeOn.symm {u : UnitId} {s s' : State} (h : s.AgreeOn u s') : s'.AgreeOn u s := by
  cases u <;> simp_all [State.AgreeOn]

theorem State.AgreeOn.trans {u : UnitId} {s s' s'' : State} (h : s.AgreeOn u s') (h' : s'.AgreeOn u s'') :
    s.AgreeOn u s'' := by
  cases u <;> simp_all [State.AgreeOn]

/-- An operation is not seen by the units it does not belong to. -/
theorem exec_agreeOn_other_unit {i : Instr} {s t : State} {u : UnitId} (h : exec i s = .next t)
    (hu : i.unit ≠ u) : t.AgreeOn u s := by
  obtain ⟨hfd, hle, hdb⟩ := exec_other_units h
  refine ⟨exec_params h, ?_⟩
  cases u with
  | fd => exact hfd hu
  | le => exact hle hu
  | db => exact ⟨hdb hu, exec_draws_of_not_db h hu⟩

/-- From states its unit cannot tell apart, an operation leaves such states, and raises the same events. -/
theorem exec_agreeOn_own_unit {i : Instr} {s s' t t' : State} (hs : s.AgreeOn i.unit s')
    (h : exec i s = .next t) (h' : exec i s' = .next t') : t.AgreeOn i.unit t' ∧ t.events = t'.events := by
  obtain ⟨hp, hregs⟩ := hs
  have hparams : t.params = t'.params := by rw [exec_params h, exec_params h', hp]
  unfold State.AgreeOn
  cases hu : i.unit with
  | fd =>
    rw [hu] at hregs
    obtain ⟨hfd, hev⟩ := exec_fd_local hu hp hregs h h'
    exact ⟨⟨hparams, hfd⟩, hev⟩
  | le =>
    rw [hu] at hregs
    obtain ⟨hle, hev⟩ := exec_le_local hu hp hregs h h'
    exact ⟨⟨hparams, hle⟩, hev⟩
  | db =>
    rw [hu] at hregs
    obtain ⟨hregs, hpins, hcount⟩ := hregs
    obtain ⟨hdb, hev⟩ := exec_db_local hu hp hregs hpins hcount h h'
    exact ⟨⟨hparams, hdb, exec_db_draws_congr hu hpins hcount h h'⟩, hev⟩

/-! ## The exchange -/

section
variable {i j : Instr} {s s₁ s₁₂ s₂ s₂₁ : State}

/-- An operation does the same for its own unit with an operation of another unit before it as without. -/
theorem exec_after_other_unit (hne : i.unit ≠ j.unit) (h₁ : exec i s = .next s₁) (h₁₂ : exec j s₁ = .next s₁₂)
    (h₂ : exec j s = .next s₂) : s₁₂.AgreeOn j.unit s₂ ∧ s₁₂.events = s₂.events :=
  exec_agreeOn_own_unit (exec_agreeOn_other_unit h₁ hne) h₁₂ h₂

theorem exec_exchange_agreeOn (hne : i.unit ≠ j.unit) (h₁ : exec i s = .next s₁) (h₁₂ : exec j s₁ = .next s₁₂)
    (h₂ : exec j s = .next s₂) (h₂₁ : exec i s₂ = .next s₂₁) (u : UnitId) : s₁₂.AgreeOn u s₂₁ := by
  by_cases hi : i.unit = u
  · subst hi
    obtain ⟨hown, -⟩ := exec_after_other_unit hne.symm h₂ h₂₁ h₁
    exact (exec_agreeOn_other_unit h₁₂ hne.symm).trans hown.symm
  · have hlast : s₂₁.AgreeOn u s₂ := exec_agreeOn_other_unit h₂₁ hi
    by_cases hj : j.unit = u
    · subst hj
      obtain ⟨hown, -⟩ := exec_after_other_unit hne h₁ h₁₂ h₂
      exact hown.trans hlast.symm
    · have hij : s₁₂.AgreeOn u s := (exec_agreeOn_other_unit h₁₂ hj).trans (exec_agreeOn_other_unit h₁ hi)
      have hji : s₂₁.AgreeOn u s := hlast.trans (exec_agreeOn_other_unit h₂ hj)
      exact hij.trans hji.symm

end

/-- Settles O26: each unit cannot tell the two orders apart (`exec_exchange_agreeOn`), and neither operation sees
whether the other came first (`exec_after_other_unit`). -/
theorem operationsOfDifferentUnitsCommute : Obligations.OperationsOfDifferentUnitsCommute := by
  intro i j s hne
  obtain ⟨s₁, -, h₁, -⟩ := exec_appends i s
  obtain ⟨s₁₂, -, h₁₂, -⟩ := exec_appends j s₁
  obtain ⟨s₂, -, h₂, -⟩ := exec_appends j s
  obtain ⟨s₂₁, -, h₂₁, -⟩ := exec_appends i s₂
  have hagree := exec_exchange_agreeOn hne h₁ h₁₂ h₂ h₂₁
  obtain ⟨-, hfd⟩ := hagree .fd
  obtain ⟨-, hle⟩ := hagree .le
  obtain ⟨-, hdb, hpins, hcount⟩ := hagree .db
  obtain ⟨-, hj⟩ := exec_after_other_unit hne h₁ h₁₂ h₂
  obtain ⟨-, hi⟩ := exec_after_other_unit hne.symm h₂ h₂₁ h₁
  exact ⟨s₁, s₁₂, s₂, s₂₁, h₁, h₁₂, h₂, h₂₁, hfd, hle, hdb, hpins, hcount, hi.symm, hj⟩

end Sys2Proof.Machine
end


section
/-! PROOFS. The encoding (R43, R45, R51 to R54): the rows of the operation map are disjoint, decode and encode are
inverse to each other, and what is not decoded is refused.

A row compares the bits of a word above its operand field (`selects_iff_high_bits`), so a word is known from its row
and its operand field (`word_eq_of_row_of_field`); both round trips rest on this. -/

namespace Sys2Proof.Machine

open Sys2Proof.Laws

/-! ## The rows of the operation map (R52) -/

/-- How many low bits of the op word a row leaves to its operand field (R51). -/
def operandBits : Opcode → Nat
  | .fdByte => 8
  | .lePrintLine => 3
  | .leLoadGlyphs => 4
  | .dbSample => 2
  | _ => 0

/-- A row compares every bit above its operand field. -/
theorem opMap_masks : ∀ r ∈ opMap, r.mask = BitVec.allOnes 16 <<< operandBits r.opcode := by decide

/-- A row is known from its operation. -/
theorem opMap_row_unique : ∀ r₁ ∈ opMap, ∀ r₂ ∈ opMap, r₁.opcode = r₂.opcode → r₁ = r₂ := by decide

theorem and_highOnes_toNat {k : Nat} (w : BitVec k) (n : Nat) :
    (w &&& (BitVec.allOnes k <<< n)).toNat = w.toNat / 2 ^ n * 2 ^ n := by
  have hshift : w &&& (BitVec.allOnes k <<< n) = (w >>> n) <<< n := by
    ext j hj
    by_cases hn : j < n
    · simp [hn]
    · simp [hn, Nat.add_sub_cancel' (Nat.not_lt.mp hn), hj]
  have hlt : w.toNat / 2 ^ n * 2 ^ n < 2 ^ k := Nat.lt_of_le_of_lt (Nat.div_mul_le_self _ _) w.isLt
  rw [hshift, BitVec.toNat_shiftLeft, BitVec.toNat_ushiftRight, Nat.shiftRight_eq_div_pow, Nat.shiftLeft_eq,
    Nat.mod_eq_of_lt hlt]

theorem selects_iff_high_bits {r : OpRow} (hr : r ∈ opMap) (w : OpWord) :
    r.selects w = true ↔ w.toNat / 2 ^ operandBits r.opcode * 2 ^ operandBits r.opcode = r.value.toNat := by
  rw [OpRow.selects, beq_iff_eq, opMap_masks r hr, ← BitVec.toNat_inj, and_highOnes_toNat]

/-- Two matches that one word can select agree on the bits that both rows compare. -/
theorem opMap_matches_differ :
    ∀ r₁ ∈ opMap, ∀ r₂ ∈ opMap, r₁.value &&& r₂.mask = r₂.value &&& r₁.mask → r₁ = r₂ := by decide

theorem opMap_selects_unique {r₁ r₂ : OpRow} {w : OpWord} (h₁ : r₁ ∈ opMap) (h₂ : r₂ ∈ opMap)
    (hs₁ : r₁.selects w = true) (hs₂ : r₂.selects w = true) : r₁ = r₂ := by
  refine opMap_matches_differ r₁ h₁ r₂ h₂ ?_
  rw [← beq_iff_eq.mp hs₁, ← beq_iff_eq.mp hs₂, BitVec.and_assoc, BitVec.and_assoc,
    BitVec.and_comm r₁.mask r₂.mask]

/-- Settles O4: the rows differ in a bit that both compare (`opMap_matches_differ`). -/
theorem rowsAreDisjoint : Obligations.RowsAreDisjoint :=
  fun _ _ _ => opMap_selects_unique

theorem decodeWord_eq_some_iff {w : OpWord} {op : Opcode} :
    decodeWord w = some op ↔ ∃ r ∈ opMap, r.selects w = true ∧ r.opcode = op := by
  rw [decodeWord, Option.map_eq_some_iff]
  constructor
  · rintro ⟨r, hfind, hop⟩
    exact ⟨r, List.mem_of_find?_eq_some hfind, List.find?_some (p := fun r : OpRow => r.selects w) hfind, hop⟩
  · rintro ⟨r, hr, hsel, hop⟩
    obtain ⟨r', hfind⟩ := Option.isSome_iff_exists.mp
      (List.find?_isSome.mpr ⟨r, hr, hsel⟩ : (opMap.find? (fun r => r.selects w)).isSome = true)
    have hsel' : r'.selects w = true := List.find?_some (p := fun r : OpRow => r.selects w) hfind
    have hsame : r' = r := opMap_selects_unique (List.mem_of_find?_eq_some hfind) hr hsel' hsel
    exact ⟨r', hfind, hsame ▸ hop⟩

theorem decodeWord_eq_none_iff {w : OpWord} :
    decodeWord w = none ↔ ∀ r ∈ opMap, ¬ r.selects w = true := by
  rw [decodeWord, Option.map_eq_none_iff, List.find?_eq_none]

/-- Two words of one row with one operand field are the same word. -/
theorem word_eq_of_row_of_field {w w' : OpWord} {op : Opcode} (h : decodeWord w = some op)
    (h' : decodeWord w' = some op) (hfield : w.toNat % 2 ^ operandBits op = w'.toNat % 2 ^ operandBits op) :
    w = w' := by
  obtain ⟨r, hr, hsel, rfl⟩ := decodeWord_eq_some_iff.mp h
  obtain ⟨r', hr', hsel', hop⟩ := decodeWord_eq_some_iff.mp h'
  obtain rfl := opMap_row_unique r' hr' r hr hop
  have hhigh := ((selects_iff_high_bits hr w).mp hsel).trans ((selects_iff_high_bits hr w').mp hsel').symm
  apply BitVec.eq_of_toNat_eq
  rw [← Nat.div_add_mod' w.toNat (2 ^ operandBits r'.opcode), hhigh, hfield, Nat.div_add_mod']

/-! ## The two round trips -/

/-- The encoded op word selects the operation's own row (R52), for every operation. -/
theorem encodedWord_statement (i : Instr) : EncodedWord.Statement i := by
  cases i with
  | fdPoll => exact EncodedWord.fdPoll
  | fdByte b => exact EncodedWord.fdByte b
  | fdReset => exact EncodedWord.fdReset
  | fdXerr => exact EncodedWord.fdXerr
  | leInit => exact EncodedWord.leInit
  | leClear => exact EncodedWord.leClear
  | leBlOn => exact EncodedWord.leBlOn
  | leBlOff => exact EncodedWord.leBlOff
  | lePrintLine line text => exact EncodedWord.lePrintLine line text
  | lePrintLines t1 t2 t3 t4 => exact EncodedWord.lePrintLines t1 t2 t3 t4
  | leLoadGlyphs n rows => exact EncodedWord.leLoadGlyphs n rows
  | dbSample button => exact EncodedWord.dbSample button
  | dbRearm => exact EncodedWord.dbRearm

theorem decodeWord_encodeWord (i : Instr) : decodeWord (encodeWord i) = some (rowOf i) :=
  (encodedWord_statement i).1

/-- The operand field of an encoded word is the operand (R51). -/
theorem assemble_encode (i : Instr) : (rowOf i).assemble (encodeWord i) i.segments = some i := by
  cases i with
  | fdByte b => exact congrArg (fun b => some (Instr.fdByte b)) BitVec.extractLsb'_append_eq_right
  | lePrintLine line text =>
    exact congrArg (fun line => some (Instr.lePrintLine line text)) BitVec.extractLsb'_append_eq_right
  | leLoadGlyphs n rows =>
    exact congrArg (fun n => some (Instr.leLoadGlyphs n rows)) BitVec.extractLsb'_append_eq_right
  | dbSample button => exact congrArg (fun f => some (Instr.dbSample f)) BitVec.extractLsb'_append_eq_right
  | _ => rfl

theorem decode_encode {p : Params} {i : Instr} (hwf : i.wf p = true) : decode p (encode i) = .ok i :=
  (decode_ok_iff p (encode i) i).mpr ⟨rowOf i, decodeWord_encodeWord i, assemble_encode i, hwf⟩

/-- Settles O2: the encoded word selects its own row, and its operand field is the operand. -/
theorem encodedOperationDecodesBack : Obligations.EncodedOperationDecodesBack :=
  fun _ _ => decode_encode

/-- A word written with the operand field of `w` has the low bits of `w`. -/
theorem append_field_mod {m n : Nat} (a : BitVec m) (w : OpWord) :
    (a ++ w.extractLsb' 0 n).toNat % 2 ^ n = w.toNat % 2 ^ n := by
  rw [toNat_append_eq_mul_add, BitVec.extractLsb'_toNat, Nat.shiftRight_zero, Nat.mul_add_mod_self_right,
    Nat.mod_mod]

/-- An assembled operation is of its row, and is written with the operand field of the word it came from. -/
theorem assemble_row_and_field {op : Opcode} {w : OpWord} {segs : List Segment} {i : Instr}
    (h : op.assemble w segs = some i) :
    rowOf i = op ∧ (encodeWord i).toNat % 2 ^ operandBits op = w.toNat % 2 ^ operandBits op := by
  unfold Opcode.assemble at h
  split at h <;> cases h
  case h_2 | h_9 | h_11 | h_12 => exact ⟨rfl, append_field_mod _ w⟩
  all_goals exact ⟨rfl, by simp only [operandBits, pow_zero, Nat.mod_one]⟩

theorem encode_of_decode {p : Params} {c : Command} {i : Instr} (h : decode p c = .ok i) :
    encode i = c ∧ i.wf p = true := by
  obtain ⟨op, hrow, hasm, hwf⟩ := (decode_ok_iff p c i).mp h
  obtain ⟨rfl, hfield⟩ := assemble_row_and_field hasm
  have hword : encodeWord i = c.word := word_eq_of_row_of_field (decodeWord_encodeWord i) hrow hfield
  refine ⟨?_, hwf⟩
  rw [encode, hword, assemble_segments _ _ _ _ hasm]

/-- Settles O3: a word is known from its row and its operand field (`word_eq_of_row_of_field`). -/
theorem decodedCommandEncodesBack : Obligations.DecodedCommandEncodesBack :=
  fun _ _ _ => encode_of_decode

/-- Settles O1: each word is the encoding of its operation, and what is encoded decodes (`decode_encode`). -/
theorem tableWordsDecodeToTheirOperations : Obligations.TableWordsDecodeToTheirOperations :=
  ⟨decode_encode (i := .fdPoll) rfl, decode_encode (i := .fdByte 0x41) rfl, decode_encode (i := .fdReset) rfl,
    decode_encode (i := .fdXerr) rfl, decode_encode (i := .leInit) rfl, decode_encode (i := .leClear) rfl,
    decode_encode (i := .leBlOn) rfl, decode_encode (i := .leBlOff) rfl,
    decode_encode (i := .lePrintLine 3 [0x48, 0x69]) rfl,
    decode_encode (i := .lePrintLines [0x41] [] [0x42] []) rfl,
    decode_encode (i := .leLoadGlyphs 1 [2, 4, 8, 31, 8, 4, 2, 0]) rfl, decode_encode (i := .dbSample 2) rfl,
    decode_encode (i := .dbRearm) rfl⟩

/-! ## The reserved words (R54) -/

/-- The rows as ranges of words: a number in none of them. -/
def OutsideEveryRow (n : Nat) : Prop :=
  n ≠ 0x0000 ∧ n / 256 ≠ 0x04 ∧ n ≠ 0x0800 ∧ n ≠ 0x0C00 ∧ n ≠ 0x4000 ∧ n ≠ 0x4400 ∧ n ≠ 0x4800 ∧ n ≠ 0x4C00 ∧
    n / 8 ≠ 0xA00 ∧ n ≠ 0x5400 ∧ n / 16 ≠ 0x580 ∧ n / 4 ≠ 0x2000 ∧ n ≠ 0x8400

theorem decodeWord_eq_none_iff_outside (w : OpWord) : decodeWord w = none ↔ OutsideEveryRow w.toNat := by
  have hrows : decodeWord w = none ↔ ∀ r ∈ opMap,
      ¬ w.toNat / 2 ^ operandBits r.opcode * 2 ^ operandBits r.opcode = r.value.toNat := by
    rw [decodeWord_eq_none_iff]
    exact forall₂_congr fun r hr => not_congr (selects_iff_high_bits hr w)
  rw [hrows]
  simp only [opMap, List.mem_cons, List.not_mem_nil, or_false, forall_eq_or_imp, forall_eq, operandBits, pow_zero,
    Nat.div_one, mul_one, Nat.reducePow, BitVec.ofNat_eq_ofNat, BitVec.toNat_ofNat, Nat.zero_mod, Nat.reduceMod,
    OutsideEveryRow]
  omega

/-- The fields U, OP and F of a reserved word put it between the rows (R43, R54). -/
theorem reservedWord_iff_outside (w : OpWord) : reservedWord w = true ↔ OutsideEveryRow w.toNat := by
  have hw : w.toNat < 65536 := w.isLt
  simp only [reservedWord, OutsideEveryRow, BitVec.extractLsb'_toNat, Nat.shiftRight_eq_div_pow]
  split
  case h_4 _ hne0 hne1 hne2 =>
    have hu : w.toNat / 2 ^ 14 ≠ 0 ∧ w.toNat / 2 ^ 14 ≠ 1 ∧ w.toNat / 2 ^ 14 ≠ 2 :=
      ⟨fun h => hne0 (by rw [h]), fun h => hne1 (by rw [h]), fun h => hne2 (by rw [h])⟩
    simp only [true_iff]
    omega
  all_goals split_ifs <;> simp only [Bool.or_eq_true, decide_eq_true_eq] <;> omega

/-- The words that no row selects are the reserved ones. -/
theorem decodeWord_eq_none_iff_reserved (w : OpWord) : decodeWord w = none ↔ reservedWord w = true :=
  (decodeWord_eq_none_iff_outside w).trans (reservedWord_iff_outside w).symm

theorem decode_of_decodeWord_none {p : Params} {c : Command} (h : decodeWord c.word = none) :
    decode p c = .error (.illegalOp c.word) := by
  simp [decode, h]

/-- Settles O5: a reserved word is in no row's range, and check 1 of R53 refuses it. -/
theorem reservedWordsAreRefusedAsIllegal : Obligations.ReservedWordsAreRefusedAsIllegal :=
  ⟨decodeWord_eq_none_iff_reserved, fun _ w _ _ hin hres =>
    step_of_decode_error hin (decode_of_decodeWord_none ((decodeWord_eq_none_iff_reserved w).mpr hres))⟩

/-! ## The payload (R45) -/

/-- Check 2 of R53: an operation of the row with these segments, each within SEG_MAX, is what a payload must be. -/
theorem decode_of_bad_payload {p : Params} {c : Command} {op : Opcode} (hrow : decodeWord c.word = some op)
    (hbad : c.segs.length ≠ op.segments ∨ ∃ t ∈ c.segs, p.segMax.toNat < t.length) :
    decode p c = .error (.payloadShape c.word) := by
  cases hasm : op.assemble c.word c.segs with
  | none => simp [decode, hrow, hasm]
  | some i =>
    have hcount : c.segs.length = op.segments := (assemble_isSome op c.word c.segs).mp (by simp [hasm])
    obtain hne | ⟨t, ht, hlong⟩ := hbad
    · exact absurd hcount hne
    · have hwf : i.wf p = false := by
        rw [Instr.wf, assemble_segments _ _ _ _ hasm, List.all_eq_false]
        exact ⟨t, ht, by simpa [segmentOk] using hlong⟩
      simp [decode, hrow, hasm, hwf]

/-- Settles O6: the counts written out are those of the rows, and check 2 of R53 refuses every other payload. -/
theorem malformedPayloadIsRefused : Obligations.MalformedPayloadIsRefused := by
  intro s w segs rest op hin hrow hbad
  refine step_of_decode_error hin (decode_of_bad_payload hrow (hbad.imp_left fun hne => ?_))
  cases op <;> exact hne

end Sys2Proof.Machine
end


section
/-! PROOFS. The texts of the LE (R50, R74): the functional `EscapeParse` reads a text as the longest-token grammar
does, and makes no text longer.

Of the tokens that match at a place at most one is an `escape`, since its digits end at the first byte that is no
digit (`mem_escapeTokens_iff`); so the longest token is the one that the functional form takes
(`escapeStep_eq_longestToken`). -/

namespace Sys2Proof.Machine

/-! ## The longest token -/

theorem foldl_longest_eq {ts : List Token} {x best : Token} (hmax : ∀ y ∈ ts, y = x ∨ y.1 < x.1)
    (hbest : best = x ∨ best.1 < x.1 ∧ x ∈ ts) :
    ts.foldl (fun best x => if best.1 < x.1 then x else best) best = x := by
  induction ts generalizing best with
  | nil =>
    obtain h | ⟨-, h⟩ := hbest
    · exact h
    · cases h
  | cons y ts ih =>
    obtain ⟨hy, hrest⟩ := List.forall_mem_cons.mp hmax
    rw [List.foldl_cons]
    refine ih hrest ?_
    obtain rfl | ⟨hlt, hmem⟩ := hbest
    · have hle : ¬ best.1 < y.1 := by
        obtain rfl | hy := hy <;> omega
      exact .inl (if_neg hle)
    · obtain rfl | hmem := List.mem_cons.mp hmem
      · exact .inl (if_pos hlt)
      · obtain rfl | hy := hy
        · exact .inl (if_pos hlt)
        · refine .inr ⟨?_, hmem⟩
          split <;> assumption

/-- A token that is longer than every other is the longest one. -/
theorem longestToken_eq {ts : List Token} {x : Token} (hmem : x ∈ ts) (hpos : 0 < x.1)
    (hmax : ∀ y ∈ ts, y = x ∨ y.1 < x.1) : longestToken ts = x :=
  foldl_longest_eq hmax (.inr ⟨hpos, hmem⟩)

/-! ## The tokens at a place of a text -/

theorem takeWhile_eq_take_of_stop {α : Type} {f : α → Bool} {r : List α} {k : Nat} {a : α}
    (hall : (r.take k).all f = true) (hstop : r[k]? = some a) (ha : f a = false) :
    r.takeWhile f = r.take k := by
  obtain ⟨hk, hget⟩ := List.getElem?_eq_some_iff.mp hstop
  have hdrop : r.drop k = a :: r.drop (k + 1) := by rw [List.drop_eq_getElem_cons hk, hget]
  calc r.takeWhile f = (r.take k ++ a :: r.drop (k + 1)).takeWhile f := by rw [← hdrop, List.take_append_drop]
    _ = r.take k := by
      rw [List.takeWhile_append_of_pos (List.all_eq_true.mp hall), List.takeWhile_cons_of_neg (by simp [ha]),
        List.append_nil]

theorem not_mem_escapeTokens_of_ne {c : Byte} (hc : c ≠ ampersand) (r : List Byte) (x : Token) :
    x ∉ escapeTokens (c :: r) := by
  simp only [escapeTokens, escapeToken, List.mem_flatMap, List.mem_ite_nil_right, List.head?_cons,
    Option.some.injEq, hc, false_and, and_false, exists_false, not_false_eq_true]

/-- The escapes at the start of a text: at most one, whose digits are all those that follow the `&`. -/
theorem mem_escapeTokens_iff (r : List Byte) (x : Token) :
    x ∈ escapeTokens (ampersand :: r) ↔
      (1 ≤ (r.takeWhile isDigit).length ∧ r[(r.takeWhile isDigit).length]? = some ampersand ∧
        decimalValue (r.takeWhile isDigit) ≤ 255) ∧
      x = ((r.takeWhile isDigit).length + 2, BitVec.ofNat 8 (decimalValue (r.takeWhile isDigit))) := by
  have htake : r.take (r.takeWhile isDigit).length = r.takeWhile isDigit :=
    (List.prefix_iff_eq_take.mp (List.takeWhile_prefix isDigit)).symm
  simp only [escapeTokens, escapeToken, List.mem_flatMap, List.mem_range, List.drop_succ_cons, List.drop_zero,
    List.mem_ite_nil_right, List.mem_singleton, List.getElem?_cons_succ]
  constructor
  · rintro ⟨k, -, ⟨hk, -, hlen, hall, hstop, hval⟩, rfl⟩
    rw [takeWhile_eq_take_of_stop hall hstop (by decide), hlen]
    exact ⟨⟨hk, hstop, hval⟩, rfl⟩
  · rintro ⟨⟨hk, hstop, hval⟩, rfl⟩
    refine ⟨(r.takeWhile isDigit).length, ?_, ⟨hk, rfl, ?_, ?_, hstop, ?_⟩, ?_⟩
    · exact Nat.lt_succ_of_le (List.takeWhile_prefix isDigit).length_le
    · rw [htake]
    · rw [htake]
      exact List.all_takeWhile
    · rwa [htake]
    · rw [htake]

theorem mem_matchingTokens_cons (c : Byte) (r : List Byte) (x : Token) :
    x ∈ matchingTokens (c :: r) ↔
      x = (1, c) ∨ (c = ampersand ∧ r.head? = some ampersand ∧ x = (2, ampersand)) ∨ x ∈ escapeTokens (c :: r) := by
  cases r with
  | nil => simp [matchingTokens, literalTokens, amp2Tokens]
  | cons b r =>
    simp [matchingTokens, literalTokens, amp2Tokens, and_assoc]

/-! ## The functional form takes the longest token -/

/-- Away from `&` the one token is the literal. -/
theorem longestToken_of_ne {c : Byte} (hc : c ≠ ampersand) (r : List Byte) :
    longestToken (matchingTokens (c :: r)) = (1, c) := by
  refine longestToken_eq ((mem_matchingTokens_cons c r _).mpr (.inl rfl)) Nat.one_pos fun y hy => ?_
  obtain rfl | ⟨h, -⟩ | h := (mem_matchingTokens_cons c r y).mp hy
  · exact .inl rfl
  · exact absurd h hc
  · exact absurd h (not_mem_escapeTokens_of_ne hc r y)

/-- After `&&` no escape starts: `&` is no digit. -/
theorem longestToken_of_amp2 (r : List Byte) :
    longestToken (matchingTokens (ampersand :: ampersand :: r)) = (2, ampersand) := by
  refine longestToken_eq ((mem_matchingTokens_cons _ _ _).mpr (.inr (.inl ⟨rfl, rfl, rfl⟩))) Nat.two_pos
    fun y hy => ?_
  obtain rfl | ⟨-, -, rfl⟩ | h := (mem_matchingTokens_cons _ _ y).mp hy
  · exact .inr Nat.one_lt_two
  · exact .inl rfl
  · obtain ⟨⟨hlen, -⟩, -⟩ := (mem_escapeTokens_iff _ y).mp h
    rw [List.takeWhile_cons_of_neg (by decide)] at hlen
    exact absurd hlen (by decide)

section
variable {r : List Byte} (hamp : ¬ r.head? = some ampersand)
include hamp

theorem longestToken_of_escape (hesc : 1 ≤ (r.takeWhile isDigit).length ∧
      r[(r.takeWhile isDigit).length]? = some ampersand ∧ decimalValue (r.takeWhile isDigit) ≤ 255) :
    longestToken (matchingTokens (ampersand :: r)) =
      ((r.takeWhile isDigit).length + 2, BitVec.ofNat 8 (decimalValue (r.takeWhile isDigit))) := by
  refine longestToken_eq ((mem_matchingTokens_cons _ _ _).mpr (.inr (.inr ((mem_escapeTokens_iff r _).mpr
    ⟨hesc, rfl⟩)))) (Nat.succ_pos _) fun y hy => ?_
  obtain rfl | ⟨-, h, -⟩ | h := (mem_matchingTokens_cons _ _ y).mp hy
  · exact .inr (Nat.succ_lt_succ (Nat.succ_pos _))
  · exact absurd h hamp
  · exact .inl ((mem_escapeTokens_iff r y).mp h).2

theorem longestToken_of_lone (hesc : ¬ (1 ≤ (r.takeWhile isDigit).length ∧
      r[(r.takeWhile isDigit).length]? = some ampersand ∧ decimalValue (r.takeWhile isDigit) ≤ 255)) :
    longestToken (matchingTokens (ampersand :: r)) = (1, ampersand) := by
  refine longestToken_eq ((mem_matchingTokens_cons _ r _).mpr (.inl rfl)) Nat.one_pos fun y hy => ?_
  obtain rfl | ⟨-, h, -⟩ | h := (mem_matchingTokens_cons _ _ y).mp hy
  · exact .inl rfl
  · exact absurd h hamp
  · exact absurd ((mem_escapeTokens_iff r y).mp h).1 hesc

end

theorem escapeStep_eq_longestToken (c : Byte) (r : List Byte) (rest : List Byte → List Byte) :
    escapeStep c r rest =
      (longestToken (matchingTokens (c :: r))).2 ::
        rest ((c :: r).drop (longestToken (matchingTokens (c :: r))).1) := by
  unfold escapeStep
  split_ifs with hc hamp hesc
  · rw [longestToken_of_ne hc]
    rfl
  all_goals obtain rfl := not_not.mp hc
  · obtain ⟨r', rfl⟩ := List.head?_eq_some_iff.mp hamp
    rw [longestToken_of_amp2]
    rfl
  · rw [longestToken_of_escape hamp hesc]
    rfl
  · rw [longestToken_of_lone hamp hesc]
    rfl

/-- Settles O32, by induction on the fuel that both parsers run on. -/
theorem escapeParseIsTheLongestTokenGrammar : Obligations.EscapeParseIsTheLongestTokenGrammar := by
  have hfuel : ∀ (fuel : Nat) (t : List Byte), escapeParseFuel fuel t = grammarParseFuel fuel t := by
    intro fuel
    induction fuel with
    | zero => exact fun _ => rfl
    | succ fuel ih =>
      intro t
      cases t with
      | nil => rfl
      | cons c r =>
        rw [escapeParseFuel_succ_cons, escapeStep_eq_longestToken, grammarParseFuel, ih]
  exact fun t => hfuel t.length t

/-! ## No text grows (R74) -/

theorem escapeStep_length_le (c : Byte) (r : List Byte) {rest : List Byte → List Byte}
    (h : ∀ t : List Byte, (rest t).length ≤ t.length) : (escapeStep c r rest).length ≤ r.length + 1 := by
  have hdrop : ∀ k, (rest (r.drop k)).length ≤ r.length := fun k =>
    (h _).trans ((List.drop_sublist k r).length_le)
  have hall : (rest r).length ≤ r.length := h r
  have htail : (rest r.tail).length ≤ r.length := (h _).trans (List.tail_sublist r).length_le
  unfold escapeStep
  split_ifs <;> simp [hall, htail, hdrop]

theorem escapeParse_length_le (t : List Byte) : (escapeParse t).length ≤ t.length := by
  have hfuel : ∀ (fuel : Nat) (t : List Byte), (escapeParseFuel fuel t).length ≤ t.length := by
    intro fuel
    induction fuel with
    | zero => exact fun t => Nat.zero_le _
    | succ fuel ih =>
      intro t
      cases t with
      | nil => exact Nat.le_refl 0
      | cons c r => exact escapeStep_length_le c r ih
  exact hfuel t.length t

end Sys2Proof.Machine
end


section
/-! PROOFS. The operations of the LE (R76 to R82, R122): what they leave, what a receiver takes from their bus items,
and the counts in their events; and the hexadecimal digits of R47.

A strobe leaves the receiver with no enable bit held, so that what it reads from a list of items is read item group
by item group (`receivedBytes_sendByte_append`). -/

namespace Sys2Proof.Machine

/-! ## Hexadecimal digits (R47) -/

theorem isHex_iff (p : Params) (b : Byte) :
    isHex p b = true ↔ (0x30 ≤ b.toNat ∧ b.toNat ≤ 0x39) ∨ (0x41 ≤ b.toNat ∧ b.toNat ≤ 0x46) ∨
      (p.hexLowerOk = true ∧ 0x61 ≤ b.toNat ∧ b.toNat ≤ 0x66) := by
  simp only [isHex, Bool.or_eq_true, Bool.and_eq_true, decide_eq_true_eq, or_assoc]

theorem hexVal_toNat_decimal {b : Byte} (h : 0x30 ≤ b.toNat ∧ b.toNat ≤ 0x39) :
    (hexVal b).toNat = b.toNat - 0x30 := by
  rw [hexVal, if_pos h.2, BitVec.toNat_ofNat]
  omega

theorem hexVal_toNat_upper {b : Byte} (h : 0x41 ≤ b.toNat ∧ b.toNat ≤ 0x46) :
    (hexVal b).toNat = b.toNat - 0x37 := by
  rw [hexVal, if_neg (by omega), if_pos h.2, BitVec.toNat_ofNat]
  omega

theorem hexVal_toNat_lower {b : Byte} (h : 0x61 ≤ b.toNat ∧ b.toNat ≤ 0x66) :
    (hexVal b).toNat = b.toNat - 0x57 := by
  rw [hexVal, if_neg (by omega), if_neg (by omega), BitVec.toNat_ofNat]
  omega

theorem isHex_startCode (p : Params) : isHex p Config.startCode = false := by
  simp [← Bool.not_eq_true, isHex_iff]

theorem isHex_endCode (p : Params) : isHex p Config.endCode = false := by
  simp [← Bool.not_eq_true, isHex_iff]

/-- Settles O16, range by range. -/
theorem hexDigitsAreTheAsciiOnes : Obligations.HexDigitsAreTheAsciiOnes :=
  ⟨isHex_iff, fun _ => hexVal_toNat_decimal, fun _ => hexVal_toNat_upper, fun _ => hexVal_toNat_lower,
    fun p => ⟨isHex_startCode p, isHex_endCode p⟩⟩

/-! ## LE_LOAD_GLYPHS (R82) and the teardown (R122) -/

theorem glyphCountOk_iff (p : Params) (n : BitVec 4) :
    glyphCountOk p n = true ↔ 1 ≤ n.toNat ∧ n.toNat ≤ p.maxGlyphs.toNat := decide_eq_true_iff

theorem glyphLengthOk_iff (n : BitVec 4) (rows : Segment) :
    glyphLengthOk n rows = true ↔ rows.length = 8 * n.toNat := decide_eq_true_iff

theorem exec_leLoadGlyphs (n : BitVec 4) (rows : Segment) (s : State) :
    exec (.leLoadGlyphs n rows) s = execLeLoadGlyphs n rows s := by
  rfl

/-- Settles O38: the three cases of `execLeLoadGlyphs_cases`, told apart by the two checks. -/
theorem loadGlyphsSendsRowsAndSetsTheCount : Obligations.LoadGlyphsSendsRowsAndSetsTheCount := by
  intro s n rows
  simp only [exec_leLoadGlyphs]
  obtain ⟨hn, hx⟩ | ⟨hn, hl, hx⟩ | ⟨hn, hl, hx⟩ := execLeLoadGlyphs_cases s n rows
  · rw [← Bool.not_eq_true, glyphCountOk_iff] at hn
    exact ⟨fun _ => hx, fun h1 h2 => absurd ⟨h1, h2⟩ hn, fun h1 h2 => absurd ⟨h1, h2⟩ hn⟩
  · rw [glyphCountOk_iff] at hn
    rw [← Bool.not_eq_true, glyphLengthOk_iff] at hl
    exact ⟨fun h => absurd hn (by omega), fun _ _ _ => hx, fun _ _ h => absurd h hl⟩
  · rw [glyphCountOk_iff] at hn
    rw [glyphLengthOk_iff] at hl
    refine ⟨fun h => absurd hn (by omega), fun _ _ h => absurd hl h, fun _ _ _ => ⟨_, hx, ?_, rfl⟩⟩
    exact (leStat_bits _).2.1

/-- A transfer of no signal is the byte 0, whatever the expander bit map. -/
theorem xferByte_of_all_zero (p : Params) : xferByte p false 0 false false = 0 := by
  simp [xferByte, bitAt]

/-- Settles O43: LE_BL_OFF emits the transfer of no signal last. -/
theorem teardownLeavesTheDisplayDark : Obligations.TeardownLeavesTheDisplayDark := by
  refine ⟨rfl, fun s _ => ⟨_, rfl, ?_, rfl⟩⟩
  change (_ ++ [BusItem.xfer (xferByte s.params false 0 false false)]).getLast? = _
  rw [List.getLast?_concat, xferByte_of_all_zero]

/-! ## What a receiver takes from the bus (R31, R48, R71, R72) -/

theorem receivedBytes_nil (m : ExpanderMap) : receivedBytes m [] = [] := rfl

theorem receivedBytes_wait_cons (m : ExpanderMap) (k : WaitKind) (r : List BusItem) :
    receivedBytes m (.wait k :: r) = receivedBytes m r := rfl

/-- A transfer is held while its enable bit is 1, and what was held is taken when the bit is 0. -/
theorem strobes_xfer_cons (m : ExpanderMap) (held : Option (Nibble × Bool)) (b : Byte) (r : List BusItem) :
    strobes m held (.xfer b :: r) =
      if b.getLsbD m.en.val then strobes m (some (carried m b)) r else held.toList ++ strobes m none r := by
  cases held <;> simp [strobes]

theorem nibbles_append (v : Byte) : v.extractLsb' 4 4 ++ v.extractLsb' 0 4 = v :=
  BitVec.extractLsb'_append_extractLsb' (w := 4) (len := 4)

section
variable {p : Params} (hwf : p.wf)
include hwf

theorem strobes_enable_cons (bl : Bool) (n : Nibble) (rs : Bool) (held : Option (Nibble × Bool))
    (r : List BusItem) :
    strobes p.expander held (.xfer (xferByte p bl n true rs) :: r) = strobes p.expander (some (n, rs)) r := by
  rw [strobes_xfer_cons, xferByte_en p bl n true rs hwf, if_pos rfl, carried_xferByte p bl n true rs hwf]

theorem strobes_disable_cons (bl : Bool) (n : Nibble) (rs : Bool) (held : Option (Nibble × Bool))
    (r : List BusItem) :
    strobes p.expander held (.xfer (xferByte p bl n false rs) :: r) =
      held.toList ++ strobes p.expander none r := by
  rw [strobes_xfer_cons, xferByte_en p bl n false rs hwf, if_neg Bool.false_ne_true]

/-- A strobe, with or without its set-up write, is one nibble, and leaves no enable bit held. -/
theorem strobes_sendNibble_append (bl : Bool) (n : Nibble) (rs : Bool) (r : List BusItem) :
    strobes p.expander none (sendNibble p bl n rs ++ r) = (n, rs) :: strobes p.expander none r := by
  have hstrobe : strobes p.expander none
      (.xfer (xferByte p bl n true rs) :: .wait .enHigh :: .xfer (xferByte p bl n false rs) :: .wait .enLow :: r) =
        (n, rs) :: strobes p.expander none r := by
    rw [strobes_enable_cons hwf, strobes, strobes_disable_cons hwf]
    rfl
  rw [sendNibble]
  split
  · exact (strobes_disable_cons hwf bl n rs none _).trans hstrobe
  · exact hstrobe

theorem receivedBytes_sendByte_append (bl : Bool) (v : Byte) (rs : Bool) (r : List BusItem) :
    receivedBytes p.expander (sendByte p bl v rs ++ r) = (v, rs) :: receivedBytes p.expander r := by
  rw [receivedBytes, sendByte, List.append_assoc, strobes_sendNibble_append hwf, strobes_sendNibble_append hwf,
    pairNibbles, nibbles_append, receivedBytes]

theorem receivedBytes_sendCmd_append (bl : Bool) (v : Byte) (r : List BusItem) :
    receivedBytes p.expander (sendCmd p bl v ++ r) = (v, false) :: receivedBytes p.expander r :=
  receivedBytes_sendByte_append hwf bl v false r

theorem receivedBytes_flatMap_sendData_append (bl : Bool) (codes : List Byte) (r : List BusItem) :
    receivedBytes p.expander (codes.flatMap (sendData p bl) ++ r) =
      codes.map (fun c => (c, true)) ++ receivedBytes p.expander r := by
  induction codes with
  | nil => rfl
  | cons c codes ih =>
    rw [List.flatMap_cons, List.append_assoc, sendData, receivedBytes_sendByte_append hwf, ih]
    rfl

theorem receivedBytes_renderLine_append (bl : Bool) {line : BitVec 3} {addr : BitVec 7}
    (ha : lineAddr p line = some addr) (t : Segment) (r : List BusItem) :
    receivedBytes p.expander ((renderLine p bl line addr t).1 ++ r) =
      displayBytes.lineBytes p line t ++ receivedBytes p.expander r := by
  rw [renderLine, List.append_assoc, receivedBytes_sendCmd_append hwf, receivedBytes_flatMap_sendData_append hwf,
    displayBytes.lineBytes, ha]
  rfl

theorem receivedBytes_renderLines (bl : Bool) (t1 t2 t3 t4 : Segment) :
    receivedBytes p.expander (renderLines p bl t1 t2 t3 t4).1 = displayBytes p (.lePrintLines t1 t2 t3 t4) := by
  have hitems : (renderLines p bl t1 t2 t3 t4).1 =
      (renderLine p bl 1 p.lineAddrs.line1 t1).1 ++ ((renderLine p bl 2 p.lineAddrs.line2 t2).1 ++
        ((renderLine p bl 3 p.lineAddrs.line3 t3).1 ++ ((renderLine p bl 4 p.lineAddrs.line4 t4).1 ++ []))) := by
    simp [renderLines]
  rw [hitems, receivedBytes_renderLine_append hwf bl rfl, receivedBytes_renderLine_append hwf bl rfl,
    receivedBytes_renderLine_append hwf bl rfl, receivedBytes_renderLine_append hwf bl rfl, receivedBytes_nil]
  simp [displayBytes]

theorem receivedBytes_glyphItems (bl : Bool) (n : BitVec 4) (rows : Segment) :
    receivedBytes p.expander (glyphItems p bl rows) = displayBytes p (.leLoadGlyphs n rows) := by
  rw [glyphItems, receivedBytes_sendCmd_append hwf, ← List.append_nil (rows.flatMap _),
    receivedBytes_flatMap_sendData_append hwf, receivedBytes_nil, List.append_nil, displayBytes]

theorem receivedBytes_clearItems (bl : Bool) :
    receivedBytes p.expander (clearItems p bl) = displayBytes p .leClear := by
  rw [clearItems, receivedBytes_sendCmd_append hwf]
  rfl

/-- The four single strobes of LE_INIT pair up as two bytes, so that the commands after them are read in step. -/
theorem receivedBytes_initItems (bl : Bool) : receivedBytes p.expander (initItems p bl) = displayBytes p .leInit := by
  have hfirst : ∀ r : List BusItem, receivedBytes p.expander
      (sendNibble p bl 0x3 false ++ .wait .init1 :: (sendNibble p bl 0x3 false ++ .wait .init2 ::
        (sendNibble p bl 0x3 false ++ .wait .init2 :: (sendNibble p bl 0x2 false ++ r)))) =
      (0x33, false) :: (0x32, false) :: receivedBytes p.expander r := by
    intro r
    simp only [receivedBytes, strobes_sendNibble_append hwf, strobes, pairNibbles]
    rfl
  have hitems : initItems p bl =
      sendNibble p bl 0x3 false ++ .wait .init1 :: (sendNibble p bl 0x3 false ++ .wait .init2 ::
        (sendNibble p bl 0x3 false ++ .wait .init2 :: (sendNibble p bl 0x2 false ++ (sendCmd p bl 0x28 ++
          (sendCmd p bl 0x0C ++ (sendCmd p bl 0x01 ++ .wait .clear :: (sendCmd p bl 0x06 ++ []))))))) := by
    simp [initItems]
  rw [hitems, hfirst, receivedBytes_sendCmd_append hwf, receivedBytes_sendCmd_append hwf,
    receivedBytes_sendCmd_append hwf, receivedBytes_wait_cons, receivedBytes_sendCmd_append hwf]
  rfl

/-- One transfer with the enable bit 0 and none held before it is no strobe. -/
theorem receivedBytes_backlight (on : Bool) :
    receivedBytes p.expander [.xfer (xferByte p on 0x0 false false)] = [] := by
  rw [receivedBytes, strobes_disable_cons hwf]
  rfl

/-- What an accepted operation of the LE appends is received as the bytes the rules give. -/
theorem leEffect_received (le : LeState) {i : Instr} (hu : i.unit = .le) (hlegal : i.legal p = true) :
    ∃ items, (leEffect p le i).1.log = le.log ++ items ∧ receivedBytes p.expander items = displayBytes p i := by
  cases i with
  | leInit => exact ⟨_, rfl, receivedBytes_initItems hwf le.bl⟩
  | leClear => exact ⟨_, rfl, receivedBytes_clearItems hwf le.bl⟩
  | leBlOn => exact ⟨_, rfl, receivedBytes_backlight hwf true⟩
  | leBlOff => exact ⟨_, rfl, receivedBytes_backlight hwf false⟩
  | lePrintLine line text =>
    obtain ⟨addr, ha⟩ := Option.isSome_iff_exists.mp ((lineAddr_isSome p line).trans hlegal)
    refine ⟨(renderLine p le.bl line addr text).1, by simp [leEffect, printLineEffect, ha], ?_⟩
    rw [← List.append_nil (renderLine _ _ _ _ _).1, receivedBytes_renderLine_append hwf le.bl ha,
      receivedBytes_nil, List.append_nil, displayBytes]
  | lePrintLines t1 t2 t3 t4 => exact ⟨_, rfl, receivedBytes_renderLines hwf le.bl t1 t2 t3 t4⟩
  | leLoadGlyphs n rows =>
    obtain ⟨hn, hl⟩ := Bool.and_eq_true_iff.mp hlegal
    exact ⟨_, by simp [leEffect, loadGlyphsEffect, hn, hl], receivedBytes_glyphItems hwf le.bl n rows⟩
  | _ => cases hu

end

theorem displayBytes_of_not_le (p : Params) {i : Instr} (hu : i.unit ≠ .le) : displayBytes p i = [] := by
  cases i with
  | fdPoll | fdByte | fdReset | fdXerr | dbSample | dbRearm => rfl
  | _ => exact absurd rfl hu

/-- Settles O39: the items of the LE by `leEffect_received`; the FD and the DB emit none. -/
theorem displayReceivesTheCommandsAndData : Obligations.DisplayReceivesTheCommandsAndData := by
  intro s i hwf hlegal
  by_cases hu : i.unit = .le
  · obtain ⟨items, hlog, hrecv⟩ := leEffect_received hwf s.le hu hlegal
    exact ⟨_, items, exec_of_le hu s, hlog, hrecv⟩
  · obtain ⟨t, -, hx, -⟩ := exec_appends i s
    obtain ⟨-, hle, -⟩ := exec_other_units hx
    exact ⟨t, [], hx, by rw [hle hu, List.append_nil], by rw [displayBytes_of_not_le _ hu, receivedBytes_nil]⟩

/-! ## The counts in the events (R92) -/

/-- The count that an event carries in its info, if any (R92). -/
def eventCount : Event → Nat
  | .leTruncated _ dropped => dropped
  | .leGlyphLength _ len => len
  | _ => 0

theorem fdReceive_eventCount {p : Params} {fd : FdState} {b : Byte} {e : Event} (he : e ∈ (fdReceive p fd b).2) :
    eventCount e = 0 := by
  obtain ⟨-, hx⟩ | ⟨-, -, -, hx⟩ | ⟨-, -, -, hx⟩ | ⟨-, -, -, -, hx⟩ | ⟨-, -, -, -, hx⟩ | ⟨-, -, -, hx⟩ |
    ⟨-, -, -, -, hx⟩ | ⟨-, -, -, -, hx⟩ := fdReceive_cases p fd b <;> rw [hx] at he
  case inl | inr.inl | inr.inr.inr.inl => cases he
  all_goals
    obtain rfl := List.mem_singleton.mp he
    rfl

theorem fdEffect_eventCount {p : Params} {fd : FdState} {i : Instr} {e : Event} (he : e ∈ (fdEffect p fd i).2) :
    eventCount e = 0 := by
  cases i with
  | fdByte b => exact fdReceive_eventCount he
  | fdXerr =>
    obtain rfl := List.mem_singleton.mp he
    rfl
  | _ => cases he

theorem dbEffect_eventCount {p : Params} {levels : Button → Bool × Bool} {db : DbState} {i : Instr} {e : Event}
    (he : e ∈ (dbEffect p levels db i).2) : eventCount e = 0 := by
  cases i with
  | dbSample button =>
    cases hb : buttonOf button with
    | none =>
      simp only [dbEffect, sampleEffect, hb, List.mem_singleton] at he
      subst he
      rfl
    | some b =>
      simp only [dbEffect, sampleEffect, hb, dbSampled, List.mem_ite_nil_right, List.mem_singleton] at he
      obtain ⟨-, rfl⟩ := he
      rfl
  | _ => cases he

/-- What is dropped from a line is no longer than its text (R75). -/
theorem renderLine_eventCount {p : Params} {bl : Bool} {line : BitVec 3} {addr : BitVec 7} {t : Segment} {e : Event}
    (he : e ∈ (renderLine p bl line addr t).2) : eventCount e ≤ t.length := by
  simp only [renderLine, List.mem_ite_nil_right, List.mem_singleton] at he
  obtain ⟨-, rfl⟩ := he
  exact (Nat.sub_le _ _).trans (escapeParse_length_le t)

/-- A count in an event of the LE is at most the length of a payload segment (R75, R82). -/
theorem leEffect_eventCount {p : Params} {le : LeState} {i : Instr} {e : Event} (he : e ∈ (leEffect p le i).2) :
    eventCount e = 0 ∨ ∃ t ∈ i.segments, eventCount e ≤ t.length := by
  cases i with
  | lePrintLine line text =>
    cases ha : lineAddr p line with
    | none =>
      simp only [leEffect, printLineEffect, ha, List.mem_singleton] at he
      subst he
      exact .inl rfl
    | some addr =>
      simp only [leEffect, printLineEffect, ha] at he
      exact .inr ⟨text, List.mem_singleton_self text, renderLine_eventCount he⟩
  | lePrintLines t1 t2 t3 t4 =>
    simp only [leEffect, renderLines, List.mem_append, or_assoc] at he
    obtain h | h | h | h := he <;> exact .inr ⟨_, by simp [Instr.segments], renderLine_eventCount h⟩
  | leLoadGlyphs n rows =>
    simp only [leEffect, loadGlyphsEffect] at he
    split_ifs at he
    · obtain rfl := List.mem_singleton.mp he
      exact .inl rfl
    · obtain rfl := List.mem_singleton.mp he
      exact .inr ⟨rows, List.mem_singleton_self rows, Nat.le_refl _⟩
    · cases he
  | _ => cases he

theorem exec_eventCount_le {i : Instr} {s t : State} {e : Event} (hwf : i.wf s.params = true)
    (hx : exec i s = .next t) (he : e ∈ t.events) : eventCount e ≤ s.params.segMax.toNat := by
  cases hu : i.unit with
  | fd =>
    rw [exec_of_fd hu] at hx
    cases hx
    exact (fdEffect_eventCount he).trans_le (Nat.zero_le _)
  | le =>
    rw [exec_of_le hu] at hx
    cases hx
    obtain hzero | ⟨t, ht, hle⟩ := leEffect_eventCount he
    · exact hzero.trans_le (Nat.zero_le _)
    · exact hle.trans (of_decide_eq_true (List.all_eq_true.mp hwf t ht))
  | db =>
    rw [exec_of_db hu] at hx
    cases hx
    exact (dbEffect_eventCount he).trans_le (Nat.zero_le _)

/-- Settles O42: a count is at most the length of a segment (`exec_eventCount_le`), and SEG_MAX has eight bits. -/
theorem truncationCountsFitTheirField : Obligations.TruncationCountsFitTheirField := by
  refine ⟨escapeParse_length_le, fun s t c i hdec hx => ?_⟩
  obtain ⟨-, hwf⟩ := encode_of_decode hdec
  have hcount : ∀ e ∈ t.events, eventCount e ≤ s.params.segMax.toNat ∧ eventCount e < 256 := fun e he =>
    ⟨exec_eventCount_le hwf hx he, (exec_eventCount_le hwf hx he).trans_lt s.params.segMax.isLt⟩
  exact ⟨fun n d he => hcount (.leTruncated n d) he, fun n d he => hcount (.leGlyphLength n d) he⟩

end Sys2Proof.Machine
end


section
/-! PROOFS. The assembled frame (R46, R57): `fd.frame` makes a valid frame, and the FD takes a valid frame for a tag.

`FdState.HasDigits` says which digits of a frame the FD has taken; a START_CODE gives it for no digits
(`fdReceive_startCode`), each hexadecimal digit adds one (`fdReceive_digit`), and with twelve the END_CODE completes
the frame. -/

namespace Sys2Proof.Machine

/-! ## The bytes of an assembled frame -/

theorem hexVal_upperHexDigit : ∀ n : Nibble, hexVal (upperHexDigit n) = n := by decide

theorem isHex_upperHexDigit (p : Params) (n : Nibble) : isHex p (upperHexDigit n) = true := by
  have hrange : ∀ n : Nibble, (0x30 ≤ (upperHexDigit n).toNat ∧ (upperHexDigit n).toNat ≤ 0x39) ∨
      (0x41 ≤ (upperHexDigit n).toNat ∧ (upperHexDigit n).toNat ≤ 0x46) := by decide
  exact (isHex_iff p _).mpr (or_assoc.mp (.inl (hrange n)))

/-- The two checksum digits of an assembled frame stand for the exclusive or of its payload bytes (R59). -/
theorem hexPair_upperHexDigits (c : Byte) :
    hexPair (upperHexDigit (c.extractLsb' 4 4)) (upperHexDigit (c.extractLsb' 0 4)) = c := by
  rw [hexPair, hexVal_upperHexDigit, hexVal_upperHexDigit, nibbles_append]

theorem validFrame_frameBytes {p : Params} {ds : List Byte} (hlen : ds.length = 10)
    (hhex : ds.all (isHex p) = true) : validFrame p (frameBytes ds) = true := by
  match ds, hlen with
  | [d0, d1, d2, d3, d4, d5, d6, d7, d8, d9], _ =>
    have hsum : xorOfPairs [d0, d1, d2, d3, d4, d5, d6, d7, d8, d9] =
        hexPair d0 d1 ^^^ hexPair d2 d3 ^^^ hexPair d4 d5 ^^^ hexPair d6 d7 ^^^ hexPair d8 d9 := by
      simp [xorOfPairs, hexPair, digitPair, BitVec.xor_assoc]
    simp only [List.all_cons, List.all_nil, Bool.and_true, Bool.and_eq_true] at hhex
    simp only [frameBytes, hsum, validFrame, List.cons_append, List.nil_append, List.all_cons, List.all_nil,
      hexPair_upperHexDigits, isHex_upperHexDigit, hhex, decide_true, Bool.and_true]

/-! ## The digits that the FD has taken -/

/-- The FD is within a frame, and has taken these digits of it (R11, R12). -/
structure FdState.HasDigits (fd : FdState) (ds : List Nibble) : Prop where
  mode : fd.mode = .acc
  idx : fd.idx.toNat = ds.length + 1
  dig : fd.dig.toList.take ds.length = ds

section
variable {p : Params} {fd : FdState}

/-- A START_CODE begins a frame whatever came before: at index 0 as its first byte, elsewhere as a frame error. -/
theorem fdReceive_startCode (p : Params) (hm : fd.mode = .acc) :
    (fdReceive p fd Config.startCode).1.HasDigits [] ∧
      (fdReceive p fd Config.startCode).2.countP isTagOk = 0 := by
  have hstart : isHex p Config.startCode = false := isHex_startCode p
  have hend : Config.startCode ≠ Config.endCode := by decide
  obtain ⟨h, -⟩ | ⟨-, -, -, hx⟩ | ⟨-, -, h, -⟩ | ⟨-, -, -, h, -⟩ | ⟨-, -, -, -, hx⟩ | ⟨-, -, -, hx⟩ |
    ⟨-, -, h, -⟩ | ⟨-, -, h, -⟩ := fdReceive_cases p fd Config.startCode
  · simp [hm] at h
  · rw [hx]
    exact ⟨⟨hm, rfl, rfl⟩, rfl⟩
  · exact absurd rfl h
  · rw [hstart] at h
    cases h
  · rw [hx]
    exact ⟨⟨hm, rfl, rfl⟩, rfl⟩
  · rw [hx]
    exact ⟨⟨hm, rfl, rfl⟩, rfl⟩
  · exact absurd h hend
  · exact absurd h hend

/-- A hexadecimal digit within a frame is taken as the next digit (R62). -/
theorem fdReceive_digit {ds : List Nibble} {b : Byte} (h : fd.HasDigits ds) (hlen : ds.length < 12)
    (hb : isHex p b = true) :
    (fdReceive p fd b).1.HasDigits (ds ++ [hexVal b]) ∧ (fdReceive p fd b).2 = [] := by
  obtain ⟨hm, hidx, hdig⟩ := h
  have hne : ¬ fd.idx = 0#4 := fun hz => by simp [hz] at hidx
  have hx : fdReceive p fd b = acceptDigit b fd := by
    simp [fdReceive, hm, hne, hb, show fd.idx.toNat ≤ 12 by omega]
  rw [hx]
  refine ⟨⟨hm, ?_, ?_⟩, rfl⟩
  · simp only [acceptDigit, BitVec.toNat_add, BitVec.ofNat_eq_ofNat, BitVec.toNat_ofNat, hidx, List.length_append,
      List.length_singleton]
    omega
  · simp only [acceptDigit, hidx, Nat.add_sub_cancel, Vector.toList_setIfInBounds, List.length_append,
      List.length_singleton]
    rw [List.take_succ_eq_append_getElem (by simpa using hlen), List.getElem_set_self,
      List.take_set_of_le (Nat.le_refl _), hdig]

/-- With twelve digits taken and the checksum right, the END_CODE completes the frame (R62). -/
theorem fdReceive_endCode {ds : List Nibble} (p : Params) (h : fd.HasDigits ds) (hlen : ds.length = 12)
    (hc : checksumOk fd.dig = true) : fdReceive p fd Config.endCode = completeFrame fd := by
  obtain ⟨hm, hidx, -⟩ := h
  have hne : ¬ fd.idx = 0#4 := fun hz => by simp [hz] at hidx
  simp [fdReceive, hm, hne, hidx, hlen, hc]

/-- The checksum of the digits taken, when they are all there (R59). -/
theorem checksumOk_of_hasDigits {n0 n1 n2 n3 n4 n5 n6 n7 n8 n9 c0 c1 : Nibble}
    (h : fd.HasDigits [n0, n1, n2, n3, n4, n5, n6, n7, n8, n9, c0, c1])
    (hsum : n0 ++ n1 ^^^ n2 ++ n3 ^^^ n4 ++ n5 ^^^ n6 ++ n7 ^^^ n8 ++ n9 = c0 ++ c1) :
    checksumOk fd.dig = true := by
  have hdig : fd.dig = #v[n0, n1, n2, n3, n4, n5, n6, n7, n8, n9, c0, c1] := by
    rw [← Vector.toList_inj]
    exact (List.take_of_length_le (by simp)).symm.trans h.dig
  rw [checksumOk, beq_iff_eq, hdig]
  exact (congrArg (· ^^^ _ ^^^ _ ^^^ _ ^^^ _) (BitVec.zero_xor)).trans hsum

end

/-! ## The tags that a frame raises -/

/-- The tags of a run that begins with a byte: those of the byte, and those of the rest. -/
theorem tagOkCount_fdByte_cons (b : Byte) (is : List Instr) (s : State) :
    tagOkCount (.fdByte b :: is) s = (fdReceive s.params s.fd b).2.countP isTagOk +
      tagOkCount is (s.setFd (fdReceive s.params s.fd b).1 (fdReceive s.params s.fd b).2) := by
  simp [tagOkCount, eventsOf, statesAfter, exec, execFdByte]

/-- Digits within a frame raise no tag and are taken one after the other. -/
theorem tagOkCount_digits {bs : List Byte} (is : List Instr) {s : State} {ds : List Nibble}
    (h : s.fd.HasDigits ds) (hlen : ds.length + bs.length ≤ 12) (hhex : ∀ b ∈ bs, isHex s.params b = true) :
    ∃ t, tagOkCount (bs.map .fdByte ++ is) s = tagOkCount is t ∧ t.params = s.params ∧
      t.fd.HasDigits (ds ++ bs.map hexVal) := by
  induction bs generalizing s ds with
  | nil => exact ⟨s, rfl, rfl, by simpa using h⟩
  | cons b bs ih =>
    obtain ⟨hb, hbs⟩ := List.forall_mem_cons.mp hhex
    rw [List.length_cons] at hlen
    obtain ⟨hnext, hnone⟩ := fdReceive_digit h (by omega) hb
    obtain ⟨t, hcount, hp, ht⟩ := ih (s := s.setFd (fdReceive s.params s.fd b).1 (fdReceive s.params s.fd b).2)
      hnext (by rw [List.length_append, List.length_singleton]; omega) hbs
    refine ⟨t, ?_, hp, by simpa using ht⟩
    rw [List.map_cons, List.cons_append, tagOkCount_fdByte_cons, hcount, hnone, List.countP_nil, Nat.zero_add]

/-- From every state in mode ACC a valid frame raises one tag (R46, R62). -/
theorem tagOkCount_validFrame {f : List Byte} {s : State} (hf : validFrame s.params f = true)
    (hm : s.fd.mode = .acc) : tagOkCount (f.map .fdByte) s = 1 := by
  unfold validFrame at hf
  split at hf
  case h_2 => cases hf
  case h_1 st d0 d1 d2 d3 d4 d5 d6 d7 d8 d9 c0 c1 en =>
    simp only [Bool.and_eq_true, decide_eq_true_eq] at hf
    obtain ⟨⟨⟨rfl, rfl⟩, hhex⟩, hsum⟩ := hf
    obtain ⟨hstart, hzero⟩ := fdReceive_startCode s.params hm
    obtain ⟨t, hdigits, hp, ht⟩ := tagOkCount_digits (bs := [d0, d1, d2, d3, d4, d5, d6, d7, d8, d9, c0, c1])
      [.fdByte Config.endCode]
      (s := s.setFd (fdReceive s.params s.fd Config.startCode).1 (fdReceive s.params s.fd Config.startCode).2)
      hstart (Nat.le_refl 12) (List.all_eq_true.mp hhex)
    have hend : fdReceive t.params t.fd Config.endCode = completeFrame t.fd :=
      fdReceive_endCode t.params ht rfl (checksumOk_of_hasDigits ht hsum)
    calc tagOkCount (([0x02, d0, d1, d2, d3, d4, d5, d6, d7, d8, d9, c0, c1, 0x03] : List Byte).map .fdByte) s
      _ = 0 + tagOkCount [.fdByte Config.endCode] t := by
        rw [← hdigits, ← hzero]
        exact tagOkCount_fdByte_cons _ _ s
      _ = 1 := by
        rw [tagOkCount_fdByte_cons, hend]
        rfl

/-- Settles O51: the frame is valid (`validFrame_frameBytes`), and a valid frame raises one tag. -/
theorem assembledFrameIsValid : Obligations.AssembledFrameIsValid := by
  intro ds hlen hhex
  have hvalid : validFrame .standard (frameBytes ds) = true := validFrame_frameBytes hlen hhex
  refine ⟨rfl, by simp [frameBytes, hlen], ?_, hvalid, fun s hp hm => tagOkCount_validFrame (hp ▸ hvalid) hm⟩
  simp [frameBytes, ← hlen]

end Sys2Proof.Machine
end


section
/-! PROOFS. One cycle of the port view (R56, R102): which operations it is, and what they leave.

An operation of the FD is one `CycleOut.fdStep`, which touches neither bus nor LE nor DB; `runCycle_of_none`,
`runCycle_of_xerr` and `runCycle_of_reset` give the cycles made of such operations alone, and `runCycle_of_other` adds
any other command after them. -/

namespace Sys2Proof.Machine

/-! ## The operations of a cycle -/

/-- The receive operation of a cycle (R56). -/
def CycleIn.receiveOp (c : CycleIn) : Instr :=
  if c.rxValid && !c.rxFault then .fdByte c.rxByte else .fdPoll

theorem CycleIn.receiveOp_unit (c : CycleIn) : c.receiveOp.unit = .fd := by
  unfold CycleIn.receiveOp
  split <;> rfl

theorem CycleIn.receiveOp_of_no_fault {c : CycleIn} (hf : c.rxFault = false) :
    c.receiveOp = if c.rxValid = true then .fdByte c.rxByte else .fdPoll := by
  simp [CycleIn.receiveOp, hf]

theorem CycleIn.receiveOp_of_fault {c : CycleIn} (hf : c.rxFault = true) : c.receiveOp = .fdPoll := by
  simp [CycleIn.receiveOp, hf]

section
variable {p : Params} {c : CycleIn} {cmd : Command}

theorem CycleIn.commands_of_decode {i : Instr} (ha : c.accepted = some cmd) (hdec : decode p cmd = .ok i)
    (j : Instr) : c.commands p j = decide (i = j) := by
  simp [CycleIn.commands, ha, hdec]

theorem CycleIn.commands_of_decode_ne {i : Instr} (ha : c.accepted = some cmd) (hne : decode p cmd ≠ .ok i) :
    c.commands p i = false := by
  cases hdec : decode p cmd with
  | error r => simp [CycleIn.commands, ha, hdec]
  | ok j =>
    rw [CycleIn.commands_of_decode ha hdec]
    exact decide_eq_false fun h => hne (h ▸ hdec)

theorem cycleOps_of_none (ha : c.accepted = none) :
    cycleOps p c = (if c.rxFault then [(.fd, encode .fdXerr)] else []) ++ [(.fd, encode c.receiveOp)] := by
  simp [cycleOps, CycleIn.commands, ha, CycleIn.receiveOp]

theorem cycleOps_of_xerr (ha : c.accepted = some cmd) (hdec : decode p cmd = .ok .fdXerr) :
    cycleOps p c = [(if c.rxFault then .fd else .cmd, encode .fdXerr), (.fd, encode c.receiveOp)] := by
  simp only [cycleOps, CycleIn.commands_of_decode ha hdec, ha, CycleIn.receiveOp]
  cases c.rxFault <;> simp

theorem cycleOps_of_reset (ha : c.accepted = some cmd) (hdec : decode p cmd = .ok .fdReset) :
    cycleOps p c = (if c.rxFault then [(.fd, encode .fdXerr)] else []) ++
      [(.cmd, encode .fdReset), (.fd, encode c.receiveOp)] := by
  simp [cycleOps, CycleIn.commands_of_decode ha hdec, ha, CycleIn.receiveOp]

/-- Any other command comes last (R56). -/
theorem cycleOps_of_other (ha : c.accepted = some cmd) (hxerr : decode p cmd ≠ .ok .fdXerr)
    (hreset : decode p cmd ≠ .ok .fdReset) :
    cycleOps p c = cycleOps p { c with accepted := none } ++ [(.cmd, cmd)] := by
  rw [cycleOps_of_none (c := { c with accepted := none }) rfl]
  simp [cycleOps, CycleIn.commands_of_decode_ne ha hxerr, CycleIn.commands_of_decode_ne ha hreset, ha,
    CycleIn.receiveOp]

end

/-! ## Running the operations of a cycle -/

/-- What a cycle begins from. -/
def CycleOut.start (s : State) : CycleOut :=
  { state := s, fdEvents := [], cmdEvents := [], busItems := [] }

/-- What a cycle has left so far, after one more operation of the FD. -/
def CycleOut.fdStep (out : CycleOut) (port : EventPort) (i : Instr) : CycleOut :=
  { state := (out.state.setInput []).setFd (fdEffect out.state.params out.state.fd i).1
      (fdEffect out.state.params out.state.fd i).2
    fdEvents := out.fdEvents ++ (if port = .fd then (fdEffect out.state.params out.state.fd i).2 else [])
    cmdEvents := out.cmdEvents ++ (if port = .cmd then (fdEffect out.state.params out.state.fd i).2 else [])
    busItems := out.busItems }

theorem Instr.wf_of_fd {i : Instr} (hu : i.unit = .fd) (p : Params) : i.wf p = true := by
  cases i with
  | fdPoll | fdByte | fdReset | fdXerr => rfl
  | _ => cases hu

theorem step_encode_of_fd {i : Instr} (hu : i.unit = .fd) (s : State) :
    step (s.setInput [.op (encode i)]) =
      .next ((s.setInput []).setFd (fdEffect s.params s.fd i).1 (fdEffect s.params s.fd i).2) := by
  rw [step_of_decode_ok rfl (decode_encode (Instr.wf_of_fd hu _)), exec_of_fd hu]
  rfl

theorem runCycleInputs_fd_cons {i : Instr} (hu : i.unit = .fd) (port : EventPort)
    (rest : List (EventPort × Input)) (out : CycleOut) :
    runCycleInputs ((port, .op (encode i)) :: rest) out = runCycleInputs rest (out.fdStep port i) := by
  rw [runCycleInputs_cons_of_step (step_encode_of_fd hu out.state)]
  simp [CycleOut.extend, CycleOut.fdStep]

theorem runCycleInputs_nil (out : CycleOut) : runCycleInputs [] out = .next out := rfl

theorem runCycleInputs_append {ops more : List (EventPort × Input)} {out mid : CycleOut}
    (h : runCycleInputs ops out = .next mid) : runCycleInputs (ops ++ more) out = runCycleInputs more mid := by
  induction ops generalizing out with
  | nil =>
    cases h
    rfl
  | cons x ops ih =>
    cases hstep : step (out.state.setInput [x.2]) with
    | next t =>
      rw [runCycleInputs_cons_of_step hstep] at h
      rw [List.cons_append, runCycleInputs_cons_of_step hstep, ih h]
    | fault f => cases f
    | refused r => simp [runCycleInputs, hstep] at h

theorem runCycle_of_no_rst {c : CycleIn} (hrst : c.rst = false) (s : State) :
    runCycle c s = runCycleInputs ((cycleOps s.params c).map (fun x => (x.1, Input.op x.2))) (.start s) := by
  simp [runCycle, cycleInputs, hrst, CycleOut.start]

/-- A cycle with `rst` is a block reset and nothing else (R56). -/
theorem runCycle_of_rst {c : CycleIn} (hrst : c.rst = true) (s : State) :
    runCycle c s = .next (.start (s.setInput []).blockReset) := by
  simp only [runCycle, cycleInputs, hrst, if_true]
  rw [runCycleInputs_cons_of_step (step_of_blockReset rfl), runCycleInputs_nil]
  simp [CycleOut.extend, CycleOut.start, LeState.initial, State.setInput, State.blockReset]

section
variable {c : CycleIn} (hrst : c.rst = false) (s : State)
include hrst

theorem runCycle_of_none (ha : c.accepted = none) :
    runCycle c s = .next ((if c.rxFault then (CycleOut.start s).fdStep .fd .fdXerr else .start s).fdStep .fd
      c.receiveOp) := by
  rw [runCycle_of_no_rst hrst, cycleOps_of_none ha]
  cases c.rxFault <;>
    simp [runCycleInputs_fd_cons c.receiveOp_unit, runCycleInputs_fd_cons (i := .fdXerr) rfl, runCycleInputs_nil]

theorem runCycle_of_xerr {cmd : Command} (ha : c.accepted = some cmd) (hdec : decode s.params cmd = .ok .fdXerr) :
    runCycle c s = .next (((CycleOut.start s).fdStep (if c.rxFault then .fd else .cmd) .fdXerr).fdStep .fd
      c.receiveOp) := by
  rw [runCycle_of_no_rst hrst, cycleOps_of_xerr ha hdec]
  simp [runCycleInputs_fd_cons c.receiveOp_unit, runCycleInputs_fd_cons (i := .fdXerr) rfl, runCycleInputs_nil]

theorem runCycle_of_reset {cmd : Command} (ha : c.accepted = some cmd)
    (hdec : decode s.params cmd = .ok .fdReset) :
    runCycle c s = .next (((if c.rxFault then (CycleOut.start s).fdStep .fd .fdXerr else .start s).fdStep .cmd
      .fdReset).fdStep .fd c.receiveOp) := by
  rw [runCycle_of_no_rst hrst, cycleOps_of_reset ha hdec]
  cases c.rxFault <;>
    simp [runCycleInputs_fd_cons c.receiveOp_unit, runCycleInputs_fd_cons (i := .fdXerr) rfl,
      runCycleInputs_fd_cons (i := .fdReset) rfl, runCycleInputs_nil]

end

/-! ## What a cycle of the FD leaves alone -/

/-- The cycle touched the FD alone: no bus item, and the parameters, the LE and the DB as they were. -/
structure CycleOut.OnlyFd (s : State) (out : CycleOut) : Prop where
  params : out.state.params = s.params
  le : out.state.le = s.le
  db : out.state.db = s.db
  busItems : out.busItems = []

theorem CycleOut.start_onlyFd (s : State) : (CycleOut.start s).OnlyFd s := ⟨rfl, rfl, rfl, rfl⟩

theorem CycleOut.OnlyFd.fdStep {s : State} {out : CycleOut} (h : out.OnlyFd s) (port : EventPort) (i : Instr) :
    (out.fdStep port i).OnlyFd s := ⟨h.params, h.le, h.db, h.busItems⟩

theorem fdEffect_receiveOp_events_length (p : Params) (fd : FdState) (c : CycleIn) :
    (fdEffect p fd c.receiveOp).2.length ≤ 1 := by
  unfold CycleIn.receiveOp
  split
  · exact fdReceive_events_length p fd c.rxByte
  · exact Nat.zero_le 1

section
variable {c : CycleIn} (hrst : c.rst = false) (s : State)
include hrst

/-- A cycle with no command leaves the FD's events on the FD's port, at most one of them. -/
theorem runCycle_of_none_onlyFd (ha : c.accepted = none) :
    ∃ out, runCycle c s = .next out ∧ out.OnlyFd s ∧ out.cmdEvents = [] ∧ out.fdEvents.length ≤ 1 := by
  refine ⟨_, runCycle_of_none hrst s ha, ?_⟩
  cases hf : c.rxFault with
  | false =>
    refine ⟨(CycleOut.start_onlyFd s).fdStep _ _, rfl, ?_⟩
    exact fdEffect_receiveOp_events_length s.params s.fd c
  | true =>
    rw [CycleIn.receiveOp_of_fault hf]
    exact ⟨((CycleOut.start_onlyFd s).fdStep _ _).fdStep _ _, rfl, Nat.le_refl 1⟩

/-- Any other command runs after the operations of the FD, as one step, with its events on the command port. -/
theorem runCycle_of_other {cmd : Command} (ha : c.accepted = some cmd) (hxerr : decode s.params cmd ≠ .ok .fdXerr)
    (hreset : decode s.params cmd ≠ .ok .fdReset) :
    ∃ before t out, runCycle { c with accepted := none } s = .next before ∧ before.OnlyFd s ∧
      before.fdEvents.length ≤ 1 ∧ step (before.state.setInput [.op cmd]) = .next t ∧
      runCycle c s = .next out ∧ out.state = t ∧ out.fdEvents = before.fdEvents ∧ out.cmdEvents = t.events := by
  obtain ⟨before, hbefore, honly, hcmd, hone⟩ := runCycle_of_none_onlyFd (c := { c with accepted := none }) hrst s rfl
  obtain ⟨t, -, hstep, -⟩ := step_op_appends before.state cmd []
  refine ⟨before, t, before.extend .cmd t, hbefore, honly, hone, hstep, ?_, rfl, ?_, ?_⟩
  · rw [runCycle_of_no_rst (c := { c with accepted := none }) hrst] at hbefore
    rw [runCycle_of_no_rst hrst, cycleOps_of_other ha hxerr hreset, List.map_append,
      runCycleInputs_append hbefore]
    exact runCycleInputs_cons_of_step hstep .cmd []
  · simp [CycleOut.extend]
  · simp [CycleOut.extend, hcmd]

/-- A commanded FD_XERR or FD_RESET: the receive operation finds the FD cleared, and with a fault the event of FD_XERR
is on the FD's port (R56). -/
theorem runCycle_of_commanded_clear {i : Instr} {cmd : Command} (hi : i = .fdXerr ∨ i = .fdReset)
    (ha : c.accepted = some cmd) (hdec : decode s.params cmd = .ok i) :
    ∃ out, runCycle c s = .next out ∧ out.OnlyFd s ∧
      out.state.fd = (fdEffect s.params .initial c.receiveOp).1 ∧
      out.fdEvents = (if c.rxFault then [.fdTransportError] else []) ++ (fdEffect s.params .initial c.receiveOp).2 ∧
      out.cmdEvents = if i = .fdXerr ∧ c.rxFault = false then [.fdTransportError] else [] := by
  obtain rfl | rfl := hi
  · refine ⟨_, runCycle_of_xerr hrst s ha hdec, ((CycleOut.start_onlyFd s).fdStep _ _).fdStep _ _, rfl, ?_⟩
    cases c.rxFault <;> exact ⟨rfl, rfl⟩
  · refine ⟨_, runCycle_of_reset hrst s ha hdec, ?_⟩
    cases c.rxFault with
    | false => exact ⟨((CycleOut.start_onlyFd s).fdStep _ _).fdStep _ _, rfl, rfl, rfl⟩
    | true => exact ⟨(((CycleOut.start_onlyFd s).fdStep _ _).fdStep _ _).fdStep _ _, rfl, rfl, rfl⟩

end

/-- With a fault the receive operation is FD_POLL, so that one event is all (R56). -/
theorem cycle_fdEvents_length (p : Params) (fd : FdState) (c : CycleIn) :
    ((if c.rxFault then [Event.fdTransportError] else []) ++ (fdEffect p fd c.receiveOp).2).length ≤ 1 := by
  cases hf : c.rxFault with
  | false => exact fdEffect_receiveOp_events_length p fd c
  | true =>
    rw [CycleIn.receiveOp_of_fault hf]
    exact Nat.le_refl 1

/-- Every cycle completes, with at most one event on the FD's port (R56, R102). -/
theorem runCycle_completes (c : CycleIn) (s : State) :
    ∃ out, runCycle c s = .next out ∧ out.fdEvents.length ≤ 1 := by
  cases hrst : c.rst with
  | true => exact ⟨_, runCycle_of_rst hrst s, Nat.zero_le 1⟩
  | false =>
    cases ha : c.accepted with
    | none =>
      obtain ⟨out, hrun, -, -, hone⟩ := runCycle_of_none_onlyFd hrst s ha
      exact ⟨out, hrun, hone⟩
    | some cmd =>
      by_cases hclear : ∃ i, (i = .fdXerr ∨ i = .fdReset) ∧ decode s.params cmd = .ok i
      · obtain ⟨i, hi, hdec⟩ := hclear
        obtain ⟨out, hrun, -, -, hev, -⟩ := runCycle_of_commanded_clear hrst s hi ha hdec
        exact ⟨out, hrun, hev ▸ cycle_fdEvents_length _ _ c⟩
      · obtain ⟨before, t, out, -, -, hone, -, hrun, -, hev, -⟩ := runCycle_of_other hrst s ha
          (fun h => hclear ⟨_, .inl rfl, h⟩) (fun h => hclear ⟨_, .inr rfl, h⟩)
        exact ⟨out, hrun, hev ▸ hone⟩

/-- The two commands that clear the FD, by their op words (R57). -/
theorem decode_clear_word {c : CycleIn} (p : Params)
    (ha : c.accepted = some { word := 0x0C00, segs := [] } ∨ c.accepted = some { word := 0x0800, segs := [] }) :
    ∃ i cmd, (i = .fdXerr ∨ i = .fdReset) ∧ c.accepted = some cmd ∧ decode p cmd = .ok i ∧
      (i = .fdXerr ↔ c.accepted = some { word := 0x0C00, segs := [] }) := by
  obtain ha | ha := ha
  · exact ⟨.fdXerr, _, .inl rfl, ha, decode_encode (i := .fdXerr) rfl, by simp [ha]⟩
  · exact ⟨.fdReset, _, .inr rfl, ha, decode_encode (i := .fdReset) rfl, by simp [ha]⟩

/-- Settles O50, cycle by cycle: a block reset, no command, FD_XERR or FD_RESET, and any other command. -/
theorem cycleAppliesResetsBeforeTheByte : Obligations.CycleAppliesResetsBeforeTheByte := by
  refine ⟨runCycle_completes, ?rst, ?receive, ?commanded, ?fault, ?other⟩
  case rst =>
    exact fun c s hrst => ⟨_, runCycle_of_rst hrst s, rfl, rfl, rfl, rfl, rfl, rfl⟩
  case receive =>
    intro c s hrst hf ha
    have hrun := runCycle_of_none hrst s ha
    rw [if_neg (Bool.eq_false_iff.mp hf)] at hrun
    rw [← CycleIn.receiveOp_of_no_fault hf]
    exact ⟨_, _, exec_of_fd c.receiveOp_unit s, hrun, rfl, rfl, rfl, rfl, rfl, rfl⟩
  case commanded =>
    intro c s hrst hf ha
    obtain ⟨i, cmd, hi, ha, hdec, hxerr⟩ := decode_clear_word s.params ha
    obtain ⟨out, hrun, honly, hfd, hev, hcmd⟩ := runCycle_of_commanded_clear hrst s hi ha hdec
    rw [hf] at hev
    simp only [hf, hxerr, and_true] at hcmd
    rw [← CycleIn.receiveOp_of_no_fault hf]
    exact ⟨_, out, exec_of_fd c.receiveOp_unit _, hrun, hfd, hev, hcmd, honly.busItems, honly.le, honly.db⟩
  case fault =>
    intro c s hrst hf ha
    obtain ha | ha := ha
    · have hrun := runCycle_of_none hrst s ha
      rw [if_pos hf, CycleIn.receiveOp_of_fault hf] at hrun
      exact ⟨_, hrun, rfl, rfl, rfl, rfl, rfl, rfl⟩
    · obtain ⟨i, cmd, hi, ha, hdec, -⟩ := decode_clear_word s.params ha
      obtain ⟨out, hrun, honly, hfd, hev, hcmd⟩ := runCycle_of_commanded_clear hrst s hi ha hdec
      rw [CycleIn.receiveOp_of_fault hf] at hfd hev
      rw [hf] at hev
      exact ⟨out, hrun, hfd, hev, by simpa [hf] using hcmd, honly.busItems, honly.le, honly.db⟩
  case other =>
    intro c s cmd hrst ha hxerr hreset
    obtain ⟨before, t, out, hbefore, -, -, hstep, hrun, hstate, hfd, hcmd⟩ := runCycle_of_other hrst s ha hxerr hreset
    obtain ⟨out', hrun', hlog⟩ := runCycle_appends hrst s
    cases hrun.symm.trans hrun'
    exact ⟨before, t, out, hbefore, hstep, hrun, hstate, hfd, hcmd, hstate ▸ hlog⟩

end Sys2Proof.Machine
end


section
/-! PROOFS. The handshakes of the ports (R45, R55, R56, R115): what a port that is not ready turns away, and how an op
word and the segments after it become one operation.

A cycle in which no command completes leaves the block's LE and DB alone (`portCycle_of_not_accepted`); with it a word
waits until its last segment byte (`portRun_waits`), whose cycle runs the operation (`portCycle_of_last_byte`). -/

namespace Sys2Proof.Machine

/-! ## One cycle of the ports -/

section
variable (x : PortIn) (q : PortState)

/-- The transactions of a cycle of the ports (R56). -/
def PortIn.cycle : CycleIn :=
  { rst := x.rst, rxValid := x.rxValid, rxByte := x.rxByte, rxFault := x.rxFault
    accepted := (commandSide x q).accepted }

/-- The block at the start of a cycle, with the readings that the command of the cycle is given. -/
def PortState.given : State := q.block.setPins (commandSide x q).pins q.block.drawCount

/-- The ports after a cycle without `rst`. -/
def PortState.after (out : CycleOut) : PortState :=
  { block := out.state
    waiting := (commandSide x q).waiting
    segBytes := (commandSide x q).segBytes
    busQueue := (if x.busReady then q.busQueue.tail else q.busQueue) ++ out.busItems
    eventQueue := q.eventQueue.tail ++ out.cmdEvents
    sampling := (commandSide x q).sampling }

/-- What the ports show in a cycle, as they stand at its start, with the FD's event of the cycle. -/
def PortState.shown (out : CycleOut) : PortOut :=
  { status := statusPorts q.block
    cmdReady := q.cmdReady
    segReady := q.segReady
    bus := q.busQueue.head?
    fdEvent := out.fdEvents.head?
    cmdEvent := q.eventQueue.head? }

theorem portCycle_of_runCycle {out : CycleOut} (hrun : runCycle (x.cycle q) (q.given x) = .next out) :
    portCycle x q = .next (if x.rst then .idle out.state else q.after x out, q.shown out) := by
  simp only [PortIn.cycle, PortState.given] at hrun
  simp only [portCycle, hrun]
  rfl

theorem portCycle_completes :
    ∃ q' out, portCycle x q = .next (q', q.shown out) := by
  obtain ⟨out, hrun, -⟩ := runCycle_completes (x.cycle q) (q.given x)
  exact ⟨_, out, portCycle_of_runCycle x q hrun⟩

/-- In a cycle without `rst` in which no command completes, no bus item and no command event is added, and the LE and
the DB stay as they are. -/
theorem portCycle_of_not_accepted (hrst : x.rst = false) (hacc : (commandSide x q).accepted = none) :
    ∃ out, portCycle x q = .next (q.after x out, q.shown out) ∧ out.OnlyFd q.block ∧ out.cmdEvents = [] := by
  obtain ⟨out, hrun, honly, hcmd, -⟩ := runCycle_of_none_onlyFd (c := x.cycle q) hrst (q.given x) hacc
  refine ⟨out, ?_, ⟨honly.params, honly.le, honly.db, honly.busItems⟩, hcmd⟩
  rw [portCycle_of_runCycle x q hrun, hrst]
  rfl

/-- Two presentations that the command side takes the same way are the same cycle, if the other signals agree. -/
theorem portCycle_congr {cv sv : Bool} (hside : commandSide { x with cmdValid := cv, segValid := sv } q =
    commandSide x q) : portCycle { x with cmdValid := cv, segValid := sv } q = portCycle x q := by
  unfold portCycle
  rw [hside]

theorem not_busy_iff : q.busy = false ↔ q.busQueue = [] ∧ q.eventQueue = [] ∧ q.sampling = none := by
  simp [PortState.busy, and_assoc]

end

/-! ## Ports that are not ready -/

theorem commandSide_of_waiting {x : PortIn} {q : PortState} {w : OpWord} (hb : q.busy = false)
    (hw : q.waiting = some w) : commandSide x q = offerWord x q w (takenBytes x q) :=
  commandSide_of_word x q hb w (by simp [currentWord, hw])

/-- With nothing in progress and nothing presented, the command side stays as it is. -/
theorem commandSide_of_idle {x : PortIn} (hcmd : x.cmdValid = false) (hseg : x.segValid = false) (s : State) :
    commandSide x (.idle s) = CmdSide.hold (.idle s) := by
  rw [commandSide_of_no_word x (.idle s) rfl (by simp [currentWord, PortState.idle, hcmd])]
  simp [takenBytes, hseg, CmdSide.hold]

/-- Settles O52: the command side does not read what a port that is not ready presents. -/
theorem busyPortTurnsCommandsAway : Obligations.BusyPortTurnsCommandsAway := by
  refine ⟨fun x q hb => ⟨?_, ?_⟩, fun x s hrst hcmd hseg => ?_, fun x q w hb hw => ⟨?_, ?_⟩⟩
  · exact (portCycle_congr x q (commandSide_ignores_ports x q hb false false x.segLast x.cmdWord x.segByte)).symm
  · obtain ⟨q', out, hcycle⟩ := portCycle_completes x q
    exact ⟨q', _, hcycle, by simp [PortState.shown, PortState.cmdReady, hb],
      by simp [PortState.shown, PortState.segReady, hb]⟩
  · have hside := commandSide_of_idle hcmd hseg s
    obtain ⟨out, hcycle, honly, hev⟩ := portCycle_of_not_accepted x (.idle s) hrst (by rw [hside]; rfl)
    have hidle : (PortState.idle s).after x out = .idle out.state := by
      rw [PortState.after, hside, honly.busItems, hev]
      simp [PortState.idle, CmdSide.hold]
    rw [hidle] at hcycle
    exact ⟨_, _, hcycle, rfl, rfl, rfl, rfl, rfl, rfl, rfl, rfl⟩
  · refine (portCycle_congr x q (cv := false) (sv := x.segValid) ?_).symm
    rw [commandSide_of_waiting hb hw, commandSide_of_waiting hb hw]
    rfl
  · obtain ⟨q', out, hcycle⟩ := portCycle_completes x q
    exact ⟨q', _, hcycle, by simp [PortState.shown, PortState.cmdReady, hw],
      by simp [PortState.shown, PortState.segReady, hb]⟩

/-! ## How many segments follow a word (R45, R55) -/

/-- A word is decoded to a row's operation exactly when it selects that row. -/
theorem decodeWord_eq_opcode_iff {r : OpRow} (hr : r ∈ opMap) (w : OpWord) :
    decodeWord w = some r.opcode ↔ w &&& r.mask = r.value := by
  rw [decodeWord_eq_some_iff]
  constructor
  · rintro ⟨r', hr', hsel, hop⟩
    obtain rfl := opMap_row_unique r' hr' r hr hop
    exact beq_iff_eq.mp hsel
  · exact fun h => ⟨r, hr, beq_iff_eq.mpr h, rfl⟩

theorem payloadCount_eq (w : OpWord) :
    payloadCount w = if w &&& 0xFFF8 = 0x5000 then 1 else if w = 0x5400 then 4
      else if w &&& 0xFFF0 = 0x5800 then 1 else 0 := by
  have hline : decodeWord w = some .lePrintLine ↔ w &&& 0xFFF8 = 0x5000 :=
    decodeWord_eq_opcode_iff (r := ⟨.lePrintLine, 0x5000, 0xFFF8⟩) (by simp [opMap]) w
  have hlines : decodeWord w = some .lePrintLines ↔ w &&& 0xFFFF = 0x5400 :=
    decodeWord_eq_opcode_iff (r := ⟨.lePrintLines, 0x5400, 0xFFFF⟩) (by simp [opMap]) w
  have hglyphs : decodeWord w = some .leLoadGlyphs ↔ w &&& 0xFFF0 = 0x5800 :=
    decodeWord_eq_opcode_iff (r := ⟨.leLoadGlyphs, 0x5800, 0xFFF0⟩) (by simp [opMap]) w
  rw [show w &&& 0xFFFF = w from BitVec.and_allOnes] at hlines
  simp only [← hline, ← hlines, ← hglyphs, payloadCount]
  cases decodeWord w with
  | none => simp
  | some op => cases op <;> simp [Opcode.segments]

/-- An operation that decodes carries as many segments as its word fixes. -/
theorem segs_length_of_decode {p : Params} {c : Command} {i : Instr} (h : decode p c = .ok i) :
    c.segs.length = payloadCount c.word := by
  obtain ⟨op, hrow, hasm, -⟩ := (decode_ok_iff p c i).mp h
  rw [payloadCount, hrow]
  exact (assemble_isSome op c.word c.segs).mp (by rw [hasm]; rfl)

/-! ## The bytes of the segment port -/

/-- Each byte flagged `seg_last` ends a segment. -/
theorem collectSegments_length (bytes : List (Byte × Bool)) :
    (collectSegments bytes).1.length = bytes.countP (·.2) := by
  induction bytes with
  | nil => rfl
  | cons b r ih =>
    obtain ⟨b, last⟩ := b
    cases last with
    | true => simp [collectSegments, ih]
    | false => cases hr : (collectSegments r).1 <;> simp [collectSegments, ← ih, hr]

theorem collectSegments_segment_append {g : Segment} (hg : g ≠ []) (r : List (Byte × Bool)) :
    collectSegments (g.dropLast.map (fun b => (b, false)) ++ g.getLast?.toList.map (fun b => (b, true)) ++ r) =
      (g :: (collectSegments r).1, (collectSegments r).2) := by
  induction g with
  | nil => exact absurd rfl hg
  | cons b g ih =>
    cases g with
    | nil => simp [collectSegments]
    | cons b' g =>
      have hrest := ih (List.cons_ne_nil b' g)
      simp only [List.dropLast_cons_cons, List.map_cons, List.cons_append, List.getLast?_cons_cons, collectSegments,
        hrest, Bool.false_eq_true, if_false]

theorem collectSegments_segmentStream {segs : List Segment} (h : ∀ g ∈ segs, g ≠ []) :
    collectSegments (segmentStream segs) = (segs, []) := by
  induction segs with
  | nil => rfl
  | cons g segs ih =>
    obtain ⟨hg, hsegs⟩ := List.forall_mem_cons.mp h
    have hcons : segmentStream (g :: segs) = g.dropLast.map (fun b => (b, false)) ++
        g.getLast?.toList.map (fun b => (b, true)) ++ segmentStream segs := List.flatMap_cons
    rw [hcons, collectSegments_segment_append hg, ih hsegs]

/-- The last byte of some segments ends the last of them. -/
theorem segmentStream_last {segs : List Segment} (hne : segs ≠ []) (h : ∀ g ∈ segs, g ≠ [])
    {bytes : List (Byte × Bool)} {b : Byte × Bool} (hs : bytes ++ [b] = segmentStream segs) : b.2 = true := by
  obtain ⟨init, g, rfl⟩ := (List.eq_nil_or_concat' segs).resolve_left hne
  have hg : g ≠ [] := h g (by simp)
  have hlast : segmentStream (init ++ [g]) =
      (segmentStream init ++ g.dropLast.map (fun b => (b, false))) ++ [(g.getLast hg, true)] := by
    simp [segmentStream, List.getLast?_eq_some_getLast hg]
  obtain ⟨-, hb⟩ := List.append_inj' (hs.trans hlast) rfl
  rw [List.singleton_inj.mp hb]

/-- Before the last byte of a word's segments, fewer of them are finished than there are. -/
theorem countP_before_last {segs : List Segment} (hne : segs ≠ []) (h : ∀ g ∈ segs, g ≠ [])
    {bytes : List (Byte × Bool)} {b : Byte × Bool} (hs : bytes ++ [b] = segmentStream segs) :
    bytes.countP (·.2) < segs.length := by
  have hcount : (bytes ++ [b]).countP (·.2) = segs.length := by
    rw [← collectSegments_length, hs, collectSegments_segmentStream h]
  rw [List.countP_append, List.countP_singleton, if_pos (segmentStream_last hne h hs)] at hcount
  omega

theorem takenBytes_eq (x : PortIn) (q : PortState) : takenBytes x q = q.segBytes ++ x.segment.toList := by
  unfold takenBytes PortIn.segment
  split <;> rfl

/-! ## A word waits for its segments -/

/-- The ports after a cycle in which a word waits, with the payload bytes taken since. -/
structure PortState.Waits (s : State) (q : PortState) (w : OpWord) (bytes : List (Byte × Bool)) : Prop where
  busy : q.busy = false
  waiting : q.waiting = some w
  segBytes : q.segBytes = bytes
  params : q.block.params = s.params
  le : q.block.le = s.le
  db : q.block.db = s.db

theorem portCycle_waits {x : PortIn} {q : PortState} {w : OpWord} (hrst : x.rst = false) (hb : q.busy = false)
    (hw : currentWord x q = some w)
    (hfew : (q.segBytes ++ x.segment.toList).countP (·.2) < payloadCount w) :
    ∃ q' o, portCycle x q = .next (q', o) ∧ q'.Waits q.block w (q.segBytes ++ x.segment.toList) := by
  have hside := commandSide_of_word x q hb w hw
  rw [takenBytes_eq, offerWord_waits x q w _ (by rwa [collectSegments_length])] at hside
  obtain ⟨out, hcycle, honly, hev⟩ := portCycle_of_not_accepted x q hrst (by rw [hside])
  obtain ⟨hbus, hevents, -⟩ := (not_busy_iff q).mp hb
  refine ⟨_, _, hcycle, ?_, ?_, ?_, honly.params, honly.le, honly.db⟩
  · simp [not_busy_iff, PortState.after, hside, hbus, hevents, honly.busItems, hev]
  · simp [PortState.after, hside]
  · simp [PortState.after, hside]

theorem portRun_cons {x : PortIn} {q r : PortState} {o : PortOut} (h : portCycle x q = .next (r, o))
    (xs : List PortIn) : portRun (x :: xs) q = portRun xs r := by
  simp [portRun, h]

/-- While fewer segments are finished than the word fixes, it waits, over any number of cycles. -/
theorem portRun_waits {s : State} {w : OpWord} (later : List PortIn) {ys : List PortIn} {q : PortState}
    {bytes : List (Byte × Bool)} (hq : q.Waits s w bytes) (hrst : ∀ z ∈ ys, z.rst = false)
    (hfew : (bytes ++ ys.filterMap PortIn.segment).countP (·.2) < payloadCount w) :
    ∃ q', portRun (ys ++ later) q = portRun later q' ∧ q'.Waits s w (bytes ++ ys.filterMap PortIn.segment) := by
  induction ys generalizing q bytes with
  | nil => exact ⟨q, rfl, by simpa using hq⟩
  | cons z ys ih =>
    obtain ⟨hz, hys⟩ := List.forall_mem_cons.mp hrst
    have hbytes : bytes ++ (z :: ys).filterMap PortIn.segment =
        (bytes ++ z.segment.toList) ++ ys.filterMap PortIn.segment := by
      cases hseg : z.segment <;> simp [hseg]
    rw [hbytes] at hfew ⊢
    obtain ⟨q₁, o, hcycle, hwaits⟩ := portCycle_waits hz hq.busy (w := w) (by simp [currentWord, hq.waiting])
      (by
        rw [hq.segBytes]
        rw [List.countP_append] at hfew
        omega)
    rw [hq.segBytes] at hwaits
    obtain ⟨q', hrun, hq'⟩ := ih (q := q₁)
      ⟨hwaits.busy, hwaits.waiting, hwaits.segBytes, hwaits.params.trans hq.params, hwaits.le.trans hq.le,
        hwaits.db.trans hq.db⟩ hys hfew
    exact ⟨q', (portRun_cons hcycle _).trans hrun, hq'⟩

/-! ## The last byte -/

/-- Only operations of the LE carry segments (R45). -/
theorem unit_of_segments_ne_nil {i : Instr} (h : i.segments ≠ []) : i.unit = .le := by
  cases i with
  | lePrintLine | lePrintLines | leLoadGlyphs => rfl
  | _ => exact absurd rfl h

theorem startSample_of_le {p : Params} {c : Command} {i : Instr} (hdec : decode p c = .ok i) (hu : i.unit = .le)
    (x : PortIn) : startSample p x c = none := by
  unfold startSample
  rw [hdec]
  cases i with
  | dbSample field => cases hu
  | _ => rfl

/-- A command of the LE that completes in a cycle has its whole effect there, as from any state with the same
parameters and the same LE (R1, R56). -/
theorem runCycle_of_le {c : CycleIn} (hrst : c.rst = false) {s s' : State} {cmd : Command} {i : Instr}
    (ha : c.accepted = some cmd) (hdec : decode s.params cmd = .ok i) (hu : i.unit = .le)
    (hp : s.params = s'.params) (hle : s.le = s'.le) :
    ∃ out t, runCycle c s = .next out ∧ exec i s' = .next t ∧ out.state.le = t.le ∧ out.cmdEvents = t.events ∧
      t.le.log = s'.le.log ++ out.busItems := by
  obtain ⟨before, u, out, -, honly, -, hstep, hrun, rfl, -, hev⟩ := runCycle_of_other hrst s ha
    (fun h => by cases hdec.symm.trans h; cases hu) (fun h => by cases hdec.symm.trans h; cases hu)
  obtain ⟨out', hrun', hlog⟩ := runCycle_appends hrst s
  cases hrun.symm.trans hrun'
  have hin : (before.state.setInput [.op cmd]).input = .op cmd :: [] := rfl
  rw [step_of_decode_ok hin (show decode before.state.params cmd = .ok i from honly.params ▸ hdec)] at hstep
  obtain ⟨t, -, hx, -⟩ := exec_appends i s'
  obtain ⟨hlet, hevt⟩ := exec_le_local (s := (before.state.setInput [.op cmd]).setInput []) hu
    (honly.params.trans hp) (honly.le.trans hle) hstep hx
  exact ⟨out, t, hrun, hx, hlet, hev.trans hevt, by rw [← hlet, hlog, hle]⟩

theorem portCycle_of_last_byte {y : PortIn} {s : State} {q : PortState} {w : OpWord} {segs : List Segment} {i : Instr}
    {bytes : List (Byte × Bool)} (hrst : y.rst = false) (hq : q.Waits s w bytes)
    (hdec : decode s.params { word := w, segs := segs } = .ok i) (hu : i.unit = .le)
    (hcollect : collectSegments (bytes ++ y.segment.toList) = (segs, [])) :
    ∃ q' o t, portCycle y q = .next (q', o) ∧ exec i s = .next t ∧ q'.block.le = t.le ∧
      t.le.log = s.le.log ++ q'.busQueue ∧ q'.eventQueue = t.events ∧ q'.waiting = none ∧ q'.segBytes = [] := by
  have hdecq : decode q.block.params { word := w, segs := segs } = .ok i := hq.params ▸ hdec
  have hside := commandSide_of_waiting (x := y) hq.busy hq.waiting
  rw [takenBytes_eq, hq.segBytes, offerWord_accepts y q w _ (by
      rw [hcollect]
      exact (segs_length_of_decode hdec).ge) (by
      rw [hcollect]
      exact startSample_of_le hdecq hu y), hcollect] at hside
  obtain ⟨out, t, hrun, hx, hle, hev, hlog⟩ := runCycle_of_le (c := y.cycle q) (s := q.given y) hrst
    (by rw [PortIn.cycle, hside]) hdecq hu hq.params hq.le
  obtain ⟨hbus, hevents, -⟩ := (not_busy_iff q).mp hq.busy
  have hcycle := portCycle_of_runCycle y q hrun
  rw [hrst] at hcycle
  refine ⟨q.after y out, _, t, hcycle, hx, hle, ?_, ?_, ?_, ?_⟩
  · simpa [PortState.after, hbus] using hlog
  · simpa [PortState.after, hevents] using hev
  · simp [PortState.after, hside]
  · simp [PortState.after, hside]

/-- Settles O54: the word waits (`portRun_waits`) until its last byte (`portCycle_of_last_byte`). -/
theorem segmentsFollowTheirWord : Obligations.SegmentsFollowTheirWord := by
  refine ⟨payloadCount_eq, ?waits, ?accepted⟩
  case waits =>
    intro x q w hrst hb hw hfew
    have hcur : currentWord x q = some w := by
      obtain hw | ⟨hnone, hvalid, hword⟩ := hw
      · simp [currentWord, hw]
      · simp [currentWord, hnone, hvalid, hword]
    rw [collectSegments_length] at hfew
    obtain ⟨q', o, hcycle, hq⟩ := portCycle_waits hrst hb hcur hfew
    exact ⟨q', o, hcycle, hq.waiting, hq.segBytes, hq.busy, hq.le, hq.db⟩
  case accepted =>
    intro s w segs i x y ys hdec hne hnonempty hvalid hword hxseg hyseg hrst hstream
    obtain ⟨hx, hrest⟩ := List.forall_mem_cons.mp hrst
    obtain ⟨hys, hy⟩ := List.forall_mem_append.mp hrest
    have hyrst : y.rst = false := hy y (List.mem_singleton_self y)
    have hcount : segs.length = payloadCount w := segs_length_of_decode hdec
    have hu : i.unit = .le := by
      obtain ⟨op, -, hasm, -⟩ := (decode_ok_iff _ _ _).mp hdec
      exact unit_of_segments_ne_nil (assemble_segments _ _ _ _ hasm ▸ hne)
    have hybyte : y.segment = some (y.segByte, y.segLast) := by simp [PortIn.segment, hyseg]
    have hsplit : ys.filterMap PortIn.segment ++ [(y.segByte, y.segLast)] = segmentStream segs := by
      rw [← hstream, List.filterMap_append]
      simp [hybyte]
    have hfew := countP_before_last hne hnonempty hsplit
    have hxnone : x.segment.toList = [] := by simp [PortIn.segment, hxseg]
    obtain ⟨q₁, o, hcycle, hq₁⟩ := portCycle_waits (q := .idle s) (w := w) hx rfl
      (by simp [currentWord, PortState.idle, hvalid, hword])
      (by
        rw [hxnone, ← hcount]
        exact (Nat.zero_le _).trans_lt hfew)
    rw [hxnone] at hq₁
    obtain ⟨q₂, hrun, hq₂⟩ := portRun_waits [y] hq₁ hys (hcount ▸ hfew)
    obtain ⟨q₃, o', t, hlast, hexec, hfinal⟩ := portCycle_of_last_byte hyrst hq₂ hdec hu (by
      rw [hybyte]
      exact (congrArg collectSegments hsplit).trans (collectSegments_segmentStream hnonempty))
    exact ⟨q₃, t, ((portRun_cons hcycle _).trans hrun).trans (portRun_cons hlast []), hexec, hfinal⟩

end Sys2Proof.Machine
end

section
/-! PROOFS. The operations of the FD (R58 to R65, R69): what each leaves, by the mode and the index.

`fdReceive` has one equation per mode and index (`fdReceive_of_done`, `fdReceive_at_start`, `fdReceive_at_digit`,
`fdReceive_at_end`), and a frame error is always the recovery of rule R58 (`fdReceive_of_frameError_mem`). -/

namespace Sys2Proof.Machine

/-! ## FD_POLL, FD_RESET and FD_XERR (R63 to R65) -/

/-- Settles O12: the poll answer's bit 0 is the mode (`fdStat_bits`). -/
theorem fdPollChangesNothing : Obligations.FdPollChangesNothing := by
  intro s
  obtain ⟨hdone, -, -⟩ := fdStat_bits s.fd
  exact ⟨decode_encode (i := .fdPoll) rfl, rfl, hdone⟩

theorem fdStat_initial : fdStat .initial = 0x00 := by decide

/-- In mode ACC at index 0 the invariant leaves no other FD than the reset one (R15). -/
theorem FdState.eq_initial_of_inv {fd : FdState} (h : fd.Inv) (hm : fd.mode = .acc) (h0 : fd.idx = 0) :
    fd = .initial := by
  obtain ⟨-, ⟨htag, hpayload, hcks⟩, hdig⟩ := (FdState.inv_iff_of_acc hm).mp h
  have hzero : fd.dig = Vector.replicate 12 0 :=
    Vector.ext fun j hj => by simpa using hdig ⟨j, hj⟩ (by simp [h0])
  obtain ⟨_, _, _, _, _, _⟩ := fd
  subst hm h0 htag hpayload hcks hzero
  rfl

/-- Settles O13: at index 0 in mode ACC the FD is already the reset one (`FdState.eq_initial_of_inv`). -/
theorem fdResetClearsTheFd : Obligations.FdResetClearsTheFd :=
  fun _ => ⟨decode_encode (i := .fdReset) rfl, _, rfl, rfl, fdStat_initial,
    fun h hm h0 => (FdState.eq_initial_of_inv h hm h0).symm⟩

/-- Settles O14, by the meanings of the two operations. -/
theorem fdXerrReportsAndClearsTheFd : Obligations.FdXerrReportsAndClearsTheFd :=
  fun _ => ⟨decode_encode (i := .fdXerr) rfl, _, _, rfl, rfl, rfl, fdStat_initial, rfl⟩

/-! ## The outputs of a frame, digit by digit (R13, R59, R60) -/

theorem checksumOk_iff (dig : Vector Nibble 12) :
    checksumOk dig = true ↔
      (dig[0] ++ dig[1] : Byte) ^^^ (dig[2] ++ dig[3] : Byte) ^^^ (dig[4] ++ dig[5] : Byte) ^^^
        (dig[6] ++ dig[7] : Byte) ^^^ (dig[8] ++ dig[9] : Byte) = (dig[10] ++ dig[11] : Byte) := by
  rw [checksumOk, beq_iff_eq, checksumSum, BitVec.ofNat_eq_ofNat, BitVec.zero_xor]
  rfl

theorem tagValue_eq_append (dig : Vector Nibble 12) :
    tagValue dig = (dig[4] ++ dig[5] ++ dig[6] ++ dig[7] ++ dig[8] ++ dig[9] : BitVec 24) := by
  rw [tagValue, tagDigits_eq]
  change BitVec.ofNat 24 _ = _
  apply BitVec.eq_of_toNat_eq
  simp only [digitsValue, List.map_cons, List.map_nil, List.foldl_cons, List.foldl_nil, BitVec.toNat_ofNat,
    toNat_append_eq_mul_add]
  omega

theorem nibblePairs_append (a b c d e f g h i j : Nibble) :
    ((a ++ b : Byte) ++ (c ++ d : Byte) ++ (e ++ f : Byte) ++ (g ++ h : Byte) ++ (i ++ j : Byte) : BitVec 40) =
      (a ++ b ++ c ++ d ++ e ++ f ++ g ++ h ++ i ++ j : BitVec 40) := by
  apply BitVec.eq_of_toNat_eq
  simp only [toNat_append_eq_mul_add]
  omega

theorem payloadWord_eq_append (dig : Vector Nibble 12) :
    payloadWord dig =
      (dig[0] ++ dig[1] ++ dig[2] ++ dig[3] ++ dig[4] ++ dig[5] ++ dig[6] ++ dig[7] ++ dig[8] ++ dig[9] :
        BitVec 40) :=
  nibblePairs_append _ _ _ _ _ _ _ _ _ _

/-! ## FD_BYTE by the mode and the index (R62) -/

theorem fdByte_word (b : Byte) : (0x0400 ||| b.setWidth 16 : OpWord) = encodeWord (.fdByte b) := by
  revert b
  decide

theorem exec_fdByte (b : Byte) (s : State) :
    exec (.fdByte b) s = .next (s.setFd (fdReceive s.params s.fd b).1 (fdReceive s.params s.fd b).2) := rfl

theorem idx_eq_of_toNat {x : BitVec 4} {n : Nat} (h : x.toNat = n) : x = BitVec.ofNat 4 n := by
  rw [← h, BitVec.ofNat_toNat, BitVec.setWidth_eq]

section
variable {fd : FdState} (p : Params) (b : Byte)

theorem fdReceive_of_done (hm : fd.mode = .done) : fdReceive p fd b = (fd, []) := by
  simp [fdReceive, hm]

theorem fdReceive_at_start (hm : fd.mode = .acc) (h0 : fd.idx = 0) :
    fdReceive p fd b = if b = Config.startCode then ({ fd with idx := 1 }, []) else frameErr .badStart b fd := by
  simp [fdReceive, hm, h0]

theorem fdReceive_at_digit (hm : fd.mode = .acc) (i : Fin 12) (hi : fd.idx.toNat = i.val + 1) :
    fdReceive p fd b =
      if isHex p b = true then
        ({ fd with idx := BitVec.ofNat 4 (i.val + 2), dig := fd.dig.set i.val (hexVal b) }, [])
      else frameErr .badHex b fd := by
  have hne : ¬ fd.idx = 0 := fun hz => by simp [hz] at hi
  have hnext : fd.idx + 1 = BitVec.ofNat 4 (i.val + 2) := by
    rw [idx_eq_of_toNat hi]
    exact (BitVec.ofNat_add _ 1).symm
  have hset : fd.dig.setIfInBounds i.val (hexVal b) = fd.dig.set i.val (hexVal b) :=
    Vector.ext fun j hj => by rw [Vector.getElem_setIfInBounds hj, Vector.getElem_set]
  simp only [fdReceive, hm, if_neg hne, acceptDigit, hnext, hi, if_pos (show i.val + 1 ≤ 12 from i.isLt),
    Nat.add_sub_cancel, hset]

theorem fdReceive_at_end (hm : fd.mode = .acc) (h13 : fd.idx = 13) :
    fdReceive p fd b =
      if b ≠ Config.endCode then frameErr .badEnd b fd
      else if checksumOk fd.dig = true then completeFrame fd else frameErr .badChecksum b fd := by
  cases hc : checksumOk fd.dig <;> simp [fdReceive, hm, h13, hc]

end

/-- The state that a frame error leaves, and its event (R58). -/
theorem setFd_frameErr {s : State} {k : BitVec 4} (cause : FrameCause) (b : Byte) (hk : s.fd.idx = k) :
    s.setFd (frameErr cause b s.fd).1 (frameErr cause b s.fd).2 =
      { s with
        fd := { s.fd with idx := if b = 0x02 then 1 else 0, dig := Vector.replicate 12 0 }
        events := [.frameError cause k b] } := by
  subst hk
  rfl

/-- The state that a completed frame leaves, with its outputs digit by digit (R59, R60). -/
theorem setFd_completeFrame (s : State) :
    s.setFd (completeFrame s.fd).1 (completeFrame s.fd).2 =
      let tag : BitVec 24 :=
        s.fd.dig[4] ++ s.fd.dig[5] ++ s.fd.dig[6] ++ s.fd.dig[7] ++ s.fd.dig[8] ++ s.fd.dig[9]
      let payload : BitVec 40 :=
        s.fd.dig[0] ++ s.fd.dig[1] ++ s.fd.dig[2] ++ s.fd.dig[3] ++ s.fd.dig[4] ++ s.fd.dig[5] ++
          s.fd.dig[6] ++ s.fd.dig[7] ++ s.fd.dig[8] ++ s.fd.dig[9]
      { s with
        fd :=
          { mode := .done
            idx := 0
            dig := Vector.replicate 12 0
            tag := tag
            payload := payload
            cks := s.fd.dig[10] ++ s.fd.dig[11] }
        events := [.fdTagOk tag payload] } := by
  rw [completeFrame, tagValue_eq_append, payloadWord_eq_append]
  rfl

/-- Settles O15, by the equation of `fdReceive` at each mode and index. -/
theorem fdByteFollowsItsPseudocode : Obligations.FdByteFollowsItsPseudocode := by
  intro b s
  refine ⟨?decodes, fun hm => ?done, fun hm h0 => ?start, fun i hm hi => ?digit, fun hm h13 => ?stop⟩
  case decodes =>
    rw [fdByte_word]
    exact decode_encode (i := .fdByte b) rfl
  case done =>
    rw [exec_fdByte, fdReceive_of_done _ _ hm]
    rfl
  case start =>
    rw [exec_fdByte, fdReceive_at_start _ _ hm h0]
    by_cases hb : b = 0x02
    · rw [if_pos hb, if_pos hb]
      rfl
    · rw [if_neg hb, if_neg hb, setFd_frameErr _ _ h0, if_neg hb]
  case digit =>
    rw [exec_fdByte, fdReceive_at_digit _ _ hm i hi]
    by_cases hb : isHex s.params b = true
    · rw [if_pos hb, if_pos hb]
      rfl
    · rw [if_neg hb, if_neg hb, setFd_frameErr _ _ (idx_eq_of_toNat hi)]
  case stop =>
    rw [exec_fdByte, fdReceive_at_end _ _ hm h13]
    by_cases hb : b ≠ 0x03
    · rw [if_pos hb, if_pos hb, setFd_frameErr _ _ h13]
    · have hne : b ≠ 0x02 := by
        rw [not_not.mp hb]
        decide
      rw [if_neg hb, if_neg hb]
      by_cases hc : checksumOk s.fd.dig = true
      · rw [if_pos hc, if_neg (not_not.mpr ((checksumOk_iff _).mp hc)), setFd_completeFrame]
      · rw [if_neg hc, if_pos (mt (checksumOk_iff _).mpr hc), setFd_frameErr _ _ h13, if_neg hne]

/-- A byte that raises a frame error does the recovery of rule R58, and does it in mode ACC. -/
theorem fdReceive_of_frameError_mem {p : Params} {fd : FdState} {b x : Byte} {c : FrameCause} {k : BitVec 4}
    (h : .frameError c k x ∈ (fdReceive p fd b).2) : fd.mode = .acc ∧ fdReceive p fd b = frameErr c b fd := by
  obtain ⟨-, hx⟩ | ⟨-, -, -, hx⟩ | ⟨hm, -, -, hx⟩ | ⟨-, -, -, -, hx⟩ | ⟨hm, -, -, -, hx⟩ | ⟨hm, -, -, hx⟩ |
    ⟨hm, -, -, -, hx⟩ | ⟨-, -, -, -, hx⟩ := fdReceive_cases p fd b <;> rw [hx] at h ⊢
  case inl | inr.inl | inr.inr.inr.inl => cases h
  case inr.inr.inr.inr.inr.inr.inr => cases List.mem_singleton.mp h
  all_goals
    cases List.mem_singleton.mp h
    exact ⟨hm, rfl⟩

/-- Settles O22: the frame error is the recovery (`fdReceive_of_frameError_mem`), which keeps the mode. -/
theorem frameErrorIsNotVisibleInFdStat : Obligations.FrameErrorIsNotVisibleInFdStat := by
  intro s t b c k x hx he
  cases (exec_fdByte b s).symm.trans hx
  obtain ⟨hm, hrec⟩ := fdReceive_of_frameError_mem he
  have hacc : (frameErr c b s.fd).1.mode = .acc := hm
  obtain ⟨hdone, -, -⟩ := fdStat_bits (frameErr c b s.fd).1
  have hstart (h0 : (frameErr c b s.fd).1.idx = 0) :
      fdReceive s.params (frameErr c b s.fd).1 0x02 = ({ (frameErr c b s.fd).1 with idx := 1 }, []) :=
    (fdReceive_at_start _ _ hacc h0).trans (if_pos rfl)
  rw [hrec]
  refine ⟨hm, hacc, by simpa [hacc] using hdone, rfl, fun h0 => ⟨_, exec_fdByte _ _, ?_⟩⟩
  exact ⟨congrArg (·.1.idx) (hstart h0), congrArg Prod.snd (hstart h0)⟩

end Sys2Proof.Machine
end

section
/-! PROOFS. The TagID string (R61): `Dec` gives the decimal digits of a number.

With enough fuel for the number, `decDigits` has the number's value (`decimalValue_decDigits`), no leading zero
(`decDigits_head_ne_zero`) and the length that the logarithm gives (`decDigits_length`). -/

namespace Sys2Proof.Machine

/-! ## The digits of a number -/

theorem digitByte_toNat {d : Nat} (hd : d < 10) : (digitByte d).toNat = 0x30 + d := by
  rw [digitByte, BitVec.toNat_ofNat]
  omega

theorem isDigit_digitByte {d : Nat} (hd : d < 10) : isDigit (digitByte d) = true := by
  rw [isDigit, digitByte_toNat hd, decide_eq_true_eq]
  omega

/-- One more digit at the low end (R8). -/
theorem decimalValue_append_digitByte (ds : List Byte) {d : Nat} (hd : d < 10) :
    decimalValue (ds ++ [digitByte d]) = decimalValue ds * 10 + d := by
  simp [decimalValue, digitsValue, digitByte_toNat hd]

theorem decDigits_of_lt {v : Nat} (hv : v < 10) (fuel : Nat) : decDigits (fuel + 1) v = [digitByte v] := by
  rw [decDigits, if_pos hv]

theorem decDigits_of_ge {v : Nat} (hv : ¬ v < 10) (fuel : Nat) :
    decDigits (fuel + 1) v = decDigits fuel (v / 10) ++ [digitByte (v % 10)] := by
  rw [decDigits, if_neg hv]

theorem decDigits_all_isDigit (fuel v : Nat) : (decDigits fuel v).all isDigit = true := by
  induction fuel generalizing v with
  | zero => rfl
  | succ fuel ih =>
    by_cases hv : v < 10
    · simp [decDigits_of_lt hv, isDigit_digitByte hv]
    · rw [decDigits_of_ge hv, List.all_append, ih]
      simp [isDigit_digitByte (Nat.mod_lt v (by decide : 0 < 10))]

theorem decimalValue_decDigits {fuel v : Nat} (hfuel : v < 10 ^ fuel) : decimalValue (decDigits fuel v) = v := by
  induction fuel generalizing v with
  | zero =>
    obtain rfl : v = 0 := by simpa using hfuel
    rfl
  | succ fuel ih =>
    by_cases hv : v < 10
    · rw [decDigits_of_lt hv]
      simpa [decimalValue, digitsValue] using decimalValue_append_digitByte [] hv
    · rw [decDigits_of_ge hv, decimalValue_append_digitByte _ (Nat.mod_lt v (by decide)),
        ih (by rw [pow_succ] at hfuel; omega), Nat.div_add_mod']

theorem decDigits_ne_nil (fuel v : Nat) : decDigits (fuel + 1) v ≠ [] := by
  by_cases hv : v < 10
  · simp [decDigits_of_lt hv]
  · simp [decDigits_of_ge hv]

theorem decDigits_head_ne_zero {fuel v : Nat} (hfuel : v < 10 ^ fuel) (hpos : 0 < v) :
    (decDigits fuel v).head? ≠ some 0x30 := by
  induction fuel generalizing v with
  | zero => simp [decDigits]
  | succ fuel ih =>
    by_cases hv : v < 10
    · have hne : digitByte v ≠ digitByte 0 := fun h => by
        have heq := congrArg BitVec.toNat h
        rw [digitByte_toNat hv, digitByte_toNat (by decide)] at heq
        omega
      rw [decDigits_of_lt hv, List.head?_cons]
      exact fun h => hne (Option.some.inj h)
    · have hrest : v / 10 < 10 ^ fuel := by rw [pow_succ] at hfuel; omega
      have hne : decDigits fuel (v / 10) ≠ [] := fun hnil => by
        have hvalue := decimalValue_decDigits hrest
        rw [hnil] at hvalue
        exact absurd hvalue (by simp [decimalValue, digitsValue]; omega)
      rw [decDigits_of_ge hv, List.head?_append_of_ne_nil _ hne]
      exact ih hrest (by omega)

theorem decDigits_length {fuel v : Nat} (hfuel : v < 10 ^ (fuel + 1)) :
    (decDigits (fuel + 1) v).length = Nat.log 10 v + 1 := by
  induction fuel generalizing v with
  | zero =>
    have hv : v < 10 := by simpa using hfuel
    simp [decDigits_of_lt hv, Nat.log_of_lt hv]
  | succ fuel ih =>
    by_cases hv : v < 10
    · simp [decDigits_of_lt hv, Nat.log_of_lt hv]
    · rw [decDigits_of_ge hv, List.length_append, List.length_singleton, ih (by rw [pow_succ] at hfuel; omega),
        Nat.log_of_one_lt_of_le (by decide) (Nat.le_of_not_lt hv)]

/-! ## The TagID -/

/-- Settles O17: thirteen digits are enough fuel for a tag of 24 bits, whose value has at most eight. -/
theorem tagIdStringIsTheDecimalValue : Obligations.TagIdStringIsTheDecimalValue := by
  intro v
  have hv : v.toNat < 2 ^ 24 := v.isLt
  have hfuel : v.toNat < 10 ^ 13 := by omega
  have hlen : (dec v.toNat).length = Nat.log 10 v.toNat + 1 := decDigits_length hfuel
  have hprefixed : (tagIdString .prefixed v).length = Nat.log 10 v.toNat + 4 := by
    simp [tagIdString, hlen]
  refine ⟨dec v.toNat, decDigits_ne_nil 12 _, decDigits_all_isDigit 13 _, decimalValue_decDigits hfuel, ?_, rfl, rfl,
    ?_, ?_, ?_⟩
  · intro hhead
    obtain hzero | hpos := Nat.eq_zero_or_pos v.toNat
    · rw [hzero]
      rfl
    · exact absurd hhead (decDigits_head_ne_zero hfuel hpos)
  · omega
  · have hlog : Nat.log 10 v.toNat < 8 := Nat.log_lt_of_lt_pow' (by decide) (by omega)
    omega
  · have hlog := Nat.log_eq_iff (b := 10) (m := 6) (n := v.toNat) (.inl (by decide))
    omega

end Sys2Proof.Machine
end

section
/-! PROOFS. The tags of a run (R66 to R68).

Mode DONE stands for one reported tag (`FdState.tagCount`), and without FD_RESET and FD_XERR a run raises just the
tags by which that count goes up (`tagOkCount_add_tagCount`). So how many tags a run raises is read off the mode at
its two ends, and the statements about frames follow from where the FD is still, or no longer, in mode ACC. -/

namespace Sys2Proof.Machine

/-! ## Events that report no tag -/

theorem renderLine_tags (p : Params) (bl : Bool) (line : BitVec 3) (addr : BitVec 7) (t : Segment) :
    (renderLine p bl line addr t).2.countP isTagOk = 0 := by
  rw [renderLine]
  split <;> rfl

theorem leEffect_tags (p : Params) (le : LeState) (i : Instr) : (leEffect p le i).2.countP isTagOk = 0 := by
  cases i with
  | lePrintLine line text =>
    simp only [leEffect, printLineEffect]
    split
    · rfl
    · next addr _ => exact renderLine_tags p le.bl line addr text
  | lePrintLines t1 t2 t3 t4 => simp only [leEffect, renderLines, List.countP_append, renderLine_tags]
  | leLoadGlyphs n rows =>
    simp only [leEffect, loadGlyphsEffect]
    split_ifs <;> rfl
  | _ => rfl

theorem dbEffect_tags (p : Params) (levels : Button → Bool × Bool) (db : DbState) (i : Instr) :
    (dbEffect p levels db i).2.countP isTagOk = 0 := by
  cases i with
  | dbSample button =>
    simp only [dbEffect, sampleEffect]
    split
    · rfl
    · simp only [dbSampled]
      split <;> rfl
  | _ => rfl

/-! ## Mode DONE counts the tag -/

/-- The tags reported since the last reset of the FD: one in mode DONE, none in mode ACC (R68). -/
def FdState.tagCount (fd : FdState) : Nat := (fdModeBit fd.mode).toNat

theorem FdState.tagCount_of_acc {fd : FdState} (hm : fd.mode = .acc) : fd.tagCount = 0 := by
  rw [FdState.tagCount, hm]
  rfl

theorem FdState.tagCount_of_done {fd : FdState} (hm : fd.mode = .done) : fd.tagCount = 1 := by
  rw [FdState.tagCount, hm]
  rfl

theorem FdState.tagCount_le_one (fd : FdState) : fd.tagCount ≤ 1 :=
  Nat.le_of_lt_succ (fdModeBit fd.mode).isLt

theorem FdState.tagCount_eq_zero_iff {fd : FdState} : fd.tagCount = 0 ↔ fd.mode = .acc := by
  cases hm : fd.mode with
  | acc => simp [FdState.tagCount_of_acc hm]
  | done => simp [FdState.tagCount_of_done hm]

/-- A byte raises the tag by which it takes the FD to mode DONE (R62). -/
theorem fdReceive_tagCount (p : Params) (fd : FdState) (b : Byte) :
    (fdReceive p fd b).2.countP isTagOk + fd.tagCount = (fdReceive p fd b).1.tagCount := by
  obtain ⟨-, hx⟩ | ⟨-, -, -, hx⟩ | ⟨-, -, -, hx⟩ | ⟨-, -, -, -, hx⟩ | ⟨-, -, -, -, hx⟩ | ⟨-, -, -, hx⟩ |
    ⟨-, -, -, -, hx⟩ | ⟨hm, -, -, -, hx⟩ := fdReceive_cases p fd b <;> rw [hx]
  case inr.inr.inr.inr.inr.inr.inr =>
    rw [FdState.tagCount_of_acc hm]
    rfl
  all_goals exact Nat.zero_add _

theorem fdEffect_tagCount (p : Params) (fd : FdState) {i : Instr} (hreset : i ≠ .fdReset) (hxerr : i ≠ .fdXerr) :
    (fdEffect p fd i).2.countP isTagOk + fd.tagCount = (fdEffect p fd i).1.tagCount := by
  cases i with
  | fdByte b => exact fdReceive_tagCount p fd b
  | fdReset => exact absurd rfl hreset
  | fdXerr => exact absurd rfl hxerr
  | _ => exact Nat.zero_add _

theorem exec_tagCount {i : Instr} {s t : State} (hreset : i ≠ .fdReset) (hxerr : i ≠ .fdXerr)
    (hx : exec i s = .next t) : t.events.countP isTagOk + s.fd.tagCount = t.fd.tagCount := by
  cases hu : i.unit with
  | fd =>
    rw [exec_of_fd hu] at hx
    cases hx
    exact fdEffect_tagCount s.params s.fd hreset hxerr
  | le =>
    rw [exec_of_le hu] at hx
    cases hx
    simp [leEffect_tags]
  | db =>
    rw [exec_of_db hu] at hx
    cases hx
    simp [dbEffect_tags]

/-- In mode DONE only FD_RESET and FD_XERR write the FD (R62, R68). -/
theorem exec_fd_of_done {i : Instr} {s t : State} (hreset : i ≠ .fdReset) (hxerr : i ≠ .fdXerr)
    (hm : s.fd.mode = .done) (hx : exec i s = .next t) : t.fd = s.fd := by
  by_cases hu : i.unit = .fd
  · rw [exec_of_fd hu] at hx
    cases hx
    cases i with
    | fdByte b => exact congrArg Prod.fst (fdReceive_of_done s.params b hm)
    | fdReset => exact absurd rfl hreset
    | fdXerr => exact absurd rfl hxerr
    | _ => rfl
  · obtain ⟨hfd, -, -⟩ := exec_other_units hx
    exact hfd hu

/-! ## Runs -/

theorem tagOkCount_nil (s : State) : tagOkCount [] s = 0 := rfl

theorem tagOkCount_cons {i : Instr} {s t : State} (hx : exec i s = .next t) (is : List Instr) :
    tagOkCount (i :: is) s = t.events.countP isTagOk + tagOkCount is t := by
  simp [tagOkCount, eventsOf, statesAfter, hx]

theorem tagOkCount_append {is : List Instr} {s t : State} (hrun : runOps is s = some t) (js : List Instr) :
    tagOkCount (is ++ js) s = tagOkCount is s + tagOkCount js t := by
  induction is generalizing s with
  | nil =>
    obtain rfl : s = t := Option.some.inj hrun
    rw [List.nil_append, tagOkCount_nil, Nat.zero_add]
  | cons i is ih =>
    obtain ⟨u, -, hx, -⟩ := exec_appends i s
    rw [runOps_cons_of_exec hx] at hrun
    rw [List.cons_append, tagOkCount_cons hx, tagOkCount_cons hx, ih hrun, Nat.add_assoc]

/-- What every operation of a run keeps, the run keeps. -/
theorem runOps_keeps {P : State → Prop} {is : List Instr} {s t : State}
    (hstep : ∀ i ∈ is, ∀ u v, exec i u = .next v → P u → P v) (hrun : runOps is s = some t) (h : P s) : P t := by
  induction is generalizing s with
  | nil =>
    obtain rfl : s = t := Option.some.inj hrun
    exact h
  | cons i is ih =>
    obtain ⟨u, -, hx, -⟩ := exec_appends i s
    obtain ⟨hi, his⟩ := List.forall_mem_cons.mp hstep
    rw [runOps_cons_of_exec hx] at hrun
    exact ih his hrun (hi s u hx h)

theorem runOps_params {is : List Instr} {s t : State} (hrun : runOps is s = some t) : t.params = s.params :=
  runOps_keeps (P := fun u => u.params = s.params) (fun _ _ _ _ hx h => (exec_params hx).trans h) hrun rfl

section
variable {is : List Instr} {s t : State} (hreset : Instr.fdReset ∉ is) (hxerr : Instr.fdXerr ∉ is)
  (hrun : runOps is s = some t)
include hreset hxerr hrun

theorem tagOkCount_add_tagCount : tagOkCount is s + s.fd.tagCount = t.fd.tagCount := by
  induction is generalizing s with
  | nil =>
    obtain rfl : s = t := Option.some.inj hrun
    rw [tagOkCount_nil, Nat.zero_add]
  | cons i is ih =>
    obtain ⟨u, -, hx, -⟩ := exec_appends i s
    rw [runOps_cons_of_exec hx] at hrun
    have hfirst := exec_tagCount (List.ne_of_not_mem_cons hreset).symm (List.ne_of_not_mem_cons hxerr).symm hx
    have hrest := ih (List.not_mem_of_not_mem_cons hreset) (List.not_mem_of_not_mem_cons hxerr) hrun
    rw [tagOkCount_cons hx]
    omega

theorem runOps_fd_of_done (hm : s.fd.mode = .done) : t.fd = s.fd :=
  runOps_keeps (P := fun u => u.fd = s.fd)
    (fun _ hi _ _ hx h =>
      (exec_fd_of_done (ne_of_mem_of_not_mem hi hreset) (ne_of_mem_of_not_mem hi hxerr) (h ▸ hm) hx).trans h)
    hrun rfl

end

/-- Settles O21: the tags of the run are those by which the FD's count of at most one goes up
(`tagOkCount_add_tagCount`). -/
theorem atMostOneTagBetweenResets : Obligations.AtMostOneTagBetweenResets := by
  intro is s hreset hxerr
  obtain ⟨t, -, hrun, -⟩ := runOps_appends is s
  have hcount := tagOkCount_add_tagCount hreset hxerr hrun
  have hle := t.fd.tagCount_le_one
  refine ⟨t, hrun, by omega, fun hone => ?_, fun hm => ?_⟩
  · cases hm : t.fd.mode with
    | done => rfl
    | acc => exact absurd (FdState.tagCount_of_acc hm) (by omega)
  · have hkeep : t.fd = s.fd := runOps_fd_of_done hreset hxerr hrun hm
    have hdone := FdState.tagCount_of_done hm
    exact ⟨by omega, hkeep, by rw [hkeep, runOps_params hrun]⟩

/-! ## Runs that receive: polls do not matter (R63) -/

theorem not_mem_of_all_isReceive {is : List Instr} (h : is.all isReceive = true) {i : Instr}
    (hi : isReceive i = false) : i ∉ is := fun hmem => by
  rw [List.all_eq_true.mp h i hmem] at hi
  cases hi

theorem bytes_isReceive (bs : List Byte) : (bs.map Instr.fdByte).all isReceive = true := by
  simp [isReceive]

/-- The tags of a run that receives, from the parameters, the FD and the bytes alone. -/
theorem tagOkCount_eq_bytes {is : List Instr} {s s' : State} (h : is.all isReceive = true)
    (hp : s.params = s'.params) (hfd : s.fd = s'.fd) :
    tagOkCount is s = tagOkCount ((bytesOf is).map .fdByte) s' := by
  induction is generalizing s s' with
  | nil => rfl
  | cons i is ih =>
    obtain ⟨hi, his⟩ := Bool.and_eq_true_iff.mp (List.all_cons ▸ h)
    cases i with
    | fdPoll =>
      have hx : exec .fdPoll s = .next (s.setEvents []) := rfl
      have hbytes : bytesOf (.fdPoll :: is) = bytesOf is := rfl
      rw [tagOkCount_cons hx, ih his (s := s.setEvents []) hp hfd, State.setEvents_events, List.countP_nil,
        Nat.zero_add, hbytes]
    | fdByte b =>
      rw [bytesOf, List.map_cons, tagOkCount_fdByte_cons, tagOkCount_fdByte_cons, hp, hfd]
      exact congrArg _ (ih his hp rfl)
    | _ => cases hi

/-- In a run that receives, the tags are those by which the FD's count goes up. -/
theorem tagOkCount_add_tagCount_of_receive {is : List Instr} {s t : State} (h : is.all isReceive = true)
    (hrun : runOps is s = some t) : tagOkCount is s + s.fd.tagCount = t.fd.tagCount :=
  tagOkCount_add_tagCount (not_mem_of_all_isReceive h rfl) (not_mem_of_all_isReceive h rfl) hrun

/-- From mode ACC, a valid frame after any bytes leaves exactly one tag raised: its own, or an earlier one. -/
theorem tagOkCount_bytes_then_validFrame {s : State} (pre : List Byte) {f : List Byte} (hm : s.fd.mode = .acc)
    (hf : validFrame s.params f = true) : tagOkCount ((pre ++ f).map .fdByte) s = 1 := by
  obtain ⟨t, -, hrun, -⟩ := runOps_appends (pre.map .fdByte) s
  obtain ⟨u, -, hframe, -⟩ := runOps_appends (f.map .fdByte) t
  have hpre := tagOkCount_add_tagCount_of_receive (bytes_isReceive pre) hrun
  have hpost := tagOkCount_add_tagCount_of_receive (bytes_isReceive f) hframe
  have hzero := FdState.tagCount_of_acc hm
  rw [List.map_append, tagOkCount_append hrun]
  cases ht : t.fd.mode with
  | acc =>
    have hone := tagOkCount_validFrame (runOps_params hrun ▸ hf) ht
    have hcount := FdState.tagCount_of_acc ht
    omega
  | done =>
    have hcount := FdState.tagCount_of_done ht
    have hle := u.fd.tagCount_le_one
    omega

/-- Settles O19: the tag has been raised by the frame's last byte (`tagOkCount_bytes_then_validFrame`), and the FD's
count of at most one leaves none for the rest. -/
theorem fdResynchronises : Obligations.FdResynchronises := by
  intro s pre f post is js hm hf his hjs hbytes _
  obtain ⟨t, -, hrun, -⟩ := runOps_appends is s
  obtain ⟨u, -, hrest, -⟩ := runOps_appends js t
  have hone : tagOkCount is s = 1 := by
    rw [tagOkCount_eq_bytes his rfl rfl, hbytes, tagOkCount_bytes_then_validFrame pre hm hf]
  have hfirst := tagOkCount_add_tagCount_of_receive his hrun
  have hsecond := tagOkCount_add_tagCount_of_receive hjs hrest
  have hle := u.fd.tagCount_le_one
  refine ⟨?_, hone⟩
  rw [tagOkCount_append hrun]
  omega

/-! ## A faulty frame raises no tag (R67) -/

section
variable {fd : FdState} (p : Params) (b : Byte)

/-- Nothing but an END_CODE after twelve digits with the right checksum takes the FD to mode DONE (R62). -/
theorem fdReceive_mode_of_incomplete (hm : fd.mode = .acc)
    (h : ¬ (13 ≤ fd.idx.toNat ∧ b = Config.endCode ∧ checksumOk fd.dig = true)) :
    (fdReceive p fd b).1.mode = .acc := by
  obtain ⟨-, hx⟩ | ⟨-, -, -, hx⟩ | ⟨-, -, -, hx⟩ | ⟨-, -, -, -, hx⟩ | ⟨-, -, -, -, hx⟩ | ⟨-, -, -, hx⟩ |
    ⟨-, -, -, -, hx⟩ | ⟨-, h13, hb, hc, -⟩ := fdReceive_cases p fd b
  case inr.inr.inr.inr.inr.inr.inr => exact absurd ⟨h13, hb, hc⟩ h
  all_goals
    rw [hx]
    exact hm

/-- A byte takes the index up by one at most (R62). -/
theorem fdReceive_idx_le : (fdReceive p fd b).1.idx.toNat ≤ fd.idx.toNat + 1 := by
  have hframeErr (cause : FrameCause) : (frameErr cause b fd).1.idx.toNat ≤ fd.idx.toNat + 1 := by
    simp only [frameErr]
    split <;> simp
  obtain ⟨-, hx⟩ | ⟨-, -, -, hx⟩ | ⟨-, -, -, hx⟩ | ⟨-, -, -, -, hx⟩ | ⟨-, -, -, -, hx⟩ | ⟨-, -, -, hx⟩ |
    ⟨-, -, -, -, hx⟩ | ⟨-, -, -, -, hx⟩ := fdReceive_cases p fd b <;> rw [hx]
  case inl => exact Nat.le_succ _
  case inr.inl => simp
  case inr.inr.inr.inl =>
    rw [acceptDigit, BitVec.toNat_add]
    exact Nat.mod_le _ _
  case inr.inr.inr.inr.inr.inr.inr => exact Nat.zero_le _
  all_goals exact hframeErr _

end

section
variable {s : State} (hm : s.fd.mode = .acc)
include hm

theorem tagOkCount_byte_of_incomplete {b : Byte}
    (h : ¬ (13 ≤ s.fd.idx.toNat ∧ b = Config.endCode ∧ checksumOk s.fd.dig = true)) (is : List Instr) :
    tagOkCount (.fdByte b :: is) s =
      tagOkCount is (s.setFd (fdReceive s.params s.fd b).1 (fdReceive s.params s.fd b).2) := by
  have hcount := fdReceive_tagCount s.params s.fd b
  rw [FdState.tagCount_of_acc (fdReceive_mode_of_incomplete s.params b hm h)] at hcount
  rw [tagOkCount_fdByte_cons, Nat.eq_zero_of_add_eq_zero_right hcount, Nat.zero_add]

/-- A frame is complete with its last byte, not before (R62). -/
theorem tagOkCount_of_short {bs : List Byte} (hlen : s.fd.idx.toNat + bs.length ≤ 13) :
    tagOkCount (bs.map .fdByte) s = 0 := by
  induction bs generalizing s with
  | nil => rfl
  | cons b bs ih =>
    rw [List.length_cons] at hlen
    have hinc : ¬ (13 ≤ s.fd.idx.toNat ∧ b = Config.endCode ∧ checksumOk s.fd.dig = true) :=
      fun ⟨h13, _⟩ => absurd h13 (by omega)
    have hidx := fdReceive_idx_le (fd := s.fd) s.params b
    rw [List.map_cons, tagOkCount_byte_of_incomplete hm hinc]
    exact ih (fdReceive_mode_of_incomplete s.params b hm hinc) (by rw [State.setFd_fd]; omega)

/-- A run that receives and raises no tag leaves the FD in mode ACC. -/
theorem runOps_mode_of_no_tag {is : List Instr} {t : State} (h : is.all isReceive = true)
    (hrun : runOps is s = some t) (hnone : tagOkCount is s = 0) : t.fd.mode = .acc := by
  have hcount := tagOkCount_add_tagCount_of_receive h hrun
  rw [hnone, FdState.tagCount_of_acc hm] at hcount
  exact FdState.tagCount_eq_zero_iff.mp hcount.symm

/-- A byte that is no START_CODE is lost at index 0, and what follows is too short for a frame. -/
theorem tagOkCount_of_bad_start (h0 : s.fd.idx = 0) {st : Byte} {bs : List Byte} (hst : st ≠ Config.startCode)
    (hlen : bs.length ≤ 13) : tagOkCount ((st :: bs).map .fdByte) s = 0 := by
  have hidx : (fdReceive s.params s.fd st).1.idx.toNat = 0 := by
    rw [fdReceive_at_start _ _ hm h0, if_neg hst, frameErr, if_neg hst]
    rfl
  have hinc : ¬ (13 ≤ s.fd.idx.toNat ∧ st = Config.endCode ∧ checksumOk s.fd.dig = true) :=
    fun ⟨h13, _⟩ => absurd h13 (by simp [h0])
  rw [List.map_cons, tagOkCount_byte_of_incomplete hm hinc]
  exact tagOkCount_of_short (fdReceive_mode_of_incomplete s.params st hm hinc)
    (by rw [State.setFd_fd, hidx, Nat.zero_add]; exact hlen)

/-- The first thirteen bytes are too short for a frame, and the last one does not complete it. -/
theorem tagOkCount_of_bad_end (h0 : s.fd.idx = 0) {bs : List Byte} {en : Byte} (hlen : bs.length ≤ 13)
    (hen : en ≠ Config.endCode) : tagOkCount ((bs ++ [en]).map .fdByte) s = 0 := by
  obtain ⟨t, -, hrun, -⟩ := runOps_appends (bs.map .fdByte) s
  have hnone : tagOkCount (bs.map .fdByte) s = 0 := tagOkCount_of_short hm (by simpa [h0] using hlen)
  have ht : t.fd.mode = .acc := runOps_mode_of_no_tag hm (bytes_isReceive bs) hrun hnone
  rw [List.map_append, tagOkCount_append hrun, hnone, Nat.zero_add, List.map_singleton,
    tagOkCount_byte_of_incomplete ht fun ⟨_, hb, _⟩ => hen hb, tagOkCount_nil]

/-- A START_CODE and hexadecimal digits raise no tag, and are the frame taken so far whatever came before. -/
theorem tagOkCount_startCode_digits {ds : List Byte} (hlen : ds.length ≤ 12)
    (hhex : ∀ b ∈ ds, isHex s.params b = true) (is : List Instr) :
    ∃ t, tagOkCount (.fdByte Config.startCode :: (ds.map .fdByte ++ is)) s = tagOkCount is t ∧
      t.fd.HasDigits (ds.map hexVal) := by
  obtain ⟨hstart, hnone⟩ := fdReceive_startCode s.params hm
  obtain ⟨t, hcount, -, ht⟩ := tagOkCount_digits is
    (s := s.setFd (fdReceive s.params s.fd Config.startCode).1 (fdReceive s.params s.fd Config.startCode).2)
    hstart (by simpa using hlen) hhex
  refine ⟨t, ?_, by simpa using ht⟩
  rw [tagOkCount_fdByte_cons, hnone, Nat.zero_add, hcount]

/-- A valid frame raises no tag before its last byte. -/
theorem tagOkCount_dropLast_validFrame {f : List Byte} (hf : validFrame s.params f = true) :
    tagOkCount (f.dropLast.map .fdByte) s = 0 := by
  unfold validFrame at hf
  split at hf
  case h_2 => cases hf
  case h_1 st d0 d1 d2 d3 d4 d5 d6 d7 d8 d9 c0 c1 en =>
    simp only [Bool.and_eq_true, decide_eq_true_eq] at hf
    obtain ⟨⟨⟨rfl, -⟩, hhex⟩, -⟩ := hf
    obtain ⟨_, hcount, -⟩ := tagOkCount_startCode_digits hm
      (ds := [d0, d1, d2, d3, d4, d5, d6, d7, d8, d9, c0, c1]) (Nat.le_refl 12) (List.all_eq_true.mp hhex) []
    exact hcount

end

theorem checksumOk_iff_of_hasDigits {fd : FdState} {n0 n1 n2 n3 n4 n5 n6 n7 n8 n9 c0 c1 : Nibble}
    (h : fd.HasDigits [n0, n1, n2, n3, n4, n5, n6, n7, n8, n9, c0, c1]) :
    checksumOk fd.dig = true ↔ n0 ++ n1 ^^^ n2 ++ n3 ^^^ n4 ++ n5 ^^^ n6 ++ n7 ^^^ n8 ++ n9 = c0 ++ c1 := by
  have hdig : fd.dig = #v[n0, n1, n2, n3, n4, n5, n6, n7, n8, n9, c0, c1] := by
    rw [← Vector.toList_inj]
    exact (List.take_of_length_le (by simp)).symm.trans h.dig
  rw [hdig]
  exact checksumOk_iff _

/-- Each of the three faults keeps the FD from completing a frame (R67). -/
theorem tagOkCount_faultyFrame {q : List Byte} {s : State} (hm : s.fd.mode = .acc) (h0 : s.fd.idx = 0)
    (hq : faultyFrame s.params q = true) : tagOkCount (q.map .fdByte) s = 0 := by
  unfold faultyFrame at hq
  split at hq
  case h_2 => cases hq
  case h_1 st d0 d1 d2 d3 d4 d5 d6 d7 d8 d9 c0 c1 en =>
    simp only [Bool.or_eq_true, Bool.and_eq_true, decide_eq_true_eq] at hq
    by_cases hst : st = Config.startCode
    case neg => exact tagOkCount_of_bad_start hm h0 hst (Nat.le_refl 13)
    by_cases hen : en = Config.endCode
    case neg =>
      exact tagOkCount_of_bad_end hm h0 (bs := [st, d0, d1, d2, d3, d4, d5, d6, d7, d8, d9, c0, c1])
        (Nat.le_refl 13) hen
    obtain (hne | hne) | ⟨hhex, hsum⟩ := hq
    · exact absurd hst hne
    · exact absurd hen hne
    · subst hst hen
      obtain ⟨t, hcount, ht⟩ := tagOkCount_startCode_digits hm
        (ds := [d0, d1, d2, d3, d4, d5, d6, d7, d8, d9, c0, c1]) (Nat.le_refl 12) (List.all_eq_true.mp hhex)
        [.fdByte Config.endCode]
      have hbad : ¬ checksumOk t.fd.dig = true := mt (checksumOk_iff_of_hasDigits ht).mp hsum
      exact hcount.trans (tagOkCount_byte_of_incomplete ht.mode (fun ⟨_, _, hc⟩ => hbad hc) [])

/-- Settles O20: the faulty frame raises no tag (`tagOkCount_faultyFrame`), and from mode ACC the valid one raises
its tag on its last byte. -/
theorem fdRecoversAfterAFaultyFrame : Obligations.FdRecoversAfterAFaultyFrame := by
  intro s q f hm h0 hq hf
  obtain ⟨t, -, hrun, -⟩ := runOps_appends (q.map .fdByte) s
  have hnone : tagOkCount (q.map .fdByte) s = 0 := tagOkCount_faultyFrame hm h0 hq
  have ht : t.fd.mode = .acc := runOps_mode_of_no_tag hm (bytes_isReceive q) hrun hnone
  refine ⟨hnone, ?_, tagOkCount_bytes_then_validFrame q hm hf⟩
  rw [List.map_append, tagOkCount_append hrun, hnone,
    tagOkCount_dropLast_validFrame ht (runOps_params hrun ▸ hf)]

end Sys2Proof.Machine
end

section
/-! PROOFS. The bus items of a byte and of a line (R70 to R73, R84).

The transfers of a strobe differ in the enable bit alone (`transferBytes_sendNibble`), so that what the transfers of a
byte carry is read off signal by signal. -/

namespace Sys2Proof.Machine

/-! ## A transfer byte (R70) -/

/-- The expander bit map is all that a transfer byte takes from the parameters. -/
theorem xferByte_congr {p p' : Params} (h : p.expander = p'.expander) : xferByte p = xferByte p' := by
  unfold xferByte
  rw [h]

theorem xferByte_of_standard {p : Params} (h : p.expander = .standard) (bl : Bool) (n : Nibble) (en rs : Bool) :
    xferByte p bl n en rs =
      n ++ BitVec.ofBool bl ++ BitVec.ofBool en ++ (0 : BitVec 1) ++ BitVec.ofBool rs := by
  rw [xferByte_congr (p' := .standard) h]
  revert bl n en rs
  decide

/-- Settles O28, by the places of the map of rule R48. -/
theorem transferBytesHaveTheirLayout : Obligations.TransferBytesHaveTheirLayout :=
  fun _ bl n en rs h => xferByte_of_standard h bl n en rs

/-! ## A byte on the bus (R71 to R73) -/

theorem sendByte_append (p : Params) (bl rs : Bool) (hi lo : Nibble) :
    sendByte p bl (hi ++ lo) rs = sendNibble p bl hi rs ++ sendNibble p bl lo rs := by
  rw [sendByte, BitVec.extractLsb'_append_eq_left, BitVec.extractLsb'_append_eq_right]

/-- Settles O29: the nibbles of a byte are the two that it is put together from (`sendByte_append`). -/
theorem sendByteIsTwoStrobes : Obligations.SendByteIsTwoStrobes :=
  ⟨fun _ _ _ _ => rfl, sendByte_append, fun _ _ _ => ⟨rfl, rfl⟩⟩

theorem transferBytes_append (items more : List BusItem) :
    transferBytes (items ++ more) = transferBytes items ++ transferBytes more := by
  induction items with
  | nil => rfl
  | cons item items ih => cases item <;> simp [transferBytes, ih]

theorem mem_transferBytes_iff (b : Byte) (items : List BusItem) : b ∈ transferBytes items ↔ .xfer b ∈ items := by
  induction items with
  | nil => simp [transferBytes]
  | cons item items ih => cases item <;> simp [transferBytes, ih]

/-- The enable bits of the transfers of one strobe, in order (R71). -/
def strobeEnables (p : Params) : List Bool :=
  if p.nibbleSetupWrite then [false, true, false] else [true, false]

theorem transferBytes_sendNibble (p : Params) (bl : Bool) (n : Nibble) (rs : Bool) :
    transferBytes (sendNibble p bl n rs) = (strobeEnables p).map (fun en => xferByte p bl n en rs) := by
  unfold sendNibble strobeEnables
  split <;> rfl

theorem transferBytes_sendByte_append (p : Params) (bl rs : Bool) (hi lo : Nibble) :
    transferBytes (sendByte p bl (hi ++ lo) rs) =
      (strobeEnables p).map (fun en => xferByte p bl hi en rs) ++
        (strobeEnables p).map (fun en => xferByte p bl lo en rs) := by
  rw [sendByte_append, transferBytes_append, transferBytes_sendNibble, transferBytes_sendNibble]

/-- A strobe has two waits, with the set-up write and without (R71). -/
theorem sendNibble_waits (p : Params) (bl : Bool) (n : Nibble) (rs : Bool) :
    (sendNibble p bl n rs).countP (fun i => decide (busKind i ≠ 0)) = 2 := by
  unfold sendNibble
  split <;> rfl

section
variable {p : Params} (hwf : p.wf)
include hwf

theorem map_carried_strobe (bl : Bool) (n : Nibble) (rs : Bool) :
    ((strobeEnables p).map (fun en => xferByte p bl n en rs)).map (carried p.expander) =
      List.replicate (strobeEnables p).length (n, rs) := by
  rw [List.map_map, List.map_eq_replicate_iff]
  exact fun en _ => carried_xferByte p bl n en rs hwf

theorem map_en_strobe (bl : Bool) (n : Nibble) (rs : Bool) :
    ((strobeEnables p).map (fun en => xferByte p bl n en rs)).map (fun b => b.getLsbD p.expander.en.val) =
      strobeEnables p := by
  rw [List.map_map]
  exact List.map_id'' (fun en => xferByte_en p bl n en rs hwf) _

theorem map_rs_strobe (bl : Bool) (n : Nibble) (rs : Bool) :
    ((strobeEnables p).map (fun en => xferByte p bl n en rs)).map (fun b => b.getLsbD p.expander.rs.val) =
      List.replicate (strobeEnables p).length rs := by
  rw [List.map_map, List.map_eq_replicate_iff]
  exact fun en _ => xferByte_rs p bl n en rs hwf

/-- No transfer of the LE reads the display (R34, R73). -/
theorem sendByte_rw (bl : Bool) (v : Byte) (rs : Bool) {b : Byte} (hb : b ∈ transferBytes (sendByte p bl v rs)) :
    b.getLsbD p.expander.rw.val = false := by
  obtain ⟨n, en, rfl⟩ := mem_sendByte_xfer p bl v rs b ((mem_transferBytes_iff b _).mp hb)
  exact xferByte_rw p bl n en rs hwf

theorem map_rs_sendByte (bl : Bool) (v : Byte) (rs : Bool) :
    (transferBytes (sendByte p bl v rs)).map (fun b => b.getLsbD p.expander.rs.val) =
      List.replicate (2 * (strobeEnables p).length) rs := by
  rw [sendByte, transferBytes_append, List.map_append, transferBytes_sendNibble, transferBytes_sendNibble,
    map_rs_strobe hwf, map_rs_strobe hwf, ← List.replicate_add, ← Nat.two_mul]

end

/-- Settles O30, strobe by strobe: the nibble and the register select by `map_carried_strobe`, the enable bits by
`map_en_strobe`. -/
theorem sendByteShape : Obligations.SendByteShape := by
  intro p bl rs hi lo hwf
  refine ⟨?_, ?_, ?_, fun b hb => sendByte_rw hwf bl _ rs hb⟩
  · rw [sendByte_append, List.countP_append, sendNibble_waits, sendNibble_waits]
  · rw [transferBytes_sendByte_append, List.map_append, map_carried_strobe hwf, map_carried_strobe hwf,
      strobeEnables]
    split <;> rfl
  · rw [transferBytes_sendByte_append, List.map_append, map_en_strobe hwf, map_en_strobe hwf, strobeEnables]
    split <;> rfl

/-! ## A line on the bus (R84) -/

theorem map_rs_flatMap_sendData {p : Params} (hwf : p.wf) (bl : Bool) (codes : List Byte) :
    (transferBytes (codes.flatMap (sendData p bl))).map (fun b => b.getLsbD p.expander.rs.val) =
      List.replicate (2 * (strobeEnables p).length * codes.length) true := by
  induction codes with
  | nil => rfl
  | cons c codes ih =>
    rw [List.flatMap_cons, transferBytes_append, List.map_append, ih, sendData, map_rs_sendByte hwf,
      ← List.replicate_add, List.length_cons, Nat.mul_succ, Nat.add_comm]

theorem map_rs_renderLine {p : Params} (hwf : p.wf) (bl : Bool) (n : BitVec 3) (addr : BitVec 7) (t : Segment) :
    (transferBytes (renderLine p bl n addr t).1).map (fun b => b.getLsbD p.expander.rs.val) =
      List.replicate (2 * (strobeEnables p).length) false ++
        List.replicate (2 * (strobeEnables p).length * ((escapeParse t).take p.cols).length) true := by
  rw [renderLine, transferBytes_append, List.map_append, sendCmd, map_rs_sendByte hwf, map_rs_flatMap_sendData hwf]

/-- Settles O41: the register selects of the line's transfers (`map_rs_renderLine`) also count them. -/
theorem renderedLineIsBounded : Obligations.RenderedLineIsBounded := by
  intro p bl n addr t hwf hsetup
  have hlen : ((escapeParse t).take p.cols).length ≤ p.cols := List.length_take_le _ _
  have hrs := map_rs_renderLine hwf bl n addr t
  have hstrobe : 2 * (strobeEnables p).length = 4 := by simp [strobeEnables, hsetup]
  rw [hstrobe] at hrs
  have hcount := congrArg List.length hrs
  simp only [List.length_map, List.length_append, List.length_replicate] at hcount
  exact ⟨_, _, hlen, rfl, hrs, by omega, fun hcols => by omega⟩

end Sys2Proof.Machine
end

section
/-! PROOFS. The equations of `EscapeParse` (R74), one for each branch of its token (`escapeStep`). -/

namespace Sys2Proof.Machine

theorem escapeParse_literal {c : Byte} (hc : c ≠ ampersand) (r : List Byte) :
    escapeParse (c :: r) = c :: escapeParse r := by
  rw [escapeParse_cons, escapeStep, if_pos hc]

theorem escapeParse_amp2 (r : List Byte) :
    escapeParse (ampersand :: ampersand :: r) = ampersand :: escapeParse r := by
  rw [escapeParse_cons, escapeStep, if_neg (not_not.mpr rfl), if_pos List.head?_cons, List.tail_cons]

/-- The digits of an escape end at its closing `&`, which is no digit. -/
theorem takeWhile_isDigit_append_ampersand {ds : List Byte} (hds : ds.all isDigit = true) (r : List Byte) :
    (ds ++ ampersand :: r).takeWhile isDigit = ds := by
  rw [List.takeWhile_append_of_pos (List.all_eq_true.mp hds), List.takeWhile_cons_of_neg (by decide),
    List.append_nil]

theorem head?_digits_append_ne_ampersand {ds : List Byte} (hne : ds ≠ []) (hds : ds.all isDigit = true)
    (r : List Byte) : (ds ++ r).head? ≠ some ampersand := by
  cases ds with
  | nil => exact absurd rfl hne
  | cons d ds =>
    obtain ⟨hd, -⟩ := List.forall_mem_cons.mp (List.all_eq_true.mp hds)
    rintro ⟨⟩
    exact absurd hd (by decide)

theorem escapeParse_escape {ds : List Byte} (hne : ds ≠ []) (hds : ds.all isDigit = true)
    (hval : decimalValue ds ≤ 255) (r : List Byte) :
    escapeParse (ampersand :: (ds ++ ampersand :: r)) = BitVec.ofNat 8 (decimalValue ds) :: escapeParse r := by
  rw [escapeParse_cons, escapeStep, if_neg (not_not.mpr rfl),
    if_neg (head?_digits_append_ne_ampersand hne hds _), takeWhile_isDigit_append_ampersand hds,
    if_pos ⟨List.length_pos_iff.mpr hne, by simp, hval⟩, List.drop_length_add_append,
    List.drop_one, List.tail_cons]

/-- The `&` that is neither doubled nor the start of an escape. -/
theorem escapeParse_lone {r : List Byte} (hamp : r.head? ≠ some ampersand)
    (hesc : ∀ ds r' : List Byte, r = ds ++ ampersand :: r' → ds ≠ [] → ds.all isDigit = true →
      255 < decimalValue ds) : escapeParse (ampersand :: r) = ampersand :: escapeParse r := by
  rw [escapeParse_cons, escapeStep, if_neg (not_not.mpr rfl), if_neg hamp, if_neg]
  rintro ⟨hlen, hstop, hval⟩
  obtain ⟨hk, hget⟩ := List.getElem?_eq_some_iff.mp hstop
  have hsplit : r = r.takeWhile isDigit ++ ampersand :: r.drop ((r.takeWhile isDigit).length + 1) := by
    conv_lhs => rw [← List.take_append_drop (r.takeWhile isDigit).length r]
    rw [List.drop_eq_getElem_cons hk, hget, ← List.prefix_iff_eq_take.mp (List.takeWhile_prefix isDigit)]
  exact absurd hval (Nat.not_le.mpr (hesc _ _ hsplit (List.length_pos_iff.mp hlen) List.all_takeWhile))

/-- Settles O31, branch by branch. -/
theorem escapeParseEquations : Obligations.EscapeParseEquations :=
  ⟨escapeParse_nil, escapeParse_amp2, fun _ r hne hds hval => escapeParse_escape hne hds hval r,
    fun _ hamp hesc => escapeParse_lone hamp hesc, fun _ r hc => escapeParse_literal hc r⟩

end Sys2Proof.Machine
end

section
/-! PROOFS. The operations of the LE and the items they emit (R75 to R81).

LE_PRINT_LINES and a run of LE_PRINT_LINE are both told from one list of lines (`renderLines_eq_flatMap`,
`runOps_printLines`). -/

namespace Sys2Proof.Machine

/-! ## LE_INIT, LE_CLEAR and the backlight (R76 to R79) -/

/-- Settles O33: the word is the encoding of LE_INIT, and its items are those of rule R76. -/
theorem leInitEmitsItsSequence : Obligations.LeInitEmitsItsSequence :=
  fun _ => ⟨decode_encode (i := .leInit) rfl, rfl⟩

/-- Settles O34: the word is the encoding of LE_CLEAR, and its items are those of rule R77. -/
theorem leClearEmitsTheClearCommand : Obligations.LeClearEmitsTheClearCommand :=
  fun _ => ⟨decode_encode (i := .leClear) rfl, rfl⟩

/-- LE_STAT shows the backlight bit as an operation has written it (R18, R78, R79). -/
theorem leStat_setBacklight (p : Params) (on : Bool) (le : LeState) :
    (leStat (setBacklight p on le)).getLsbD 0 = on := by
  obtain ⟨hbl, -, -⟩ := leStat_bits (setBacklight p on le)
  exact hbl

/-- Settles O35: both operations are `setBacklight`, and the byte of their transfer is the layout of rule R70. -/
theorem backlightOperationsSetTheBitAndShowIt : Obligations.BacklightOperationsSetTheBitAndShowIt := by
  intro s
  refine ⟨decode_encode (i := .leBlOn) rfl, decode_encode (i := .leBlOff) rfl,
    ⟨_, rfl, leStat_setBacklight s.params true s.le, rfl⟩,
    ⟨_, rfl, leStat_setBacklight s.params false s.le, rfl⟩, fun hstd => ⟨?_, ?_⟩⟩
  · rw [xferByte_of_standard hstd]
    rfl
  · exact xferByte_of_all_zero s.params

/-! ## LE_PRINT_LINE (R75, R80) -/

theorem exec_lePrintLine (line : BitVec 3) (text : Segment) (s : State) :
    exec (.lePrintLine line text) s = execLePrintLine line text s := by
  rfl

/-- Settles O36, by the lines that the field can name. -/
theorem printLineRendersOneLine : Obligations.PrintLineRendersOneLine := by
  intro s t
  simp only [exec_lePrintLine]
  constructor
  · intro n addr hline
    have haddr : lineAddr s.params n = some addr := by
      obtain ⟨rfl, rfl⟩ | ⟨rfl, rfl⟩ | ⟨rfl, rfl⟩ | ⟨rfl, rfl⟩ := hline <;> rfl
    exact execLePrintLine_some s n t addr haddr
  · intro n hline
    have haddr : lineAddr s.params n = none := by
      obtain rfl | rfl | rfl | rfl := hline <;> rfl
    exact execLePrintLine_none s n t haddr

/-! ## LE_PRINT_LINES (R81) -/

/-- The items and the events of one line with its text, at the address of the line (R75). -/
def renderedLine (p : Params) (bl : Bool) (x : BitVec 3 × Segment) : List BusItem × List Event :=
  renderLine p bl x.1 ((lineAddr p x.1).getD 0) x.2

/-- The lines of LE_PRINT_LINES with their texts, in the order of rule R81. -/
def fourLines (t1 t2 t3 t4 : Segment) : List (BitVec 3 × Segment) := [(1, t1), (2, t2), (3, t3), (4, t4)]

theorem fourLines_ok (t1 t2 t3 t4 : Segment) : ∀ x ∈ fourLines t1 t2 t3 t4, lineFieldOk x.1 = true := by
  simp [fourLines, lineFieldOk, Config.rows]

theorem renderLines_eq_flatMap (p : Params) (bl : Bool) (t1 t2 t3 t4 : Segment) :
    renderLines p bl t1 t2 t3 t4 =
      ((fourLines t1 t2 t3 t4).flatMap (fun x => (renderedLine p bl x).1),
        (fourLines t1 t2 t3 t4).flatMap (fun x => (renderedLine p bl x).2)) := by
  simp [renderLines, renderedLine, lineAddr, fourLines]

theorem exec_lePrintLine_of_ok {line : BitVec 3} (hline : lineFieldOk line = true) (text : Segment) (s : State) :
    exec (.lePrintLine line text) s =
      .next (s.setLe (s.le.emit (renderedLine s.params s.le.bl (line, text)).1)
        (renderedLine s.params s.le.bl (line, text)).2) := by
  obtain ⟨addr, ha⟩ := Option.isSome_iff_exists.mp ((lineAddr_isSome s.params line).trans hline)
  rw [exec_lePrintLine, execLePrintLine_some s line text addr ha, renderedLine, ha, Option.getD_some]

theorem eventsOf_cons {i : Instr} {s t : State} (hx : exec i s = .next t) (is : List Instr) :
    eventsOf (i :: is) s = t.events ++ eventsOf is t := by
  simp [eventsOf, statesAfter, hx]

/-- A run that prints lines appends the items of each, and raises the events of each (R80, R100). -/
theorem runOps_printLines {lines : List (BitVec 3 × Segment)} (hok : ∀ x ∈ lines, lineFieldOk x.1 = true)
    (s : State) :
    ∃ es, runOps (lines.map (fun x => .lePrintLine x.1 x.2)) s =
        some (s.setLe (s.le.emit (lines.flatMap (fun x => (renderedLine s.params s.le.bl x).1))) es) ∧
      eventsOf (lines.map (fun x => .lePrintLine x.1 x.2)) s =
        lines.flatMap (fun x => (renderedLine s.params s.le.bl x).2) := by
  induction lines generalizing s with
  | nil => exact ⟨s.events, by simp [runOps, State.setLe, LeState.emit], rfl⟩
  | cons x lines ih =>
    obtain ⟨hx, hlines⟩ := List.forall_mem_cons.mp hok
    have hexec := exec_lePrintLine_of_ok hx x.2 s
    obtain ⟨es, hrun, hevents⟩ := ih hlines _
    refine ⟨es, ?_, ?_⟩
    · rw [List.map_cons, runOps_cons_of_exec hexec, hrun]
      simp [State.setLe, LeState.emit]
    · rw [List.map_cons, eventsOf_cons hexec, hevents]
      simp

theorem renderLine_events_length (p : Params) (bl : Bool) (line : BitVec 3) (addr : BitVec 7) (t : Segment) :
    (renderLine p bl line addr t).2.length ≤ 1 := by
  rw [renderLine]
  split <;> simp

theorem renderLine_events_truncated {p : Params} {bl : Bool} {line : BitVec 3} {addr : BitVec 7} {t : Segment}
    {e : Event} (he : e ∈ (renderLine p bl line addr t).2) : ∃ n d, e = .leTruncated n d := by
  simp only [renderLine, List.mem_ite_nil_right, List.mem_singleton] at he
  obtain ⟨-, rfl⟩ := he
  exact ⟨_, _, rfl⟩

theorem renderLines_events_length (p : Params) (bl : Bool) (t1 t2 t3 t4 : Segment) :
    (renderLines p bl t1 t2 t3 t4).2.length ≤ 4 := by
  have h1 := renderLine_events_length p bl 1 p.lineAddrs.line1 t1
  have h2 := renderLine_events_length p bl 2 p.lineAddrs.line2 t2
  have h3 := renderLine_events_length p bl 3 p.lineAddrs.line3 t3
  have h4 := renderLine_events_length p bl 4 p.lineAddrs.line4 t4
  simp only [renderLines, List.length_append]
  omega

theorem renderLines_events_truncated {p : Params} {bl : Bool} {t1 t2 t3 t4 : Segment} {e : Event}
    (he : e ∈ (renderLines p bl t1 t2 t3 t4).2) : ∃ n d, e = .leTruncated n d := by
  simp only [renderLines, List.mem_append, or_assoc] at he
  obtain h | h | h | h := he <;> exact renderLine_events_truncated h

/-- Settles O37: the run of the four lines (`runOps_printLines`) appends and raises what `renderLines` does
(`renderLines_eq_flatMap`). -/
theorem printLinesIsFourPrintLines : Obligations.PrintLinesIsFourPrintLines := by
  intro s t1 t2 t3 t4
  obtain ⟨es, hrun, hevents⟩ := runOps_printLines (fourLines_ok t1 t2 t3 t4) s
  have hlines := renderLines_eq_flatMap s.params s.le.bl t1 t2 t3 t4
  refine ⟨fun hok => decode_encode (i := .lePrintLines t1 t2 t3 t4) hok, _, _, rfl, hrun, ?_, ?_,
    renderLines_events_length s.params s.le.bl t1 t2 t3 t4, fun e he => renderLines_events_truncated he, rfl⟩
  · rw [hlines]
    rfl
  · exact (congrArg Prod.snd hlines).trans hevents.symm

end Sys2Proof.Machine
end

section
/-! PROOFS. The backlight bit on the bus (R70, R83).

Every operation's transfers show the backlight bit as the operation leaves it (`exec_shows`), and only LE_BL_ON and
LE_BL_OFF write it (`exec_bl`). -/

namespace Sys2Proof.Machine

/-! ## The transfers of an operation -/

/-- Every transfer among the items has the backlight bit `on` at its place of the expander bit map (R70). -/
def ShowsBacklight (p : Params) (on : Bool) (items : List BusItem) : Prop :=
  ∀ b ∈ transferBytes items, b.getLsbD p.expander.bl.val = on

theorem showsBacklight_nil (p : Params) (on : Bool) : ShowsBacklight p on [] := fun _ hb => nomatch hb

theorem showsBacklight_wait (p : Params) (on : Bool) (k : WaitKind) : ShowsBacklight p on [.wait k] :=
  fun _ hb => nomatch hb

theorem showsBacklight_append {p : Params} {on : Bool} {items more : List BusItem} :
    ShowsBacklight p on (items ++ more) ↔ ShowsBacklight p on items ∧ ShowsBacklight p on more := by
  rw [ShowsBacklight, transferBytes_append]
  exact List.forall_mem_append

section
variable {p : Params} (hwf : p.wf)
include hwf

theorem sendNibble_shows (bl : Bool) (n : Nibble) (rs : Bool) : ShowsBacklight p bl (sendNibble p bl n rs) := by
  intro b hb
  obtain ⟨en, rfl⟩ := mem_sendNibble_xfer p bl n rs b ((mem_transferBytes_iff b _).mp hb)
  exact xferByte_bl p bl n en rs hwf

theorem sendByte_shows (bl : Bool) (v : Byte) (rs : Bool) : ShowsBacklight p bl (sendByte p bl v rs) :=
  showsBacklight_append.mpr ⟨sendNibble_shows hwf bl _ rs, sendNibble_shows hwf bl _ rs⟩

theorem sendCmd_shows (bl : Bool) (v : Byte) : ShowsBacklight p bl (sendCmd p bl v) :=
  sendByte_shows hwf bl v false

theorem flatMap_sendData_shows (bl : Bool) (codes : List Byte) :
    ShowsBacklight p bl (codes.flatMap (sendData p bl)) := by
  induction codes with
  | nil => exact showsBacklight_nil p bl
  | cons c codes ih => exact showsBacklight_append.mpr ⟨sendByte_shows hwf bl c true, ih⟩

theorem initItems_shows (bl : Bool) : ShowsBacklight p bl (initItems p bl) := by
  simp only [initItems, showsBacklight_append, sendNibble_shows hwf, sendCmd_shows hwf, showsBacklight_wait,
    and_self]

theorem clearItems_shows (bl : Bool) : ShowsBacklight p bl (clearItems p bl) :=
  showsBacklight_append.mpr ⟨sendCmd_shows hwf bl _, showsBacklight_wait p bl _⟩

theorem renderLine_shows (bl : Bool) (line : BitVec 3) (addr : BitVec 7) (t : Segment) :
    ShowsBacklight p bl (renderLine p bl line addr t).1 :=
  showsBacklight_append.mpr ⟨sendCmd_shows hwf bl _, flatMap_sendData_shows hwf bl _⟩

theorem renderLines_shows (bl : Bool) (t1 t2 t3 t4 : Segment) :
    ShowsBacklight p bl (renderLines p bl t1 t2 t3 t4).1 := by
  simp only [renderLines, showsBacklight_append, renderLine_shows hwf, and_self]

theorem glyphItems_shows (bl : Bool) (rows : Segment) : ShowsBacklight p bl (glyphItems p bl rows) :=
  showsBacklight_append.mpr ⟨sendCmd_shows hwf bl _, flatMap_sendData_shows hwf bl rows⟩

/-- The one transfer of LE_BL_ON or LE_BL_OFF shows the bit it writes (R78, R79). -/
theorem backlight_shows (on : Bool) : ShowsBacklight p on [.xfer (xferByte p on 0x0 false false)] := by
  intro b hb
  obtain rfl := List.mem_singleton.mp hb
  exact xferByte_bl p on 0x0 false false hwf

theorem leEffect_shows (le : LeState) (i : Instr) :
    ∃ items, (leEffect p le i).1.log = le.log ++ items ∧ ShowsBacklight p (leEffect p le i).1.bl items := by
  have hnone : ∃ items, le.log = le.log ++ items ∧ ShowsBacklight p le.bl items :=
    ⟨[], (List.append_nil _).symm, showsBacklight_nil p le.bl⟩
  cases i with
  | leInit => exact ⟨_, rfl, initItems_shows hwf le.bl⟩
  | leClear => exact ⟨_, rfl, clearItems_shows hwf le.bl⟩
  | leBlOn => exact ⟨_, rfl, backlight_shows hwf true⟩
  | leBlOff => exact ⟨_, rfl, backlight_shows hwf false⟩
  | lePrintLine line text =>
    simp only [leEffect, printLineEffect]
    split
    · exact hnone
    · exact ⟨_, rfl, renderLine_shows hwf le.bl line _ text⟩
  | lePrintLines t1 t2 t3 t4 => exact ⟨_, rfl, renderLines_shows hwf le.bl t1 t2 t3 t4⟩
  | leLoadGlyphs n rows =>
    simp only [leEffect, loadGlyphsEffect]
    split_ifs
    · exact hnone
    · exact hnone
    · exact ⟨_, rfl, glyphItems_shows hwf le.bl rows⟩
  | _ => exact hnone

end

/-- Whatever an operation appends to the log shows the backlight bit as the operation leaves it. -/
theorem exec_shows {i : Instr} {s t : State} (hwf : s.params.wf) (hx : exec i s = .next t) :
    ∃ items, t.le.log = s.le.log ++ items ∧ ShowsBacklight s.params t.le.bl items := by
  by_cases hu : i.unit = .le
  · rw [exec_of_le hu] at hx
    cases hx
    exact leEffect_shows hwf s.le i
  · obtain ⟨-, hle, -⟩ := exec_other_units hx
    exact ⟨[], by rw [hle hu, List.append_nil], showsBacklight_nil _ _⟩

/-! ## The operations that write the bit -/

theorem leEffect_bl (p : Params) (le : LeState) {i : Instr} (hon : i ≠ .leBlOn) (hoff : i ≠ .leBlOff) :
    (leEffect p le i).1.bl = le.bl := by
  cases i with
  | leBlOn => exact absurd rfl hon
  | leBlOff => exact absurd rfl hoff
  | lePrintLine line text =>
    simp only [leEffect, printLineEffect]
    split <;> rfl
  | leLoadGlyphs n rows =>
    simp only [leEffect, loadGlyphsEffect]
    split_ifs <;> rfl
  | _ => rfl

theorem exec_bl {i : Instr} {s t : State} (hon : i ≠ .leBlOn) (hoff : i ≠ .leBlOff) (hx : exec i s = .next t) :
    t.le.bl = s.le.bl := by
  by_cases hu : i.unit = .le
  · rw [exec_of_le hu] at hx
    cases hx
    exact leEffect_bl s.params s.le hon hoff
  · obtain ⟨-, hle, -⟩ := exec_other_units hx
    rw [hle hu]

/-- The operation that writes the backlight bit `on` (R78, R79). -/
def backlightOp : Bool → Instr
  | true => .leBlOn
  | false => .leBlOff

theorem exec_backlightOp (on : Bool) (s : State) :
    exec (backlightOp on) s = .next (s.setLe (setBacklight s.params on s.le) []) := by
  cases on <;> rfl

/-- Without the operation that writes the other value, the backlight bit stays. -/
theorem exec_keeps_bl {on : Bool} {i : Instr} {s t : State} (hi : i ≠ backlightOp (!on)) (hx : exec i s = .next t)
    (hbl : s.le.bl = on) : t.le.bl = on := by
  by_cases hsame : i = backlightOp on
  · rw [hsame, exec_backlightOp] at hx
    cases hx
    rfl
  · refine Eq.trans ?_ hbl
    cases on with
    | true => exact exec_bl hsame hi hx
    | false => exact exec_bl hi hsame hx

/-! ## Runs -/

theorem runOps_shows {on : Bool} {is : List Instr} {s : State} (hwf : s.params.wf)
    (hother : backlightOp (!on) ∉ is) (hbl : s.le.bl = on) :
    ∃ t items, runOps is s = some t ∧ t.le.log = s.le.log ++ items ∧ ShowsBacklight s.params on items := by
  induction is generalizing s with
  | nil => exact ⟨s, [], rfl, (List.append_nil _).symm, showsBacklight_nil _ _⟩
  | cons i is ih =>
    obtain ⟨u, -, hx, -⟩ := exec_appends i s
    have hparams := exec_params hx
    have hu : u.le.bl = on := exec_keeps_bl (List.ne_of_not_mem_cons hother).symm hx hbl
    obtain ⟨first, hfirst, hshow⟩ := exec_shows hwf hx
    obtain ⟨t, later, hrun, hlater, hshows⟩ := ih (hparams ▸ hwf) (List.not_mem_of_not_mem_cons hother) hu
    rw [hu] at hshow
    rw [hparams] at hshows
    exact ⟨t, first ++ later, by rw [runOps_cons_of_exec hx, hrun], by rw [hlater, hfirst, List.append_assoc],
      showsBacklight_append.mpr ⟨hshow, hshows⟩⟩

theorem runOps_after_backlightOp {on : Bool} {is : List Instr} {s s' : State} (hwf : s.params.wf)
    (hx : exec (backlightOp on) s = .next s') (hother : backlightOp (!on) ∉ is) :
    ∃ t items, runOps is s' = some t ∧ t.le.log = s'.le.log ++ items ∧ ShowsBacklight s.params on items := by
  rw [exec_backlightOp] at hx
  cases hx
  exact runOps_shows hwf hother rfl

/-- Settles O40, by induction on the run (`runOps_shows`). -/
theorem backlightBitPersists : Obligations.BacklightBitPersists :=
  ⟨fun _ _ _ hwf hx hother => runOps_after_backlightOp (on := false) hwf hx hother,
    fun _ _ _ hwf hx hother => runOps_after_backlightOp (on := true) hwf hx hother,
    fun _ _ _ hon hoff hx => exec_bl hon hoff hx⟩

end Sys2Proof.Machine
end

section
/-! PROOFS. The operations of the DB (R85 to R91): what one sample of a button leaves, and what follows for noisy
reads, for a button that is held, and for DB_REARM.

`exec_dbSample` says a sample is `State.afterSample` of the two levels drawn; the lemmas about `State.afterSample`
say what stands in the fields that the next sample reads. -/

namespace Sys2Proof.Machine

/-! ## The level and the edge of a sample (R86, R87) -/

theorem stable_eq_true_iff (r₁ r₂ : Bool) : stable r₁ r₂ = true ↔ r₁ = false ∧ r₂ = false := by
  simp [stable]

theorem edge_eq_true_iff (cur prev : Bool) : edge cur prev = true ↔ cur = true ∧ prev = false := by
  simp [edge]

/-- Settles O44, by the two tables. -/
theorem stableAndEdgeTables : Obligations.StableAndEdgeTables :=
  ⟨⟨rfl, rfl, rfl, rfl⟩, edge_eq_true_iff⟩

/-! ## One sample (R88) -/

/-- The state after a sample of button `b` whose two draws gave `r₁` and `r₂`. -/
def State.afterSample (s : State) (b : Button) (r₁ r₂ : Bool) : State :=
  s.afterDraw.afterDraw.setDb (dbSampled b r₁ r₂ s.db).1 (dbSampled b r₁ r₂ s.db).2

section
variable {s : State} {f : BitVec 2} {b : Button} {r₁ r₂ : Bool} {rest : List Bool}

theorem exec_dbSample (hb : buttonOf f = some b) (s : State) :
    exec (.dbSample f) s = .next (s.afterSample b (s.nextLevel b) (s.afterDraw.nextLevel b)) :=
  execDbSample_some s f b hb

/-- The two draws return the next two readings of the environment, where it has given two (R85). -/
theorem nextLevels_of_pins (b : Button) (hpins : s.pins = r₁ :: r₂ :: rest) :
    s.nextLevel b = r₁ ∧ s.afterDraw.nextLevel b = r₂ :=
  ⟨nextLevel_cons s b r₁ _ hpins, nextLevel_cons s.afterDraw b r₂ rest (by simp [hpins])⟩

theorem exec_dbSample_of_pins (hb : buttonOf f = some b) (hpins : s.pins = r₁ :: r₂ :: rest) :
    exec (.dbSample f) s = .next (s.afterSample b r₁ r₂) := by
  obtain ⟨hfirst, hsecond⟩ := nextLevels_of_pins b hpins
  rw [exec_dbSample hb, hfirst, hsecond]

end

section
variable (s : State) (b : Button) (r₁ r₂ : Bool)

@[simp] theorem State.afterSample_pins : (s.afterSample b r₁ r₂).pins = s.pins.drop 2 := by
  simp [State.afterSample, ← List.drop_one]

@[simp] theorem State.afterSample_prev : (s.afterSample b r₁ r₂).db.prev.get b = stable r₁ r₂ :=
  ButtonBits.get_set_self s.db.prev b _

/-- DB_PRESSED is raised by two low reads over a reference of 0, and by nothing else. -/
theorem State.afterSample_events :
    (s.afterSample b r₁ r₂).events =
      if r₁ = false ∧ r₂ = false ∧ s.db.prev.get b = false then [.dbPressed b] else [] := by
  simp only [State.afterSample, State.setDb_events, dbSampled, edge_eq_true_iff, stable_eq_true_iff, and_assoc]

/-- A sample that is not stable low raises nothing. -/
theorem State.afterSample_events_of_high (h : r₁ = true ∨ r₂ = true) : (s.afterSample b r₁ r₂).events = [] := by
  rw [State.afterSample_events, if_neg]
  rintro ⟨rfl, rfl, -⟩
  simp at h

theorem State.afterSample_events_of_low :
    (s.afterSample b false false).events = if s.db.prev.get b = false then [.dbPressed b] else [] := by
  simp only [State.afterSample_events, true_and]

end

theorem dbSample_word (f : BitVec 2) : (0x8000 ||| f.setWidth 16 : OpWord) = encodeWord (.dbSample f) := by
  revert f
  decide

/-- Settles O45: the fields 0, 1 and 2 name a button and sample it (`exec_dbSample`), 3 names none. -/
theorem dbSampleDerivesLevelAndEdge : Obligations.DbSampleDerivesLevelAndEdge := by
  intro s
  refine ⟨fun f => ?_, fun f b r₁ r₂ hfield hfirst hsecond => ?_, fun b _ _ _ hpins => nextLevels_of_pins b hpins, rfl⟩
  · rw [dbSample_word]
    exact decode_encode (i := .dbSample f) rfl
  · have hb : buttonOf f = some b := by
      obtain ⟨rfl, rfl⟩ | ⟨rfl, rfl⟩ | ⟨rfl, rfl⟩ := hfield <;> rfl
    rw [exec_dbSample hb, hfirst, hsecond, ← State.afterSample_events, ← State.afterSample_pins s b r₁ r₂]
    rfl

/-! ## Noisy reads (R90) -/

/-- Settles O47: by the reads of the sample, over the events it raises (`State.afterSample_events`). -/
theorem noisySampleIsNeverAPress : Obligations.NoisySampleIsNeverAPress := by
  refine ⟨fun s f b r₁ r₂ rest hb hpins => ⟨_, exec_dbSample_of_pins hb hpins, fun hne => ?_, ?_, ?_⟩,
    fun f b rest hb => ⟨_, exec_dbSample_of_pins hb rfl, ?_⟩⟩
  · refine State.afterSample_events_of_high s b r₁ r₂ ?_
    cases r₁ with
    | false => exact .inr (Bool.eq_true_of_not_eq_false hne.symm)
    | true => exact .inl rfl
  · rintro ⟨hhigh, -⟩
    exact State.afterSample_events_of_high s b r₁ r₂ (.inl hhigh)
  · rintro ⟨rfl, rfl⟩
    simp [State.afterSample_events_of_low]
  · have hprev : State.reset.db.prev.get b = false := ButtonBits.get_all false b
    rw [State.afterSample_events_of_low, if_pos hprev]

/-! ## A button that is held (R91) -/

theorem statesAfter_cons {i : Instr} {s t : State} (hx : exec i s = .next t) (is : List Instr) :
    statesAfter (i :: is) s = t :: statesAfter is t := by
  simp [statesAfter, hx]

/-- The first low sample leaves a reference of 1, over which no later one finds an edge. -/
theorem events_of_held {f : BitVec 2} {b : Button} (hb : buttonOf f = some b) (n : Nat) {s : State}
    {rest : List Bool} (hpins : s.pins = List.replicate (2 * n) false ++ rest) :
    (statesAfter (List.replicate n (.dbSample f)) s).map State.events =
      (List.range n).map (fun k => if k = 0 ∧ s.db.prev.get b = false then [.dbPressed b] else []) := by
  induction n generalizing s with
  | zero => rfl
  | succ n ih =>
    have hnext : s.pins = false :: false :: (List.replicate (2 * n) false ++ rest) := hpins
    have hlater := ih (s := s.afterSample b false false) (by simp [hnext])
    have hheld : (s.afterSample b false false).db.prev.get b = true := State.afterSample_prev s b false false
    rw [List.replicate_succ, statesAfter_cons (exec_dbSample_of_pins hb hnext), List.map_cons, hlater, hheld,
      State.afterSample_events_of_low, List.range_succ_eq_map, List.map_cons, List.map_map]
    simp [Function.comp_def]

/-- Settles O48: a run by induction (`events_of_held`); a sample that is not stable low leaves a reference of 0
(`State.afterSample_prev`). -/
theorem heldButtonReportsOnce : Obligations.HeldButtonReportsOnce := by
  refine ⟨fun f b n s rest hb hpins => events_of_held hb n hpins, fun f b r₁ r₂ s rest hb hhigh hpins => ?_⟩
  have hfirst := exec_dbSample_of_pins hb hpins
  have hsecond : exec (.dbSample f) (s.afterSample b false false) = _ :=
    exec_dbSample_of_pins hb (r₁ := r₁) (r₂ := r₂) (rest := false :: false :: rest) (by simp [hpins])
  have hthird : exec (.dbSample f) ((s.afterSample b false false).afterSample b r₁ r₂) = _ :=
    exec_dbSample_of_pins hb (r₁ := false) (r₂ := false) (rest := rest) (by simp [hpins])
  have hrearmed : stable r₁ r₂ = false := by
    rw [← Bool.not_eq_true, stable_eq_true_iff]
    rintro ⟨rfl, rfl⟩
    simp at hhigh
  refine ⟨_, _, _, by rw [statesAfter_cons hfirst, statesAfter_cons hsecond, statesAfter_cons hthird, statesAfter],
    State.afterSample_events_of_high _ b r₁ r₂ hhigh, ?_⟩
  rw [State.afterSample_events_of_low, State.afterSample_prev, if_pos hrearmed]

/-! ## DB_REARM and the references (R89) -/

/-- A sample writes one value to the level and to the reference of its button, and leaves the others. -/
theorem dbSampled_prev_eq_level {db : DbState} {b : Button} (c : Button) (r₁ r₂ : Bool)
    (h : db.prev.get b = db.level.get b) :
    (dbSampled c r₁ r₂ db).1.prev.get b = (dbSampled c r₁ r₂ db).1.level.get b := by
  by_cases hc : b = c
  · simp [dbSampled, hc]
  · simpa [dbSampled, ButtonBits.get_set_ne _ c b _ hc] using h

theorem dbEffect_prev_eq_level {db : DbState} {b : Button} (p : Params) (levels : Button → Bool × Bool) {i : Instr}
    (hi : i ≠ .dbRearm) (h : db.prev.get b = db.level.get b) :
    (dbEffect p levels db i).1.prev.get b = (dbEffect p levels db i).1.level.get b := by
  cases i with
  | dbRearm => exact absurd rfl hi
  | dbSample f =>
    cases hf : buttonOf f with
    | none => simpa only [dbEffect, sampleEffect, hf] using h
    | some c => simpa only [dbEffect, sampleEffect, hf] using dbSampled_prev_eq_level c _ _ h
  | _ => exact h

theorem exec_prev_eq_level {i : Instr} {s t : State} {b : Button} (hi : i ≠ .dbRearm) (hx : exec i s = .next t)
    (h : s.db.prev.get b = s.db.level.get b) : t.db.prev.get b = t.db.level.get b := by
  by_cases hu : i.unit = .db
  · rw [exec_of_db hu] at hx
    cases hx
    exact dbEffect_prev_eq_level s.params s.nextLevels hi h
  · obtain ⟨-, -, hdb⟩ := exec_other_units hx
    rw [hdb hu, h]

/-- Settles O46: the references all hold PREV_INIT, over which the next held sample has its edge or not; and no
other operation parts a reference from its level (`exec_prev_eq_level`). -/
theorem dbRearmSetsEveryReference : Obligations.DbRearmSetsEveryReference := by
  refine ⟨fun s => ⟨decode_encode (i := .dbRearm) rfl, _, rfl, rfl, fun f b rest hb hpins => ?_⟩,
    fun _ _ _ _ hi hx h => exec_prev_eq_level hi hx h⟩
  refine ⟨_, exec_dbSample_of_pins hb hpins, ?_⟩
  have hprev : (ButtonBits.all s.params.prevInit).get b = s.params.prevInit := ButtonBits.get_all _ b
  rw [State.afterSample_events_of_low, State.setDb_db, hprev]
  cases s.params.prevInit <;> rfl

end Sys2Proof.Machine
end

section
/-! PROOFS. Refusals and events (R92, R95, R96, R103): every operation completes, legal operands or not; one with legal
operands raises no refusal (`exec_of_legal`), any other is `State.refuse` of one (`exec_of_illegal`); and the code,
the kind and the info of each event. -/

namespace Sys2Proof.Machine

/-! ## Every operation has a next state (R103, R105) -/

@[simp] theorem State.afterDrawsOf_input (s : State) (i : Instr) : (s.afterDrawsOf i).input = s.input := by
  unfold State.afterDrawsOf
  split
  · split <;> simp
  · rfl

/-- An operation takes nothing from the stream (R2). -/
theorem exec_input {i : Instr} {s t : State} (h : exec i s = .next t) : t.input = s.input := by
  cases hu : i.unit with
  | fd =>
    rw [exec_of_fd hu] at h
    cases h
    simp
  | le =>
    rw [exec_of_le hu] at h
    cases h
    simp
  | db =>
    rw [exec_of_db hu] at h
    cases h
    simp

/-- Settles O8: the next state that `exec_appends` gives, by what an operation keeps of the parameters, the stream and
the draws. -/
theorem everyOperationCompletes : Obligations.EveryOperationCompletes := by
  intro i s
  obtain ⟨t, -, hx, -⟩ := exec_appends i s
  exact ⟨t, hx, exec_params hx, exec_input hx, exec_draws_of_not_db hx⟩

/-! ## Operands that are not legal (R51, R53, R95) -/

theorem lineAddr_eq_none_iff (p : Params) (line : BitVec 3) :
    lineAddr p line = none ↔ lineFieldOk line = false := by
  rw [← lineAddr_isSome p line, Option.isSome_eq_false_iff, Option.isNone_iff_eq_none]

theorem buttonOf_eq_none_iff (f : BitVec 2) : buttonOf f = none ↔ buttonFieldOk f = false := by
  revert f
  decide

/-- Checks 3 and 4 of R53: an operation that fails one is refused, with the event of that check. -/
theorem exec_of_illegal {i : Instr} {s : State} (hillegal : i.legal s.params = false) :
    ∃ e, eventKind e = .refusal ∧ exec i s = .next (s.refuse e) := by
  cases i with
  | lePrintLine line text =>
    have haddr : lineAddr s.params line = none := (lineAddr_eq_none_iff s.params line).mpr hillegal
    exact ⟨.leBadLine line, rfl, execLePrintLine_none s line text haddr⟩
  | leLoadGlyphs n rows =>
    obtain ⟨-, hx⟩ | ⟨-, -, hx⟩ | ⟨hcount, hlength, -⟩ := execLeLoadGlyphs_cases s n rows
    · exact ⟨.leBadGlyphCount n, rfl, hx⟩
    · exact ⟨.leGlyphLength n rows.length, rfl, hx⟩
    · simp [Instr.legal, hcount, hlength] at hillegal
  | dbSample button =>
    have hbutton : buttonOf button = none := (buttonOf_eq_none_iff button).mpr hillegal
    exact ⟨.dbBadButton button, rfl, execDbSample_none s button hbutton⟩
  | _ => cases hillegal

/-! ## Operands that are legal: the events of each unit are no refusals -/

/-- A byte raises frame errors and tags only (R62). -/
theorem fdReceive_not_refusal {p : Params} {fd : FdState} {b : Byte} {e : Event} (he : e ∈ (fdReceive p fd b).2) :
    eventKind e ≠ .refusal := by
  obtain ⟨-, hx⟩ | ⟨-, -, -, hx⟩ | ⟨-, -, -, hx⟩ | ⟨-, -, -, -, hx⟩ | ⟨-, -, -, -, hx⟩ | ⟨-, -, -, hx⟩ |
    ⟨-, -, -, -, hx⟩ | ⟨-, -, -, -, hx⟩ := fdReceive_cases p fd b <;> rw [hx] at he
  case inl | inr.inl | inr.inr.inr.inl => cases he
  all_goals
    obtain rfl := List.mem_singleton.mp he
    nofun

theorem fdEffect_not_refusal {p : Params} {fd : FdState} {i : Instr} {e : Event} (he : e ∈ (fdEffect p fd i).2) :
    eventKind e ≠ .refusal := by
  cases i with
  | fdByte b => exact fdReceive_not_refusal he
  | fdXerr =>
    obtain rfl := List.mem_singleton.mp he
    nofun
  | _ => cases he

/-- With legal operands the LE raises nothing but the warning LE_TRUNCATED (R75, R82). -/
theorem leEffect_truncated_of_legal {p : Params} {le : LeState} {i : Instr} {e : Event} (hlegal : i.legal p = true)
    (he : e ∈ (leEffect p le i).2) : ∃ n d, e = .leTruncated n d := by
  cases i with
  | lePrintLine line text =>
    obtain ⟨addr, haddr⟩ := Option.isSome_iff_exists.mp ((lineAddr_isSome p line).trans hlegal)
    simp only [leEffect, printLineEffect, haddr] at he
    exact renderLine_events_truncated he
  | lePrintLines t1 t2 t3 t4 => exact renderLines_events_truncated he
  | leLoadGlyphs n rows =>
    obtain ⟨hcount, hlength⟩ := Bool.and_eq_true_iff.mp hlegal
    simp [leEffect, loadGlyphsEffect, hcount, hlength] at he
  | _ => cases he

/-- With legal operands the DB raises nothing but the report DB_PRESSED (R88). -/
theorem dbEffect_pressed_of_legal {p : Params} {levels : Button → Bool × Bool} {db : DbState} {i : Instr} {e : Event}
    (hlegal : i.legal p = true) (he : e ∈ (dbEffect p levels db i).2) : ∃ b, e = .dbPressed b := by
  cases i with
  | dbSample button =>
    cases hb : buttonOf button with
    | none => exact absurd ((buttonOf_eq_none_iff button).mp hb) (ne_false_of_eq_true hlegal)
    | some b =>
      simp only [dbEffect, sampleEffect, hb, dbSampled, List.mem_ite_nil_right, List.mem_singleton] at he
      obtain ⟨-, rfl⟩ := he
      exact ⟨b, rfl⟩
  | _ => cases he

theorem exec_of_legal {i : Instr} {s t : State} (hlegal : i.legal s.params = true) (hx : exec i s = .next t) :
    ∀ e ∈ t.events, eventKind e ≠ .refusal := by
  intro e he
  cases hu : i.unit with
  | fd =>
    rw [exec_of_fd hu] at hx
    cases hx
    exact fdEffect_not_refusal he
  | le =>
    rw [exec_of_le hu] at hx
    cases hx
    obtain ⟨n, d, rfl⟩ := leEffect_truncated_of_legal hlegal he
    nofun
  | db =>
    rw [exec_of_db hu] at hx
    cases hx
    obtain ⟨b, rfl⟩ := dbEffect_pressed_of_legal hlegal he
    nofun

/-! ## Refusals (R95, R96) -/

theorem exec_eq_refuse_of_refusal {i : Instr} {s t : State} {e : Event} (hx : exec i s = .next t) (he : e ∈ t.events)
    (hkind : eventKind e = .refusal) : t = s.refuse e := by
  cases hlegal : i.legal s.params with
  | true => exact absurd hkind (exec_of_legal hlegal hx e he)
  | false =>
    obtain ⟨e', -, hx'⟩ := exec_of_illegal hlegal
    cases hx.symm.trans hx'
    rw [List.mem_singleton.mp he]

theorem legal_iff_no_refusal {i : Instr} {s t : State} (hx : exec i s = .next t) :
    i.legal s.params = true ↔ ∀ e ∈ t.events, eventKind e ≠ .refusal := by
  refine ⟨fun hlegal => exec_of_legal hlegal hx, fun hnone => ?_⟩
  by_contra hillegal
  obtain ⟨e, hkind, hx'⟩ := exec_of_illegal (Bool.eq_false_iff.mpr hillegal)
  cases hx.symm.trans hx'
  exact hnone e (List.mem_singleton_self e) hkind

theorem rejectEvent_kind (r : Reject) : eventKind (rejectEvent r) = .refusal := by
  cases r <;> rfl

theorem eventKind_refusal_iff_code (e : Event) :
    eventKind e = .refusal ↔ eventCode e ∈ [0x11, 0x12, 0x13, 0x21, 0x3E, 0x3F] := by
  cases e with
  | frameError cause index byte => cases cause <;> simp [eventKind, eventCode]
  | _ => simp [eventKind, eventCode]

/-- Settles O9: an operation is refused exactly when its operands are not legal (`exec_of_illegal`, `exec_of_legal`),
and a command that the decoder rejects is refused by the step. -/
theorem refusedOperationHasOneEventAndNoOtherEffect : Obligations.RefusedOperationHasOneEventAndNoOtherEffect := by
  refine ⟨fun _ _ _ _ => exec_eq_refuse_of_refusal, fun i s => ?_, fun s c rest r hin hdec => ?_,
    eventKind_refusal_iff_code⟩
  · obtain ⟨t, -, hx, -⟩ := exec_appends i s
    exact ⟨t, hx, legal_iff_no_refusal hx⟩
  · exact ⟨rejectEvent r, rejectEvent_kind r, step_of_decode_error hin hdec⟩

/-! ## The info of an event (R92) -/

theorem toNat_zero_append {m n : Nat} (x : BitVec n) : ((0 : BitVec m) ++ x).toNat = x.toNat := by
  simp

/-- An info with an operand in its low bits and a byte from bit 8 up (R92). -/
theorem toNat_byte_over_operand {gap n : Nat} (hbits : gap + n = 8) (b : Byte) (x : BitVec n) :
    ((0 : BitVec 48) ++ b ++ (0 : BitVec gap) ++ x).toNat = x.toNat + 2 ^ 8 * b.toNat := by
  calc ((0 : BitVec 48) ++ b ++ (0 : BitVec gap) ++ x).toNat
      = b.toNat * 2 ^ gap * 2 ^ n + x.toNat := by
        rw [toNat_append_eq_mul_add, toNat_append_eq_mul_add, toNat_zero_append, BitVec.ofNat_eq_ofNat,
          BitVec.toNat_zero, Nat.add_zero]
    _ = x.toNat + 2 ^ 8 * b.toNat := by rw [Nat.mul_assoc, ← Nat.pow_add, hbits, Nat.add_comm, Nat.mul_comm]

theorem eventInfo_frameError (c : FrameCause) (k : BitVec 4) (b : Byte) :
    (eventInfo (.frameError c k b)).toNat = k.toNat + 2 ^ 8 * b.toNat :=
  toNat_byte_over_operand rfl b k

theorem eventInfo_fdTagOk (tag : TagValue) (payload : BitVec 40) :
    (eventInfo (.fdTagOk tag payload)).toNat = payload.toNat + 2 ^ 40 * tag.toNat := by
  have htag : (tag.setWidth 24).toNat = tag.toNat := BitVec.toNat_setWidth_of_le (by decide)
  calc (eventInfo (.fdTagOk tag payload)).toNat
      = (tag.setWidth 24).toNat * 2 ^ 40 + payload.toNat := toNat_append_eq_mul_add _ _
    _ = payload.toNat + 2 ^ 40 * tag.toNat := by rw [htag]; omega

theorem toNat_ofNat_of_count {n : Nat} (h : n < 256) : (BitVec.ofNat 8 n).toNat = n := by
  rw [BitVec.toNat_ofNat, Nat.mod_eq_of_lt h]

theorem eventInfo_leTruncated (line : BitVec 3) {d : Nat} (hd : d < 256) :
    (eventInfo (.leTruncated line d)).toNat = line.toNat + 2 ^ 8 * d := by
  have hinfo := toNat_byte_over_operand (gap := 5) rfl (BitVec.ofNat 8 d) line
  rwa [toNat_ofNat_of_count hd] at hinfo

theorem eventInfo_leGlyphLength (n : BitVec 4) {len : Nat} (hlen : len < 256) :
    (eventInfo (.leGlyphLength n len)).toNat = n.toNat + 2 ^ 8 * len := by
  have hinfo := toNat_byte_over_operand (gap := 4) rfl (BitVec.ofNat 8 len) n
  rwa [toNat_ofNat_of_count hlen] at hinfo

theorem eventCode_mem (e : Event) :
    eventCode e ∈ [0x01, 0x02, 0x03, 0x04, 0x05, 0x06, 0x10, 0x11, 0x12, 0x13, 0x20, 0x21, 0x3E, 0x3F] := by
  cases e with
  | frameError cause index byte => cases cause <;> simp [eventCode]
  | _ => simp [eventCode]

/-- Settles O49, event by event: codes and kinds are the table's rows, and an info is its fields' numbers, each times
the place of its lowest bit. -/
theorem eventCodesAreThoseOfTheTable : Obligations.EventCodesAreThoseOfTheTable :=
  ⟨fun _ _ => ⟨rfl, rfl, rfl, rfl⟩,
    fun c k b => ⟨rfl, eventInfo_frameError c k b⟩,
    ⟨rfl, rfl, rfl⟩,
    fun tag payload => ⟨rfl, rfl, eventInfo_fdTagOk tag payload⟩,
    fun line _ => ⟨rfl, rfl, eventInfo_leTruncated line⟩,
    fun line => ⟨rfl, rfl, toNat_zero_append line⟩,
    fun n => ⟨rfl, rfl, toNat_zero_append n⟩,
    fun n _ => ⟨rfl, rfl, eventInfo_leGlyphLength n⟩,
    ⟨rfl, rfl, rfl, fun _ => rfl, rfl, rfl, rfl⟩,
    fun f => ⟨rfl, rfl, toNat_zero_append f⟩,
    fun w => ⟨rfl, rfl, toNat_zero_append w, rfl, rfl, toNat_zero_append w⟩,
    eventCode_mem⟩

end Sys2Proof.Machine
end

section
/-! PROOFS. Block reset and the three FD resets (R112, R113): what each leaves, and how FD_BYTE's own recovery from a
frame error (R58, R93) differs from them. -/

namespace Sys2Proof.Machine

/-! ## Block reset (R112) -/

theorem FdState.initial_dig (j : Fin 12) : FdState.initial.dig[j] = 0 := by
  simp [FdState.initial]

/-- At reset no button is pressed, and every edge reference is PREV_INIT. -/
theorem DbState.initial_get (p : Params) (b : Button) :
    (DbState.initial p).level.get b = false ∧ (DbState.initial p).prev.get b = p.prevInit :=
  ⟨ButtonBits.get_all false b, ButtonBits.get_all p.prevInit b⟩

/-- Settles O10: the reset state register by register, the step that takes a block reset (`step_of_blockReset`), and
DB_STAT at each PREV_INIT (`dbStat_resetWith`). -/
theorem resetStateHoldsTheResetValues : Obligations.ResetStateHoldsTheResetValues := by
  refine ⟨?registers, fun s rest hin => step_of_blockReset hin, fun p hp => ?dbStat⟩
  case registers =>
    exact ⟨rfl, rfl, FdState.initial_dig, rfl, rfl, rfl, fdStat_initial, rfl, rfl, rfl, rfl,
      DbState.initial_get .standard, dbStat_resetWith .standard, rfl⟩
  case dbStat => rw [dbStat_resetWith, if_pos hp]

/-! ## The three resets of the FD, and the recovery from a frame error (R58, R113) -/

/-- The recovery is no reset: the output registers stay, and the index is that of a frame not begun or, after a
START_CODE, just begun (R58). -/
theorem frameErr_keeps_outputs (cause : FrameCause) (b : Byte) (fd : FdState) :
    (frameErr cause b fd).1.tag = fd.tag ∧ (frameErr cause b fd).1.payload = fd.payload ∧
      (frameErr cause b fd).1.cks = fd.cks ∧
      ((frameErr cause b fd).1.idx = 0 ∨ (frameErr cause b fd).1.idx = 1) :=
  ⟨rfl, rfl, rfl, (ite_eq_or_eq (b = Config.startCode) 1 0).symm⟩

/-- An FD that has just received a START_CODE. -/
def frameBegun : FdState := { FdState.initial with idx := 1 }

/-- A START_CODE is no digit, so a second one is a frame error; it begins a frame itself (R58, R62). -/
theorem fdReceive_startCode_of_frameBegun (p : Params) :
    fdReceive p frameBegun Config.startCode = (frameBegun, [.frameError .badHex 1 Config.startCode]) := by
  have hhex : ¬ isHex p Config.startCode = true := by simp [isHex]
  rw [fdReceive_at_digit p _ rfl 0 rfl, if_neg hhex]
  rfl

theorem exec_startCode_of_frameBegun {s : State} (hs : s.fd = frameBegun) :
    exec (.fdByte Config.startCode) s = .next (s.setFd frameBegun [.frameError .badHex 1 Config.startCode]) := by
  rw [exec_fdByte, hs, fdReceive_startCode_of_frameBegun]

/-- Settles O11: the FD operations write the reset FD by their meanings; a frame error is the recovery `frameErr`
(`fdReceive_of_frameError_mem`), which a second START_CODE leaves at index 1. -/
theorem threeResetsLeaveTheSameFd : Obligations.ThreeResetsLeaveTheSameFd := by
  refine ⟨fun s => ⟨rfl, rfl, rfl, rfl, rfl⟩, fun s t b c k x hx he => ?recovery, ?beginsFrame⟩
  case recovery =>
    rw [exec_fdByte] at hx
    cases hx
    obtain ⟨-, hrec⟩ := fdReceive_of_frameError_mem he
    rw [State.setFd_fd, hrec]
    exact frameErr_keeps_outputs c b s.fd
  case beginsFrame =>
    exact ⟨{ State.reset with fd := frameBegun }, _, _, exec_startCode_of_frameBegun rfl, List.cons_ne_nil _ _, rfl⟩

end Sys2Proof.Machine
end
